-- ==== Sys2Proof/Word.lean ====
section
/-! DEFINITION. The words of the VIS (R6, R12 and Table 2.2 of the source): a byte, a 16-bit
halfword (the unit of instruction fetch, R53), the 32-bit integer register and address width, and the
two IEEE formats. -/

namespace Sys2Proof

/-- One byte of memory (R35, R50). -/
abbrev Byte := BitVec 8

/-- Sixteen bits: an instruction halfword (R53, R80), the source's "word" (R12). -/
abbrev Half := BitVec 16

/-- Thirty-two bits: an integer register and an address (R6, R20). -/
abbrev Word := BitVec 32

/-- An IEEE single: a 32-bit pattern (R12, R210). -/
abbrev Single := BitVec 32

/-- An IEEE double: the 64-bit pattern a floating-point register holds (R12, R33). -/
abbrev Double := BitVec 64

end Sys2Proof
end

