-- ==== Sys2Proof/Config.lean ====
section
/-! DEFINITION. What is fixed for one Virtual Machine: the constants the source fixes (R6), the shape of
the records in which the open parameters come (R7), and the FREE VALUES, constants with no body, so that no
proof can see what they are (R10's any1 and any32, R38, R173, R210, R276). The defaults of the open
parameters stand in Machine/Params.lean; the host's side of a system call and of an exception (SYSCALL_ORACLE,
HANDLERS) stands in Machine/Oracle.lean, since it speaks of whole states. -/

namespace Sys2Proof.Config

/-- Where the code segment starts: "address 0x1000000 of the process", which "currently cannot be
changed" (R6, R64, R342). -/
def codeBase : Word := 0x01000000#32

/-- How many interrupt vectors a process has: numbers 0 to 31 (R6, R301). -/
def vectorCount : Nat := 32

/-- FREE VALUE (log 3): what a byte of valid memory holds that neither the launch, nor an instruction,
nor the host has written (R38, R345): one unknown byte per address, so that reads stay idempotent (R63). -/
opaque unwrittenByte : Word → Byte

/-- FREE VALUE (log 11): the `which`-th unconstrained bit (any1, R10) of the draw numbered `draw`. -/
opaque freeBit : (draw which : Nat) → Bool

/-- FREE VALUE (log 12): sign and payload of the quiet NaN that the draw numbered `draw` gives: a
double has 52 such bits once "a quiet NaN" is fixed (R210, R224). -/
opaque freeNaN64 : (draw : Nat) → BitVec 52

/-- FREE VALUE (log 12): the same for a single, which has 23 such bits. -/
opaque freeNaN32 : (draw : Nat) → BitVec 23

/-- FREE VALUE (log 8): the exit status of an abort by FloatDivideByZero: "a model must not assume" a value (R223). -/
opaque fdivZeroStatus : Nat

/-- FREE VALUE (log 27): whether the uid permits a call of this number, SYS_FILES or SYS_LIBCALL, at the draw
numbered `draw`; the source names the uid as the reason and gives no table (R276 c, d). -/
opaque uidPermits : (number : Word) → (uid draw : Nat) → Bool

/-- FREE VALUE (log 27): one less than the numeric value of EACCES, a POSIX error code, so not 0; the value is not
given (R273, R276). -/
opaque eaccesLessOne : Fin 4294967295

/-- FDIV_ZERO_VECTOR (R7, R223): what the exception of a division by zero is to the host. -/
structure FdivZero where
  /-- Its vector, if it has one. -/
  vector : Option (BitVec 5)
  /-- The exit status of the abort. -/
  status : Nat
  deriving DecidableEq, Repr

/-- CCR_LAYOUT (R7, R30): the bit of each flag in the 32-bit CCR, and what the other 28 bits read as. -/
structure CcrLayout where
  /-- The bit of C. -/
  c : Nat
  /-- The bit of OV. -/
  ov : Nat
  /-- The bit of N. -/
  n : Nat
  /-- The bit of Z. -/
  z : Nat
  /-- What the other bits read as, the flags' bits being 0 here. -/
  others : Word
  deriving DecidableEq, Repr

/-- SPECIAL_AS_OPERAND (R7, R31, R99): what an operand field that names register 12 to 15 means. -/
inductive SpecialAsOperand where
  /-- Admitted in every integer field, with the uniform semantics of R31. -/
  | admitted
  /-- Refused where it names CCR or PC, and where it names SP beside an instruction's implicit use of SP. -/
  | refused
  deriving DecidableEq, Repr

/-- UNSIGNED_COND (R7, R123): the four unsigned conditions, as functions of C and Z. -/
structure UnsignedCond where
  /-- BBSS, BBSL. -/
  belowSame : (c z : Bool) → Bool
  /-- BASS, BASL. -/
  aboveSame : (c z : Bool) → Bool
  /-- BATS, BATL. -/
  above : (c z : Bool) → Bool
  /-- BBTS, BBTL. -/
  below : (c z : Bool) → Bool

/-- SYSCALL_PRESERVES (R7, R260, R274): which registers a call that returns leaves unchanged beside SP, FP, CCR and
the PC, which no oracle changes, and R0, which is the result. -/
structure SyscallPreserves where
  /-- R1 to R11, by number. -/
  r : Fin 12 → Bool
  /-- FP0 to FP15. -/
  f : Fin 16 → Bool

/-- DIV_NUMERICS (R7, R167, R169): the quotient and the remainder of the signed divisions, as functions
on exact integers. -/
structure DivNumerics where
  /-- The quotient of DIVS: `sdiv n d`, `d` not 0. -/
  sdiv : Int → Int → Int
  /-- The remainder of MOD: `smod n d`, `d` not 0. -/
  smod : Int → Int → Int

/-- LITERAL_FLAGS (R7, R175, R194): true keeps the source's printed flag rule, false takes the
repaired one. -/
structure LiteralFlags where
  /-- ADDC does not write C (R163). -/
  addcC : Bool
  /-- SUB, SUBB and CMP do not write OV (R164 to R166). -/
  subOv : Bool
  /-- NEG sets OV to bit 31 of its result (R172). -/
  negOv : Bool
  /-- LSR sets C to bit 31 of its operand (R194). -/
  lsrC : Bool
  /-- LSR clears N (R194). -/
  lsrN : Bool
  deriving DecidableEq, Repr

/-- FP_NUMERICS (R7, R210): the floating-point arithmetic of the machine. An operation that can give a NaN
takes as its first argument the quiet NaN it gives then. -/
structure FpNumerics where
  /-- Sum. -/
  fadd : (nan : Double) → Double → Double → Double
  /-- Difference: first operand minus second. -/
  fsub : (nan : Double) → Double → Double → Double
  /-- Product. -/
  fmul : (nan : Double) → Double → Double → Double
  /-- Quotient: first operand by second. -/
  fdiv : (nan : Double) → Double → Double → Double
  /-- The literal "0 - Source" of FNEG. -/
  fneg0 : (nan : Double) → Double → Double
  /-- Single to double (FLDS). -/
  s2d : (nan : Double) → Single → Double
  /-- Double to single (FSTS). -/
  d2s : (nan : Single) → Double → Single
  /-- Below zero in the IEEE order. -/
  isNeg : Double → Bool
  /-- Equal to zero in the IEEE order. -/
  isZero : Double → Bool
  /-- FADD's overflow, from the two operands and the result. -/
  addOverflows : Double → Double → Double → Bool

end Sys2Proof.Config
end

