-- ==== Sys2Proof/Machine/IeeeFormat.lean ====
section
/-! DEFINITION. The default instance of FP_NUMERICS (R210): IEEE 754 binary64 and binary32, round to nearest,
ties to even, subnormals kept, infinities and NaNs propagated (PRESUMED, log 13). An operation is computed
exactly, as a sign and a magnitude `m * 2^e`, and rounded once at the end. Which quiet NaN an operation gives
is its first argument (R210, R224, log 12). -/

namespace Sys2Proof.Machine.Ieee

/-- A binary interchange format: `p` bits of precision, `expBits` bits of exponent, and the exponent `qmin` of
the smallest subnormal. -/
structure Format where
  p : Nat
  expBits : Nat
  qmin : Int
  deriving DecidableEq, Repr

/-- binary64. -/
def binary64 : Format := { p := 53, expBits := 11, qmin := -1074 }

/-- binary32. -/
def binary32 : Format := { p := 24, expBits := 8, qmin := -149 }

/-- The pattern of infinity without its sign: exponent field all ones, fraction 0. -/
def infMagnitude (fm : Format) : Nat := (2 ^ fm.expBits - 1) * 2 ^ (fm.p - 1)

/-- The sign bit's weight. -/
def signWeight (fm : Format) : Nat := 2 ^ (fm.p - 1 + fm.expBits)

/-- What a pattern denotes. -/
inductive Value where
  /-- `m * 2^e`, negated if `neg`; both zeros are `m = 0`. -/
  | finite (neg : Bool) (m : Nat) (e : Int)
  | infinite (neg : Bool)
  | nan
  deriving DecidableEq, Repr

/-- Reads a pattern. -/
def unpack (fm : Format) (bits : Nat) : Value :=
  let neg := decide (signWeight fm ≤ bits)
  let mag := bits % signWeight fm
  let field := mag / 2 ^ (fm.p - 1)
  let frac := mag % 2 ^ (fm.p - 1)
  if infMagnitude fm < mag then .nan
  else if mag = infMagnitude fm then .infinite neg
  else if field = 0 then .finite neg frac fm.qmin
  else .finite neg (2 ^ (fm.p - 1) + frac) (fm.qmin + field - 1)

/-- `m / 2^k` rounded to the nearest integer, ties to even. -/
def shiftRound (m k : Nat) : Nat :=
  let quo := m / 2 ^ k
  let rem := m % 2 ^ k
  if 2 ^ k < 2 * rem || (2 * rem = 2 ^ k && quo % 2 = 1) then quo + 1 else quo

/-- The magnitude `m * 2^e` rounded into the format, as a pattern without sign. The exponent of the last place
is `e` raised until at most `p` bits remain, but never below `qmin`; a carry out of the rounding moves into the
exponent field by itself. -/
def roundMagnitude (fm : Format) (m : Nat) (e : Int) : Nat :=
  if m = 0 then 0
  else
    let q := max (e + (Nat.log2 m + 1 : Nat) - fm.p) fm.qmin
    let mant := if q ≤ e then m * 2 ^ (e - q).toNat else shiftRound m (q - e).toNat
    min ((q - fm.qmin).toNat * 2 ^ (fm.p - 1) + mant) (infMagnitude fm)

/-- The sign put on a magnitude pattern. -/
def withSign (fm : Format) (neg : Bool) (mag : Nat) : Nat :=
  if neg then signWeight fm + mag else mag

/-- A double from sign and exact magnitude. -/
def round64 (neg : Bool) (m : Nat) (e : Int) : Double :=
  BitVec.ofNat 64 (withSign binary64 neg (roundMagnitude binary64 m e))

/-- The infinity of the given sign. -/
def inf64 (neg : Bool) : Double := BitVec.ofNat 64 (withSign binary64 neg (infMagnitude binary64))

/-- What a double denotes. -/
def value64 (a : Double) : Value := unpack binary64 a.toNat

/-- What a single denotes. -/
def value32 (a : Single) : Value := unpack binary32 a.toNat

/-- A double with its sign changed. -/
def flipSign (a : Double) : Double := a ^^^ 0x8000000000000000#64

/-- A magnitude as a signed integer. -/
def signed (neg : Bool) (m : Nat) : Int := if neg then -(m : Int) else m

/-- The sum of two finite numbers. A sum of 0 is +0.0 unless both operands are negative zeros. -/
def addFinite (na : Bool) (ma : Nat) (ea : Int) (nb : Bool) (mb : Nat) (eb : Int) : Double :=
  let e := min ea eb
  let t := signed na (ma * 2 ^ (ea - e).toNat) + signed nb (mb * 2 ^ (eb - e).toNat)
  round64 (if t = 0 then na && nb else decide (t < 0)) t.natAbs e

/-- binary64 addition. -/
def add (nan a b : Double) : Double :=
  match value64 a, value64 b with
  | .nan, _ => nan
  | _, .nan => nan
  | .infinite na, .infinite nb => if na = nb then inf64 na else nan
  | .infinite na, .finite .. => inf64 na
  | .finite .., .infinite nb => inf64 nb
  | .finite na ma ea, .finite nb mb eb => addFinite na ma ea nb mb eb

/-- binary64 subtraction, `a - b`. -/
def sub (nan a b : Double) : Double := add nan a (flipSign b)

/-- binary64 multiplication. -/
def mul (nan a b : Double) : Double :=
  match value64 a, value64 b with
  | .nan, _ => nan
  | _, .nan => nan
  | .infinite na, .infinite nb => inf64 (na ^^ nb)
  | .infinite na, .finite nb mb _ => if mb = 0 then nan else inf64 (na ^^ nb)
  | .finite na ma _, .infinite nb => if ma = 0 then nan else inf64 (na ^^ nb)
  | .finite na ma ea, .finite nb mb eb => round64 (na ^^ nb) (ma * mb) (ea + eb)

/-- The quotient of finite magnitudes, `mb` not 0: 120 more bits than the operands have, and a last bit that says
whether a remainder is left, so that rounding it once is rounding the exact quotient. -/
def divFinite (neg : Bool) (ma : Nat) (ea : Int) (mb : Nat) (eb : Int) : Double :=
  let quo := ma * 2 ^ 120 / mb
  let sticky := if ma * 2 ^ 120 % mb = 0 then 0 else 1
  round64 neg (2 * quo + sticky) (ea - eb - 121)

/-- binary64 division, `a / b`. The IEEE result of a division by zero stands here too, though FDIV never asks
for it (R223). -/
def div (nan a b : Double) : Double :=
  match value64 a, value64 b with
  | .nan, _ => nan
  | _, .nan => nan
  | .infinite _, .infinite _ => nan
  | .infinite na, .finite nb _ _ => inf64 (na ^^ nb)
  | .finite na _ _, .infinite nb => round64 (na ^^ nb) 0 0
  | .finite na ma ea, .finite nb mb eb =>
    if mb = 0 then (if ma = 0 then nan else inf64 (na ^^ nb)) else divFinite (na ^^ nb) ma ea mb eb

/-- Single to double: exact for every single that is not a NaN (R210, R220). -/
def widen (nan : Double) (a : Single) : Double :=
  match value32 a with
  | .nan => nan
  | .infinite neg => inf64 neg
  | .finite neg m e => round64 neg m e

/-- Double to single, rounded to nearest, ties to even: overflow gives infinity, underflow a subnormal or zero
(R210, R222). -/
def narrow (nan : Single) (a : Double) : Single :=
  match value64 a with
  | .nan => nan
  | .infinite neg => BitVec.ofNat 32 (withSign binary32 neg (infMagnitude binary32))
  | .finite neg m e => BitVec.ofNat 32 (withSign binary32 neg (roundMagnitude binary32 m e))

/-- Below zero in the IEEE order: false for both zeros and for NaN (R210). -/
def isNeg (a : Double) : Bool :=
  match value64 a with
  | .finite neg m _ => neg && decide (m ≠ 0)
  | .infinite neg => neg
  | .nan => false

/-- Zero in the IEEE order: true for +0.0 and -0.0 (R210). -/
def isZero (a : Double) : Bool :=
  match value64 a with
  | .finite _ m _ => decide (m = 0)
  | _ => false

/-- The value is finite. -/
def isFinite (a : Double) : Bool :=
  match value64 a with
  | .finite .. => true
  | _ => false

/-- The value is an infinity. -/
def isInfinite (a : Double) : Bool :=
  match value64 a with
  | .infinite _ => true
  | _ => false

/-- Both operands finite and the sum infinite (R210). -/
def addOverflows (a b sum : Double) : Bool := isFinite a && isFinite b && isInfinite sum

/-- A quiet NaN from its free bits: a sign and 51 bits of payload. -/
def quietNaN64 (free : BitVec 52) : Double := free.extractLsb' 51 1 ++ 0xFFF#12 ++ free.extractLsb' 0 51

/-- A quiet NaN of single width from its free bits. -/
def quietNaN32 (free : BitVec 23) : Single := free.extractLsb' 22 1 ++ 0x1FF#9 ++ free.extractLsb' 0 22

/-- FP_NUMERICS at its default (R210): FNEG is the subtraction from +0.0. -/
def numerics : Config.FpNumerics :=
  { fadd := add
    fsub := sub
    fmul := mul
    fdiv := div
    fneg0 := fun nan a => sub nan 0#64 a
    s2d := widen
    d2s := narrow
    isNeg := isNeg
    isZero := isZero
    addOverflows := addOverflows }

end Sys2Proof.Machine.Ieee
end

