-- ==== Sys2Proof/Machine/Params.lean ====
section
/-! DEFINITION. The open parameters of R7, each under its own name at the spec's default (log 14). An operation
on registers, memory or bits takes the one it depends on as a named argument; the meanings, and what they share, take
the record of them (Parameters.lean), and so do `execUnder` and `stepUnder` (Under.lean); `exec` and `step`, whose
types the host fixes, run at the defaults. Six stand where their types are declared:
`Params.layout` (LAYOUT) in Decode.lean, `Params.handlers` (HANDLERS) and `Params.syscallOracle` (SYSCALL_ORACLE) in
Oracle.lean, `Params.launchMemory` (LAUNCH_MEMORY), `Params.dataBase` and `Params.bssBase` (DATA_BASE, BSS_BASE) in
Launch.lean. -/

namespace Sys2Proof.Machine.Params

/-- UNUSED_BITS (R91, D2): a decoder refuses a 1 in an unused bit. -/
def unusedBitsFault : Bool := true

/-- CCR_LAYOUT (R30, D6): C, OV, N, Z in bits 0 to 3, zeros above. -/
def ccrLayout : Config.CcrLayout := { c := 0, ov := 1, n := 2, z := 3, others := 0#32 }

/-- SPECIAL_AS_OPERAND (R31, D7): admitted with the uniform semantics. -/
def specialAsOperand : Config.SpecialAsOperand := .admitted

/-- CMP_WRITES_CF (R164, D9): CMP writes C with the borrow. -/
def cmpWritesCf : Bool := true

/-- UNSIGNED_COND (R123, D10): the four conditions as functions of C and Z. -/
def unsignedCond : Config.UnsignedCond :=
  { belowSame := fun c z => c || z, aboveSame := fun c _ => !c, above := fun c z => !c && !z, below := fun c _ => c }

/-- DIV_NUMERICS (R167, R169, D12, log 15): the quotient truncates toward zero and the remainder is
`n - d * sdiv n d`, so it has the sign of the dividend. -/
def divNumerics : Config.DivNumerics :=
  { sdiv := Int.tdiv, smod := fun n d => n - d * Int.tdiv n d }

/-- FP_NUMERICS (R210, D16, log 13): IEEE 754, round to nearest even. -/
def fpNumerics : Config.FpNumerics := Ieee.numerics

/-- FDIV_ZERO_VECTOR (R223, D16, log 8): the fault FloatDivideByZero has no vector and is terminal; the status of the
abort is open. -/
def fdivZeroVector : Config.FdivZero := { vector := none, status := Config.fdivZeroStatus }

/-- DATA_ALIGN (R60, D17): an access of n bytes needs an address that is a multiple of n. -/
def dataAlignNatural : Bool := true

/-- SYSCALL_PRESERVES (R260, D22): SP, FP, CCR and PC only; R1 to R11 and FP0 to FP15 may hold any value. -/
def syscallPreserves : Config.SyscallPreserves := { r := fun _ => false, f := fun _ => false }

/-- LITERAL_FLAGS (R175, R194, D33): the five suspect flag rules are kept as printed. -/
def literalFlags : Config.LiteralFlags :=
  { addcC := true, subOv := true, negOv := true, lsrC := true, lsrN := true }

end Sys2Proof.Machine.Params
end

