-- ==== Sys2Proof/Machine/State.lean ====
section
/-! DEFINITION. The machine's state, all of it plain data: the registers (R20 to R33), the memory (R35, R50),
the launch memory map (R65), the host-side state of the process (R40), how the run stands (R278), and the
model's own counter of free values. Beside it the exceptions (R300), the reasons a step can stop, the named
record updates, and State.reset. -/

namespace Sys2Proof.Machine

/-- The four flags of the CCR, kept as Booleans (R29, R30). -/
structure Flags where
  /-- Carry, borrow, or a bit of the operand of a shift. -/
  c : Bool
  /-- Overflow; also "divisor was zero" for DIVS, DIVU, MOD. -/
  ov : Bool
  /-- Result negative. -/
  n : Bool
  /-- Result zero. -/
  z : Bool
  deriving DecidableEq, Repr, Inhabited

/-- Memory as the bytes that have been written, in one canonical form: addresses strictly rising. An address
that is not listed holds no value (R38, log 3). -/
abbrev Memory := List Host.Cell

/-- What a stretch of valid memory is (R64, R65). -/
inductive Segment where
  /-- The code segment: valid, not writable (R66). -/
  | code
  /-- The initialised data. -/
  | data
  /-- The bss, not zero-filled (R345). -/
  | bss
  /-- The region the host supplies for argv, its pointer array and strings. -/
  | host
  deriving DecidableEq, Repr

/-- A stretch of valid memory: the addresses from `base` up to, and not including, `base + size` (R65). -/
structure Region where
  segment : Segment
  base : Nat
  size : Nat
  deriving DecidableEq, Repr

/-- The exceptions of the VIS (R300). -/
inductive Exception where
  /-- An unassigned opcode or a 1 in an unused bit; carries the first halfword (R303). -/
  | illegalInstruction (h0 : Half)
  /-- A byte that is not valid memory, or a write to a byte that is not writable; carries the address of the
  access (R304). -/
  | invalidMemoryAccess (addr : Word)
  /-- A misaligned data or stack access, or a fetch from an odd address; carries the address (R305). -/
  | illegalBusAccess (addr : Word)
  /-- FDIV with a divisor of +0.0 or -0.0 (R306). -/
  | floatDivideByZero
  deriving DecidableEq, Repr

/-- How the run stands (R278). -/
inductive RunStatus where
  /-- Instructions execute. -/
  | running
  /-- The process called SYS_EXIT with this status. -/
  | exited (status : Word)
  /-- An exception ended the process with this status code: the signal number (R311), or for FloatDivideByZero the one
  that FDIV_ZERO_VECTOR gives (R223). -/
  | aborted (e : Exception) (status : Nat)
  deriving DecidableEq, Repr

/-- What the operating system keeps for the process (R40). -/
structure HostState where
  /-- The interrupt vectors that have a handler, each with the handle the process gave: an uninterpreted
  number, since "the size and format of an entry are not given" (R301). -/
  vectors : List (BitVec 5 × Nat)
  /-- The open file descriptors (R40, R277). -/
  openFds : List Nat
  /-- The process's uid (R40). -/
  uid : Nat
  /-- The handles of opened native shared libraries (R40, R276). -/
  libs : List Nat
  deriving DecidableEq, Repr, Inhabited

/-- The state of the machine. -/
structure State where
  /-- R0 to R11 (R22). -/
  r : Vector Word 12
  /-- Register 12, the stack pointer (R23). -/
  sp : Word
  /-- Register 13, the frame pointer (R24). -/
  fp : Word
  /-- Register 15, the program counter (R26). -/
  pc : Word
  /-- Register 14, the condition code register (R25, R29). -/
  flags : Flags
  /-- FP0 to FP15 (R33). -/
  f : Vector Double 16
  /-- The memory (R35, R50). -/
  mem : Memory
  /-- The launch memory: Valid and Writable (R65). -/
  regions : List Region
  /-- The host-side state of the process (R40). -/
  host : HostState
  /-- How the run stands (R278). -/
  run : RunStatus
  /-- The model's own counter of free values drawn so far; no part of the VIS (log 11). -/
  draws : Nat
  deriving DecidableEq, Repr

/-- Why a step can stop without a next state. -/
inductive Fault where
  /-- Raised by `step` alone, on a process whose run has ended: "no further instruction executes" (R278,
  log 5). Safe: the model says nothing of what follows the end. -/
  | processEnded
  deriving DecidableEq, Repr

/-- Why an instruction can have no meaning. -/
inductive Refusal where
  /-- Raised by an arm of `exec` for an instruction that has no meaning yet. Safe. No arm raises it now. -/
  | notModelled (mnemonic : String)
  deriving DecidableEq, Repr

namespace State

/-- Replaces R0 to R11. -/
def withR (s : State) (v : Vector Word 12) : State := { s with r := v }
/-- Replaces the stack pointer. -/
def withSp (s : State) (v : Word) : State := { s with sp := v }
/-- Replaces the frame pointer. -/
def withFp (s : State) (v : Word) : State := { s with fp := v }
/-- Replaces the program counter. -/
def withPc (s : State) (v : Word) : State := { s with pc := v }
/-- Replaces the flags. -/
def withFlags (s : State) (v : Flags) : State := { s with flags := v }
/-- Replaces FP0 to FP15. -/
def withF (s : State) (v : Vector Double 16) : State := { s with f := v }
/-- Replaces the memory. -/
def withMem (s : State) (v : Memory) : State := { s with mem := v }
/-- Replaces the launch memory map. -/
def withRegions (s : State) (v : List Region) : State := { s with regions := v }
/-- Replaces the host-side state. -/
def withHost (s : State) (v : HostState) : State := { s with host := v }
/-- Replaces the run status. -/
def withRun (s : State) (v : RunStatus) : State := { s with run := v }
/-- Replaces the counter of free values. -/
def withDraws (s : State) (v : Nat) : State := { s with draws := v }

/-- The machine with no file loaded (log 4): the PC where the code segment starts (R39, R342), nothing valid
memory, no exception handler, descriptors 0, 1 and 2 open (R39, R340), and every register, for which the spec
gives no value, at the 0 that log 1 and log 2 name. -/
def reset : State :=
  { r := Vector.replicate 12 0#32
    sp := 0#32
    fp := 0#32
    pc := Config.codeBase
    flags := { c := false, ov := false, n := false, z := false }
    f := Vector.replicate 16 0#64
    mem := []
    regions := []
    host := { vectors := [], openFds := [0, 1, 2], uid := 0, libs := [] }
    run := .running
    draws := 0 }

end State

end Sys2Proof.Machine
end

