-- ==== Sys2Proof/Machine/Flags.lean ====
section
/-! DEFINITION. Every flag computation of the VIS: the packing of the CCR (R30), carry, borrow and overflow (R161),
the flag lines of R32, and the branch conditions (R123, R124). What depends on an open parameter of R7 takes it as an
argument. A flag line takes the flags that stand after the destination register has been written and answers the final
ones, so that a flag it leaves alone keeps even a value written through register 14 (R31 c). -/

namespace Sys2Proof.Machine

/-- The 32-bit CCR: each flag at its bit, `others` elsewhere (R30, CCR_LAYOUT). -/
def packCcr (fl : Flags) (layout : Config.CcrLayout := Params.ccrLayout) : Word :=
  layout.others ||| (BitVec.ofBool fl.c).setWidth 32 <<< layout.c ||| (BitVec.ofBool fl.ov).setWidth 32 <<< layout.ov |||
    (BitVec.ofBool fl.n).setWidth 32 <<< layout.n ||| (BitVec.ofBool fl.z).setWidth 32 <<< layout.z

/-- The flags a 32-bit value written to register 14 sets; the other bits are discarded (R30, CCR_LAYOUT). -/
def unpackCcr (v : Word) (layout : Config.CcrLayout := Params.ccrLayout) : Flags :=
  { c := v.getLsbD layout.c, ov := v.getLsbD layout.ov, n := v.getLsbD layout.n, z := v.getLsbD layout.z }

/-- The exact unsigned sum `u(a) + u(b) + cin` (R161). -/
def sumU (a b : Word) (cin : Bool) : Nat := a.toNat + b.toNat + cin.toNat

/-- The exact signed sum `s(a) + s(b) + cin` (R161). -/
def sumS (a b : Word) (cin : Bool) : Int := a.toInt + b.toInt + cin.toNat

/-- The exact unsigned difference `u(b) - u(a) - bin` (R161). -/
def diffU (a b : Word) (bin : Bool) : Int := (b.toNat : Int) - a.toNat - bin.toNat

/-- The exact signed difference `s(b) - s(a) - bin` (R175). -/
def diffS (a b : Word) (bin : Bool) : Int := b.toInt - a.toInt - bin.toNat

/-- The exact value is one a signed 32-bit register can hold. -/
def fitsSigned (t : Int) : Bool := decide (-2147483648 ≤ t) && decide (t ≤ 2147483647)

/-- Carry out of `b + a + cin` (R161). -/
def carryOf (a b : Word) (cin : Bool) : Bool := decide (4294967296 ≤ sumU a b cin)

/-- Signed overflow of `b + a + cin` (R161). -/
def overflowOf (a b : Word) (cin : Bool) : Bool := !fitsSigned (sumS a b cin)

/-- Borrow of `b - a - bin` (R161). -/
def borrowOf (a b : Word) (bin : Bool) : Bool := decide (diffU a b bin < 0)

/-- N and Z from an integer result (R32). -/
def signZero (r : Word) (fl : Flags) : Flags := { fl with n := r.msb, z := decide (r = 0#32) }

/-- ADD: all four (R162). -/
def addFlags (a b r : Word) (_ : Flags) : Flags :=
  { c := carryOf a b false, ov := overflowOf a b false, n := r.msb, z := decide (r = 0#32) }

/-- ADDC: N, Z, OV; C is not written, unless LITERAL_FLAGS repairs it (R163, R175). -/
def addcFlags (literal : Config.LiteralFlags) (cin : Bool) (a b r : Word) (fl : Flags) : Flags :=
  signZero r
    { fl with
      ov := overflowOf a b cin
      c := if literal.addcC then fl.c else carryOf a b cin }

/-- SUB and SUBB: N, Z and the borrow; OV is not written, unless LITERAL_FLAGS repairs it (R165, R166, R175). -/
def subFlags (literal : Config.LiteralFlags) (bin : Bool) (a b r : Word) (fl : Flags) : Flags :=
  signZero r
    { fl with
      c := borrowOf a b bin
      ov := if literal.subOv then fl.ov else !fitsSigned (diffS a b bin) }

/-- CMP: as SUB, the borrow under CMP_WRITES_CF (R164, R175). -/
def cmpFlags (writesCf : Bool) (literal : Config.LiteralFlags) (a b r : Word) (fl : Flags) : Flags :=
  signZero r
    { fl with
      c := if writesCf then borrowOf a b false else fl.c
      ov := if literal.subOv then fl.ov else !fitsSigned (diffS a b false) }

/-- NEG: all four (R172, R175). -/
def negFlags (literal : Config.LiteralFlags) (a r : Word) (_ : Flags) : Flags :=
  { c := decide (r ≠ 0#32)
    ov := if literal.negOv then r.msb else decide (a = 0x80000000#32)
    n := r.msb
    z := decide (r = 0#32) }

/-- AND, OR, XOR, NOT: N, Z, and OV cleared; C is left alone (R191, R196 to R198). -/
def logicFlags (r : Word) (fl : Flags) : Flags := signZero r { fl with ov := false }

/-- DIVS, DIVU, MOD with a divisor that is not 0: N, Z, and OV cleared (R167 to R169, R173). -/
def divideFlags (r : Word) (fl : Flags) : Flags := signZero r { fl with ov := false }

/-- DIVS, DIVU, MOD by 0: OV set, N and Z free, C left alone (R173, log 11). -/
def divideByZeroFlags (draw : Nat) (fl : Flags) : Flags :=
  { fl with ov := true, n := Config.freeBit draw 0, z := Config.freeBit draw 1 }

/-- MULS and MULU: N, Z, and OV set if the product does not fit (R170, R171). -/
def multiplyFlags (fits : Bool) (r : Word) (fl : Flags) : Flags := signZero r { fl with ov := !fits }

/-- The flag line of a shift: C from the operand, N, Z, and OV as new N xor new C (R192 to R194). -/
def shiftFlags (carry neg : Bool) (r : Word) (_ : Flags) : Flags :=
  { c := carry, ov := neg ^^ carry, n := neg, z := decide (r = 0#32) }

/-- ASR: C is bit 0 of the operand (R192). -/
def asrFlags (b r : Word) : Flags → Flags := shiftFlags (b.getLsbD 0) r.msb r

/-- LSL: C is bit 31 of the operand (R193). -/
def lslFlags (b r : Word) : Flags → Flags := shiftFlags b.msb r.msb r

/-- LSR: C is bit 31 of the operand and N is cleared, both as printed, unless LITERAL_FLAGS repairs them (R194). -/
def lsrFlags (literal : Config.LiteralFlags) (b r : Word) : Flags → Flags :=
  shiftFlags (if literal.lsrC then b.msb else b.getLsbD 0)
    (if literal.lsrN then false else r.msb) r

/-- FCMP, FDIV, FMUL, FNEG, FSUB: N and Z of the result (R211). -/
def floatFlags (numerics : Config.FpNumerics) (r : Double) (fl : Flags) : Flags :=
  { fl with n := numerics.isNeg r, z := numerics.isZero r }

/-- FADD: N and Z of the result, and OV (R211, R212). -/
def faddFlags (numerics : Config.FpNumerics) (a b r : Double) (fl : Flags) : Flags :=
  floatFlags numerics r { fl with ov := numerics.addOverflows a b r }

/-- EQ (R124). -/
def condEq (fl : Flags) : Bool := fl.z
/-- NE (R124). -/
def condNe (fl : Flags) : Bool := !fl.z
/-- GE, as the source prints it (R124). -/
def condGe (fl : Flags) : Bool := (fl.n && fl.ov) || (!fl.n && !fl.ov)
/-- GT, as the source prints it (R124). -/
def condGt (fl : Flags) : Bool := (fl.n && fl.ov && !fl.z) || (!fl.n && !fl.ov && !fl.z)
/-- LE, as the source prints it (R124). -/
def condLe (fl : Flags) : Bool := fl.z || (fl.n && !fl.ov) || (!fl.n && fl.ov)
/-- LT, as the source prints it (R124). -/
def condLt (fl : Flags) : Bool := (fl.n && !fl.ov) || (!fl.n && fl.ov)
/-- Carry clear (R132). -/
def condCc (fl : Flags) : Bool := !fl.c
/-- Carry set (R133). -/
def condCs (fl : Flags) : Bool := fl.c
/-- Overflow clear (R134). -/
def condVc (fl : Flags) : Bool := !fl.ov
/-- Overflow set (R135). -/
def condVs (fl : Flags) : Bool := fl.ov
/-- Below or same (R123, UNSIGNED_COND). -/
def condBelowSame (cond : Config.UnsignedCond) (fl : Flags) : Bool := cond.belowSame fl.c fl.z
/-- Above or same (R123, UNSIGNED_COND). -/
def condAboveSame (cond : Config.UnsignedCond) (fl : Flags) : Bool := cond.aboveSame fl.c fl.z
/-- Above (R123, UNSIGNED_COND). -/
def condAbove (cond : Config.UnsignedCond) (fl : Flags) : Bool := cond.above fl.c fl.z
/-- Below (R123, UNSIGNED_COND). -/
def condBelow (cond : Config.UnsignedCond) (fl : Flags) : Bool := cond.below fl.c fl.z

end Sys2Proof.Machine
end

