-- ==== Sys2Proof/Syntax.lean ====
section
/-! DEFINITION. The instructions of the VIS as terms: one constructor for each of the 75 rows of the opcode
table (R95), its operands in the order the assembler writes them (R106). Register fields are named registers
(R21, R34). A branch displacement is the true byte displacement from the next instruction (R92), a RETS
operand a count of slots (R93), the immediates of LIMS and of the loads and stores are signed numbers and
those of LILO and ORHI raw 16-bit patterns (R94). Which values an encoding admits is WellFormed.lean's. -/

namespace Sys2Proof

/-- An integer register named by a 4-bit field: R0 to R11, SP, FP, CCR, PC (R21). -/
inductive IReg where
  /-- R0 to R11. -/
  | r (n : Fin 12)
  /-- Number 12, the stack pointer. -/
  | sp
  /-- Number 13, the frame pointer. -/
  | fp
  /-- Number 14, the condition code register. -/
  | ccr
  /-- Number 15, the program counter. -/
  | pc
  deriving DecidableEq, Repr

/-- A floating-point register FP0 to FP15 (R33, R34). -/
abbrev FReg := Fin 16

/-- The 75 instructions (R95). -/
inductive Instr where
  /-- BEQS (R125): branch if equal. -/
  | beqs (disp : Int)
  /-- BGES (R126): branch if greater or equal (signed). -/
  | bges (disp : Int)
  /-- BGTS (R127): branch if greater than (signed). -/
  | bgts (disp : Int)
  /-- BLES (R128): branch if less or equal (signed). -/
  | bles (disp : Int)
  /-- BLTS (R129): branch if less than (signed). -/
  | blts (disp : Int)
  /-- BNES (R130): branch if not equal. -/
  | bnes (disp : Int)
  /-- BRAS (R131): branch always. -/
  | bras (disp : Int)
  /-- RETS (R282): return from subroutine and release `slots` further stack slots. -/
  | rets (slots : Int)
  /-- BCCS (R132): branch if carry clear. -/
  | bccs (disp : Int)
  /-- BCSS (R133): branch if carry set. -/
  | bcss (disp : Int)
  /-- BVCS (R134): branch if overflow clear. -/
  | bvcs (disp : Int)
  /-- BVSS (R135): branch if overflow set. -/
  | bvss (disp : Int)
  /-- BBSS (R136): branch if below or same (unsigned), alias BLSS. -/
  | bbss (disp : Int)
  /-- BASS (R137): branch if above or same (unsigned). -/
  | bass (disp : Int)
  /-- BATS (R138): branch if above (unsigned). -/
  | bats (disp : Int)
  /-- BBTS (R139): branch if below (unsigned). -/
  | bbts (disp : Int)
  /-- BEQL (R140): branch if equal. -/
  | beql (disp : Int)
  /-- BGEL (R141): branch if greater or equal (signed). -/
  | bgel (disp : Int)
  /-- BGTL (R142): branch if greater than (signed). -/
  | bgtl (disp : Int)
  /-- BLEL (R143): branch if less or equal (signed). -/
  | blel (disp : Int)
  /-- BLTL (R144): branch if less than (signed). -/
  | bltl (disp : Int)
  /-- BNEL (R145): branch if not equal. -/
  | bnel (disp : Int)
  /-- BRAL (R146): branch always. -/
  | bral (disp : Int)
  /-- BSRL (R281): branch to subroutine. -/
  | bsrl (disp : Int)
  /-- BBSL (R147): branch if below or same (unsigned), alias BLSL. -/
  | bbsl (disp : Int)
  /-- BASL (R148): branch if above or same (unsigned). -/
  | basl (disp : Int)
  /-- BATL (R149): branch if above (unsigned). -/
  | batl (disp : Int)
  /-- BBTL (R150): branch if below (unsigned). -/
  | bbtl (disp : Int)
  /-- ADD (R162): `rx + ry` to `ry`. -/
  | add (rx : IReg) (ry : IReg)
  /-- ADDC (R163): `rx + ry + C` to `ry`. -/
  | addc (rx : IReg) (ry : IReg)
  /-- AND (R191): bitwise and to `ry`. -/
  | and (rx : IReg) (ry : IReg)
  /-- ASR (R192): arithmetic shift right of `ry` by `rx` mod 32. -/
  | asr (rx : IReg) (ry : IReg)
  /-- LSL (R193): logical shift left of `ry` by `rx` mod 32. -/
  | lsl (rx : IReg) (ry : IReg)
  /-- LSR (R194): logical shift right of `ry` by `rx` mod 32. -/
  | lsr (rx : IReg) (ry : IReg)
  /-- CMP (R164): flags of `ry - rx`. -/
  | cmp (rx : IReg) (ry : IReg)
  /-- SUB (R165): `ry - rx` to `ry`. -/
  | sub (rx : IReg) (ry : IReg)
  /-- SUBB (R166): `ry - rx - C` to `ry`. -/
  | subb (rx : IReg) (ry : IReg)
  /-- DIVS (R167): signed `ry / rx` to `ry`. -/
  | divs (rx : IReg) (ry : IReg)
  /-- DIVU (R168): unsigned `ry / rx` to `ry`. -/
  | divu (rx : IReg) (ry : IReg)
  /-- MOD (R169): `ry` modulo `rx` to `ry`. -/
  | mod (rx : IReg) (ry : IReg)
  /-- MOVE (R195): `rx` to `ry`. -/
  | move (rx : IReg) (ry : IReg)
  /-- MULS (R170): signed product to `ry`. -/
  | muls (rx : IReg) (ry : IReg)
  /-- MULU (R171): unsigned product to `ry`. -/
  | mulu (rx : IReg) (ry : IReg)
  /-- NEG (R172): `0 - rx` to `ry`. -/
  | neg (rx : IReg) (ry : IReg)
  /-- NOT (R196): complement of `rx` to `ry`. -/
  | not (rx : IReg) (ry : IReg)
  /-- OR (R197): bitwise or to `ry`. -/
  | or (rx : IReg) (ry : IReg)
  /-- XOR (R198): bitwise exclusive or to `ry`. -/
  | xor (rx : IReg) (ry : IReg)
  /-- FADD (R212): `fx + fy` to `fy`. -/
  | fadd (fx : FReg) (fy : FReg)
  /-- FCMP (R213): flags of `fy - fx`. -/
  | fcmp (fx : FReg) (fy : FReg)
  /-- FDIV (R214): `fy / fx` to `fy`. -/
  | fdiv (fx : FReg) (fy : FReg)
  /-- FMOVE (R215): `fx` to `fy`, bit for bit. -/
  | fmove (fx : FReg) (fy : FReg)
  /-- FMUL (R216): product to `fy`. -/
  | fmul (fx : FReg) (fy : FReg)
  /-- FNEG (R217): `0 - fx` to `fy`. -/
  | fneg (fx : FReg) (fy : FReg)
  /-- FSUB (R218): `fy - fx` to `fy`. -/
  | fsub (fx : FReg) (fy : FReg)
  /-- FLDD (R219): load a double at `disp(rx)`. -/
  | fldd (disp : Int) (rx : IReg) (fy : FReg)
  /-- FLDS (R220): load a single at `disp(rx)`, widened. -/
  | flds (disp : Int) (rx : IReg) (fy : FReg)
  /-- LBZX (R241): load a byte, zero extended. -/
  | lbzx (disp : Int) (rx : IReg) (ry : IReg)
  /-- LBSX (R242): load a byte, sign extended. -/
  | lbsx (disp : Int) (rx : IReg) (ry : IReg)
  /-- LLSX (R243): load 32 bits ("sign extended"). -/
  | llsx (disp : Int) (rx : IReg) (ry : IReg)
  /-- LLZX (R244): load 32 bits ("zero extended"). -/
  | llzx (disp : Int) (rx : IReg) (ry : IReg)
  /-- LWSX (R245): load 16 bits, sign extended. -/
  | lwsx (disp : Int) (rx : IReg) (ry : IReg)
  /-- LWZX (R246): load 16 bits, zero extended. -/
  | lwzx (disp : Int) (rx : IReg) (ry : IReg)
  /-- FSTD (R221): store a double at `disp(ry)`. -/
  | fstd (fx : FReg) (disp : Int) (ry : IReg)
  /-- FSTS (R222): store a double rounded to single at `disp(ry)`. -/
  | fsts (fx : FReg) (disp : Int) (ry : IReg)
  /-- STB (R247): store the low 8 bits of `rx` at `disp(ry)`. -/
  | stb (rx : IReg) (disp : Int) (ry : IReg)
  /-- STL (R248): store `rx` at `disp(ry)`. -/
  | stl (rx : IReg) (disp : Int) (ry : IReg)
  /-- STW (R249): store the low 16 bits of `rx` at `disp(ry)`. -/
  | stw (rx : IReg) (disp : Int) (ry : IReg)
  /-- SYSCALL (R260): call the operating system. -/
  | syscall
  /-- NOP (R261): no operation. -/
  | nop
  /-- LIMS (R262): load a sign-extended 5-bit constant. -/
  | lims (imm : Int) (ry : IReg)
  /-- ORHI (R263): or a 16-bit constant into the upper half. -/
  | orhi (imm : BitVec 16) (ry : IReg)
  /-- LILO (R264): load a zero-extended 16-bit constant, variant spelling LIL0. -/
  | lilo (imm : BitVec 16) (ry : IReg)
  /-- CALL (R283): call the address in `rx`. -/
  | call (rx : IReg)
  /-- POPL (R284): pop into `rx`. -/
  | popl (rx : IReg)
  /-- PUSHL (R285): push `rx`, alias PUSHHL. -/
  | pushl (rx : IReg)
  deriving DecidableEq, Repr

end Sys2Proof
end

