-- ==== Sys2Proof/Machine/Operands.lean ====
section
/-! DEFINITION. The operand forms: reading and writing an integer register by name with the uniform semantics of
registers 12 to 15 (R31), floating-point registers (R34), the effective address (R240), and the sequential PC
(R27, R28). -/

namespace Sys2Proof.Machine.State

/-- Steps over an instruction of `len` bytes. From here on a read of the PC gives `A + L` (R27), and a write to
register 15 replaces the sequential PC (R28, R31 b). -/
def advance (s : State) (len : Nat) : State := s.withPc (s.pc + BitVec.ofNat 32 len)

/-- `x[i]` as an operand (R31 a). -/
def readReg (s : State) (reg : IReg) (layout : Config.CcrLayout := Params.ccrLayout) : Word :=
  match reg with
  | .r n => s.r[n]
  | .sp => s.sp
  | .fp => s.fp
  | .ccr => packCcr s.flags layout
  | .pc => s.pc

/-- `x[i] <- v` (R31 b). -/
def writeReg (s : State) (reg : IReg) (v : Word) (layout : Config.CcrLayout := Params.ccrLayout) : State :=
  match reg with
  | .r n => s.withR (s.r.set n v)
  | .sp => s.withSp v
  | .fp => s.withFp v
  | .ccr => s.withFlags (unpackCcr v layout)
  | .pc => s.withPc v

/-- `f[i]` (R33, R34). -/
def readF (s : State) (reg : FReg) : Double := s.f[reg]

/-- `f[i] <- v` (R33, R34). -/
def writeF (s : State) (reg : FReg) (v : Double) : State := s.withF (s.f.set reg v)

/-- Applies a flag line (R32). -/
def mapFlags (s : State) (line : Flags → Flags) : State := s.withFlags (line s.flags)

/-- The effective address `(x[base] + sext_32(imm16)) mod 2^32` (R240, R74). -/
def ea (s : State) (base : IReg) (disp : Int) (layout : Config.CcrLayout := Params.ccrLayout) : Word :=
  s.readReg base layout + BitVec.ofInt 32 disp

/-- Counts one draw of free values (log 11). -/
def draw (s : State) : State := s.withDraws (s.draws + 1)

/-- The quiet NaN this state's draw gives an operation on doubles (R210, R224, log 12). -/
def nan64 (s : State) : Double := Ieee.quietNaN64 (Config.freeNaN64 s.draws)

/-- The quiet NaN this state's draw gives a conversion to single (R210, R224, log 12). -/
def nan32 (s : State) : Single := Ieee.quietNaN32 (Config.freeNaN32 s.draws)

end Sys2Proof.Machine.State
end

