-- ==== Sys2Proof/WellFormed.lean ====
section
/-! DEFINITION. Which instruction terms an encoding admits: the ranges of R92, R93 and R94. Everything else
about a term is settled by its type (a register field holds any of its sixteen values in every instruction,
R99). -/

namespace Sys2Proof

/-- Reach of a short branch: an even displacement from -512 to +510 (R92, R121). -/
def shortReach (disp : Int) : Bool :=
  decide (disp % 2 = 0) && decide (-512 ≤ disp) && decide (disp ≤ 510)

/-- Reach of a long branch or BSRL: an even displacement from -2^25 to 2^25 - 2 (R92, R122). -/
def longReach (disp : Int) : Bool :=
  decide (disp % 2 = 0) && decide (-33554432 ≤ disp) && decide (disp ≤ 33554430)

/-- The slot counts RETS can name: -256 to 255 (R93). -/
def slotRange (slots : Int) : Bool :=
  decide (-256 ≤ slots) && decide (slots ≤ 255)

/-- The constants of LIMS: -16 to 15 (R94). -/
def imm5Range (imm : Int) : Bool :=
  decide (-16 ≤ imm) && decide (imm ≤ 15)

/-- The displacement of a load or store: -32768 to 32767 (R94, R240). -/
def disp16Range (disp : Int) : Bool :=
  decide (-32768 ≤ disp) && decide (disp ≤ 32767)

/-- The instruction has an encoding. -/
def Instr.wellFormed : Instr → Bool
  | .beqs disp => shortReach disp
  | .bges disp => shortReach disp
  | .bgts disp => shortReach disp
  | .bles disp => shortReach disp
  | .blts disp => shortReach disp
  | .bnes disp => shortReach disp
  | .bras disp => shortReach disp
  | .rets slots => slotRange slots
  | .bccs disp => shortReach disp
  | .bcss disp => shortReach disp
  | .bvcs disp => shortReach disp
  | .bvss disp => shortReach disp
  | .bbss disp => shortReach disp
  | .bass disp => shortReach disp
  | .bats disp => shortReach disp
  | .bbts disp => shortReach disp
  | .beql disp => longReach disp
  | .bgel disp => longReach disp
  | .bgtl disp => longReach disp
  | .blel disp => longReach disp
  | .bltl disp => longReach disp
  | .bnel disp => longReach disp
  | .bral disp => longReach disp
  | .bsrl disp => longReach disp
  | .bbsl disp => longReach disp
  | .basl disp => longReach disp
  | .batl disp => longReach disp
  | .bbtl disp => longReach disp
  | .add _ _ => true
  | .addc _ _ => true
  | .and _ _ => true
  | .asr _ _ => true
  | .lsl _ _ => true
  | .lsr _ _ => true
  | .cmp _ _ => true
  | .sub _ _ => true
  | .subb _ _ => true
  | .divs _ _ => true
  | .divu _ _ => true
  | .mod _ _ => true
  | .move _ _ => true
  | .muls _ _ => true
  | .mulu _ _ => true
  | .neg _ _ => true
  | .not _ _ => true
  | .or _ _ => true
  | .xor _ _ => true
  | .fadd _ _ => true
  | .fcmp _ _ => true
  | .fdiv _ _ => true
  | .fmove _ _ => true
  | .fmul _ _ => true
  | .fneg _ _ => true
  | .fsub _ _ => true
  | .fldd disp _ _ => disp16Range disp
  | .flds disp _ _ => disp16Range disp
  | .lbzx disp _ _ => disp16Range disp
  | .lbsx disp _ _ => disp16Range disp
  | .llsx disp _ _ => disp16Range disp
  | .llzx disp _ _ => disp16Range disp
  | .lwsx disp _ _ => disp16Range disp
  | .lwzx disp _ _ => disp16Range disp
  | .fstd _ disp _ => disp16Range disp
  | .fsts _ disp _ => disp16Range disp
  | .stb _ disp _ => disp16Range disp
  | .stl _ disp _ => disp16Range disp
  | .stw _ disp _ => disp16Range disp
  | .syscall => true
  | .nop => true
  | .lims imm _ => imm5Range imm
  | .orhi _ _ => true
  | .lilo _ _ => true
  | .call _ => true
  | .popl _ => true
  | .pushl _ => true

end Sys2Proof
end

