-- ==== Sys2Proof/Decode.lean ====
section
/-! DEFINITION. The decoder and the encoder, from the field layout of R82 to R90 (LAYOUT, decision D1), the
opcode table R95, the length rule R96 and the encoder formulas R101. The decoder is total on byte lists and
rejects by name; the encoder writes the unused bits of R91 as 0. At the end stand the two assembler
pseudo-instructions (R112, R270, R271) and the branch field an assembler computes (R92). -/

namespace Sys2Proof

/-- The eight instruction layouts (R80, R81). -/
inductive Form where
  /-- 16 bits: opcode, imm9 (R83). -/
  | f1
  /-- 16 bits: opcode, one unused bit, Rx, Ry (R84). -/
  | f2
  /-- 16 bits: opcode, nine unused bits (R85). -/
  | f3
  /-- 16 bits: opcode, five unused bits, Rx (R86). -/
  | f4
  /-- 16 bits: opcode, imm5, Ry (R87). -/
  | f5
  /-- 32 bits: opcode, one unused bit, Rx, Ry, imm16 (R88). -/
  | f6
  /-- 32 bits: opcode, five unused bits, Ry, imm16 (R89). -/
  | f7
  /-- 32 bits: opcode, disp25 (R90). -/
  | f8
  deriving DecidableEq, Repr

/-- How many bytes an instruction of the form has: 2 for Forms 1 to 5, 4 for Forms 6 to 8 (R80). -/
def formBytes : Form → Nat
  | .f1 | .f2 | .f3 | .f4 | .f5 => 2
  | .f6 | .f7 | .f8 => 4

/-- The form of each assigned opcode value (R95, R96), none for the 53 unassigned values (R97). -/
def opForm (op : BitVec 7) : Option Form :=
  let n := op.toNat
  if n ≤ 15 then some .f1
  else if n ≤ 27 then some .f8
  else if n ≤ 31 then none
  else if n ≤ 57 then some .f2
  else if n ≤ 63 then none
  else if n ≤ 65 then some .f6
  else if n ≤ 71 then none
  else if n ≤ 77 then some .f6
  else if n ≤ 79 then none
  else if n ≤ 81 then some .f6
  else if n ≤ 87 then none
  else if n ≤ 90 then some .f6
  else if n ≤ 111 then none
  else if n ≤ 113 then some .f3
  else if n = 114 then some .f5
  else if n ≤ 116 then some .f7
  else if n = 120 then some .f4
  else if n = 126 then some .f4
  else if n = 127 then some .f4
  else none

/-- The bits of the first halfword that the form leaves unused (R91). Every unused bit of the 32-bit
Forms 6 and 7 lies there too (R303). -/
def unusedMask : Form → Half
  | .f2 | .f6 => 0x0100#16
  | .f3 => 0x01FF#16
  | .f4 | .f7 => 0x01F0#16
  | .f1 | .f5 | .f8 => 0#16

/-- The opcode: the seven most significant bits of the first halfword (R82). -/
def opcodeOf (h0 : Half) : BitVec 7 := h0.extractLsb' 9 7

/-- Why the decoder rejects. -/
inductive DecodeError where
  /-- The opcode value is assigned to no instruction (R97). -/
  | unassignedOpcode (op : BitVec 7)
  /-- A bit that the opcode's form does not use is 1 (R91). -/
  | unusedBit (h0 : Half)
  /-- An operand field names a register that SPECIAL_AS_OPERAND does not take (R31). -/
  | specialOperand
  /-- The bytes end inside the instruction. -/
  | truncated
  deriving DecidableEq, Repr

/-- The raw fields of an instruction, by form. -/
inductive Fields where
  | f1 (op : BitVec 7) (imm9 : BitVec 9)
  | f2 (op : BitVec 7) (x y : BitVec 4)
  | f3 (op : BitVec 7)
  | f4 (op : BitVec 7) (x : BitVec 4)
  | f5 (op : BitVec 7) (imm5 : BitVec 5) (y : BitVec 4)
  | f6 (op : BitVec 7) (x y : BitVec 4) (imm16 : BitVec 16)
  | f7 (op : BitVec 7) (y : BitVec 4) (imm16 : BitVec 16)
  | f8 (op : BitVec 7) (disp25 : BitVec 25)
  deriving DecidableEq, Repr

/-- Cuts the fields out of the first and, for a 32-bit form, the second halfword (R83 to R90). -/
def cutFields (fm : Form) (h0 h1 : Half) : Fields :=
  match fm with
  | .f1 => .f1 (opcodeOf h0) (h0.extractLsb' 0 9)
  | .f2 => .f2 (opcodeOf h0) (h0.extractLsb' 4 4) (h0.extractLsb' 0 4)
  | .f3 => .f3 (opcodeOf h0)
  | .f4 => .f4 (opcodeOf h0) (h0.extractLsb' 0 4)
  | .f5 => .f5 (opcodeOf h0) (h0.extractLsb' 4 5) (h0.extractLsb' 0 4)
  | .f6 => .f6 (opcodeOf h0) (h0.extractLsb' 4 4) (h0.extractLsb' 0 4) h1
  | .f7 => .f7 (opcodeOf h0) (h0.extractLsb' 0 4) h1
  | .f8 => .f8 (opcodeOf h0) (h0.extractLsb' 0 9 ++ h1)

/-- The first halfword: opcode on top, unused bits 0 (R83 to R91, R101). -/
def firstHalf : Fields → Half
  | .f1 op imm9 => op ++ imm9
  | .f2 op x y => op ++ 0#1 ++ x ++ y
  | .f3 op => op ++ 0#9
  | .f4 op x => op ++ 0#5 ++ x
  | .f5 op imm5 y => op ++ imm5 ++ y
  | .f6 op x y _ => op ++ 0#1 ++ x ++ y
  | .f7 op y _ => op ++ 0#5 ++ y
  | .f8 op disp25 => op ++ disp25.extractLsb' 16 9

/-- The second halfword of a 32-bit form; 0 for a 16-bit form, which has none. -/
def secondHalf : Fields → Half
  | .f6 _ _ _ imm16 => imm16
  | .f7 _ _ imm16 => imm16
  | .f8 _ disp25 => disp25.extractLsb' 0 16
  | _ => 0#16

/-- LAYOUT (R7): where the fields of the eight forms lie, for reading and for writing. -/
structure Layout where
  /-- The opcode of the first halfword. -/
  opcode : Half → BitVec 7
  /-- The bits of the first halfword that a form leaves unused. -/
  unused : Form → Half
  /-- The fields of the first and, for a 32-bit form, the second halfword. -/
  cut : Form → Half → Half → Fields
  /-- The first halfword of the fields, unused bits 0. -/
  first : Fields → Half
  /-- The second halfword of the fields of a 32-bit form. -/
  second : Fields → Half

/-- LAYOUT at its default (R82 to R90, D1). -/
def Machine.Params.layout : Layout :=
  { opcode := opcodeOf, unused := unusedMask, cut := cutFields, first := firstHalf, second := secondHalf }

/-- The form of an instruction, decided from its first halfword alone (R96, R303): the opcode must be
assigned and, under UNUSED_BITS, the unused bits 0. -/
def formOf (h0 : Half) (layout : Layout := Machine.Params.layout)
    (unusedBitsFault : Bool := Machine.Params.unusedBitsFault) : Except DecodeError Form :=
  match opForm (layout.opcode h0) with
  | none => .error (.unassignedOpcode (layout.opcode h0))
  | some fm =>
    if unusedBitsFault && decide (h0 &&& layout.unused fm ≠ 0#16) then .error (.unusedBit h0)
    else .ok fm

/-- The register a 4-bit field names in an integer field (R21). -/
def regOf (n : BitVec 4) : IReg :=
  if h : n.toNat < 12 then .r ⟨n.toNat, h⟩
  else if n = 12#4 then .sp
  else if n = 13#4 then .fp
  else if n = 14#4 then .ccr
  else .pc

/-- The number of an integer register (R21). -/
def IReg.num : IReg → BitVec 4
  | .r n => BitVec.ofNat 4 n.val
  | .sp => 12#4
  | .fp => 13#4
  | .ccr => 14#4
  | .pc => 15#4

/-- The true byte displacement of a branch field: the field sign-extended and shifted left by one
(R92). -/
def wideDisp {w : Nat} (field : BitVec w) : Int := 2 * field.toInt

/-- The branch field that holds a displacement: the displacement shifted right by one (R92). -/
def narrowDisp (w : Nat) (disp : Int) : BitVec w := BitVec.ofInt w (disp / 2)

/-- The instruction that the fields stand for (R95, operand roles R100). -/
def instrOf : Fields → Option Instr
  | .f1 op imm9 =>
    match op.toNat with
    | 0 => some (.beqs (wideDisp imm9))
    | 1 => some (.bges (wideDisp imm9))
    | 2 => some (.bgts (wideDisp imm9))
    | 3 => some (.bles (wideDisp imm9))
    | 4 => some (.blts (wideDisp imm9))
    | 5 => some (.bnes (wideDisp imm9))
    | 6 => some (.bras (wideDisp imm9))
    | 7 => some (.rets imm9.toInt)
    | 8 => some (.bccs (wideDisp imm9))
    | 9 => some (.bcss (wideDisp imm9))
    | 10 => some (.bvcs (wideDisp imm9))
    | 11 => some (.bvss (wideDisp imm9))
    | 12 => some (.bbss (wideDisp imm9))
    | 13 => some (.bass (wideDisp imm9))
    | 14 => some (.bats (wideDisp imm9))
    | 15 => some (.bbts (wideDisp imm9))
    | _ => none
  | .f2 op x y =>
    match op.toNat with
    | 32 => some (.add (regOf x) (regOf y))
    | 33 => some (.addc (regOf x) (regOf y))
    | 34 => some (.and (regOf x) (regOf y))
    | 35 => some (.asr (regOf x) (regOf y))
    | 36 => some (.lsl (regOf x) (regOf y))
    | 37 => some (.lsr (regOf x) (regOf y))
    | 38 => some (.cmp (regOf x) (regOf y))
    | 39 => some (.sub (regOf x) (regOf y))
    | 40 => some (.subb (regOf x) (regOf y))
    | 41 => some (.divs (regOf x) (regOf y))
    | 42 => some (.divu (regOf x) (regOf y))
    | 43 => some (.mod (regOf x) (regOf y))
    | 44 => some (.move (regOf x) (regOf y))
    | 45 => some (.muls (regOf x) (regOf y))
    | 46 => some (.mulu (regOf x) (regOf y))
    | 47 => some (.neg (regOf x) (regOf y))
    | 48 => some (.not (regOf x) (regOf y))
    | 49 => some (.or (regOf x) (regOf y))
    | 50 => some (.xor (regOf x) (regOf y))
    | 51 => some (.fadd x.toFin y.toFin)
    | 52 => some (.fcmp x.toFin y.toFin)
    | 53 => some (.fdiv x.toFin y.toFin)
    | 54 => some (.fmove x.toFin y.toFin)
    | 55 => some (.fmul x.toFin y.toFin)
    | 56 => some (.fneg x.toFin y.toFin)
    | 57 => some (.fsub x.toFin y.toFin)
    | _ => none
  | .f3 op =>
    match op.toNat with
    | 112 => some .syscall
    | 113 => some .nop
    | _ => none
  | .f4 op x =>
    match op.toNat with
    | 120 => some (.call (regOf x))
    | 126 => some (.popl (regOf x))
    | 127 => some (.pushl (regOf x))
    | _ => none
  | .f5 op imm5 y =>
    match op.toNat with
    | 114 => some (.lims imm5.toInt (regOf y))
    | _ => none
  | .f6 op x y imm16 =>
    match op.toNat with
    | 64 => some (.fldd imm16.toInt (regOf x) y.toFin)
    | 65 => some (.flds imm16.toInt (regOf x) y.toFin)
    | 72 => some (.lbzx imm16.toInt (regOf x) (regOf y))
    | 73 => some (.lbsx imm16.toInt (regOf x) (regOf y))
    | 74 => some (.llsx imm16.toInt (regOf x) (regOf y))
    | 75 => some (.llzx imm16.toInt (regOf x) (regOf y))
    | 76 => some (.lwsx imm16.toInt (regOf x) (regOf y))
    | 77 => some (.lwzx imm16.toInt (regOf x) (regOf y))
    | 80 => some (.fstd x.toFin imm16.toInt (regOf y))
    | 81 => some (.fsts x.toFin imm16.toInt (regOf y))
    | 88 => some (.stb (regOf x) imm16.toInt (regOf y))
    | 89 => some (.stl (regOf x) imm16.toInt (regOf y))
    | 90 => some (.stw (regOf x) imm16.toInt (regOf y))
    | _ => none
  | .f7 op y imm16 =>
    match op.toNat with
    | 115 => some (.orhi imm16 (regOf y))
    | 116 => some (.lilo imm16 (regOf y))
    | _ => none
  | .f8 op disp25 =>
    match op.toNat with
    | 16 => some (.beql (wideDisp disp25))
    | 17 => some (.bgel (wideDisp disp25))
    | 18 => some (.bgtl (wideDisp disp25))
    | 19 => some (.blel (wideDisp disp25))
    | 20 => some (.bltl (wideDisp disp25))
    | 21 => some (.bnel (wideDisp disp25))
    | 22 => some (.bral (wideDisp disp25))
    | 23 => some (.bsrl (wideDisp disp25))
    | 24 => some (.bbsl (wideDisp disp25))
    | 25 => some (.basl (wideDisp disp25))
    | 26 => some (.batl (wideDisp disp25))
    | 27 => some (.bbtl (wideDisp disp25))
    | _ => none

/-- The CCR or the PC. -/
def IReg.isCcrOrPc (reg : IReg) : Bool := decide (reg = .ccr) || decide (reg = .pc)

/-- The operands that a model with SPECIAL_AS_OPERAND refused does not take: CCR and PC in any integer field, and SP
where the instruction also uses it implicitly (R31, R23). -/
def Instr.namesSpecial : Instr → Bool
  | .add rx ry | .addc rx ry | .and rx ry | .asr rx ry | .lsl rx ry | .lsr rx ry | .cmp rx ry | .sub rx ry
  | .subb rx ry | .divs rx ry | .divu rx ry | .mod rx ry | .move rx ry | .muls rx ry | .mulu rx ry | .neg rx ry
  | .not rx ry | .or rx ry | .xor rx ry | .lbzx _ rx ry | .lbsx _ rx ry | .llsx _ rx ry | .llzx _ rx ry
  | .lwsx _ rx ry | .lwzx _ rx ry | .stb rx _ ry | .stl rx _ ry | .stw rx _ ry => rx.isCcrOrPc || ry.isCcrOrPc
  | .fldd _ rx _ | .flds _ rx _ => rx.isCcrOrPc
  | .fstd _ _ ry | .fsts _ _ ry | .lims _ ry | .orhi _ ry | .lilo _ ry => ry.isCcrOrPc
  | .call rx | .popl rx | .pushl rx => rx.isCcrOrPc || decide (rx = .sp)
  | .beqs _ | .bges _ | .bgts _ | .bles _ | .blts _ | .bnes _ | .bras _ | .rets _ | .bccs _ | .bcss _ | .bvcs _
  | .bvss _ | .bbss _ | .bass _ | .bats _ | .bbts _ | .beql _ | .bgel _ | .bgtl _ | .blel _ | .bltl _ | .bnel _
  | .bral _ | .bsrl _ | .bbsl _ | .basl _ | .batl _ | .bbtl _ | .fadd _ _ | .fcmp _ _ | .fdiv _ _ | .fmove _ _
  | .fmul _ _ | .fneg _ _ | .fsub _ _ | .syscall | .nop => false

/-- What SPECIAL_AS_OPERAND makes of a decoded instruction: at the default, nothing is refused (R31, R99). -/
def admitSpecial (i : Instr) (special : Config.SpecialAsOperand := Machine.Params.specialAsOperand) :
    Except DecodeError Instr :=
  match special with
  | .admitted => .ok i
  | .refused => if i.namesSpecial then .error .specialOperand else .ok i

/-- The instruction in one or two halfwords: the second is read only for a 32-bit form. -/
def decodeHalves (h0 h1 : Half) (layout : Layout := Machine.Params.layout)
    (unusedBitsFault : Bool := Machine.Params.unusedBitsFault)
    (special : Config.SpecialAsOperand := Machine.Params.specialAsOperand) : Except DecodeError Instr :=
  match formOf h0 layout unusedBitsFault with
  | .error e => .error e
  | .ok fm =>
    match instrOf (layout.cut fm h0 h1) with
    | some i => admitSpecial i special
    | none => .error (.unassignedOpcode (layout.opcode h0))

/-- Decodes the instruction at the front of a byte list and answers it with the bytes after it: halfwords are
big-endian, the one with the opcode first (R53, R96). -/
def decode (bytes : List Byte) (layout : Layout := Machine.Params.layout)
    (unusedBitsFault : Bool := Machine.Params.unusedBitsFault)
    (special : Config.SpecialAsOperand := Machine.Params.specialAsOperand) : Except DecodeError (Instr × List Byte) :=
  match bytes with
  | b0 :: b1 :: rest =>
    match formOf (b0 ++ b1) layout unusedBitsFault with
    | .error e => .error e
    | .ok fm =>
      if formBytes fm = 2 then
        (decodeHalves (b0 ++ b1) 0#16 layout unusedBitsFault special).map fun i => (i, rest)
      else
        match rest with
        | b2 :: b3 :: rest' =>
          (decodeHalves (b0 ++ b1) (b2 ++ b3) layout unusedBitsFault special).map fun i => (i, rest')
        | _ => .error .truncated
  | _ => .error .truncated

/-- The fields that the encoder writes for an instruction (R95, R100, R101). -/
def fieldsOf : Instr → Fields
  | .beqs disp => .f1 0 (narrowDisp 9 disp)
  | .bges disp => .f1 1 (narrowDisp 9 disp)
  | .bgts disp => .f1 2 (narrowDisp 9 disp)
  | .bles disp => .f1 3 (narrowDisp 9 disp)
  | .blts disp => .f1 4 (narrowDisp 9 disp)
  | .bnes disp => .f1 5 (narrowDisp 9 disp)
  | .bras disp => .f1 6 (narrowDisp 9 disp)
  | .rets slots => .f1 7 (.ofInt 9 slots)
  | .bccs disp => .f1 8 (narrowDisp 9 disp)
  | .bcss disp => .f1 9 (narrowDisp 9 disp)
  | .bvcs disp => .f1 10 (narrowDisp 9 disp)
  | .bvss disp => .f1 11 (narrowDisp 9 disp)
  | .bbss disp => .f1 12 (narrowDisp 9 disp)
  | .bass disp => .f1 13 (narrowDisp 9 disp)
  | .bats disp => .f1 14 (narrowDisp 9 disp)
  | .bbts disp => .f1 15 (narrowDisp 9 disp)
  | .beql disp => .f8 16 (narrowDisp 25 disp)
  | .bgel disp => .f8 17 (narrowDisp 25 disp)
  | .bgtl disp => .f8 18 (narrowDisp 25 disp)
  | .blel disp => .f8 19 (narrowDisp 25 disp)
  | .bltl disp => .f8 20 (narrowDisp 25 disp)
  | .bnel disp => .f8 21 (narrowDisp 25 disp)
  | .bral disp => .f8 22 (narrowDisp 25 disp)
  | .bsrl disp => .f8 23 (narrowDisp 25 disp)
  | .bbsl disp => .f8 24 (narrowDisp 25 disp)
  | .basl disp => .f8 25 (narrowDisp 25 disp)
  | .batl disp => .f8 26 (narrowDisp 25 disp)
  | .bbtl disp => .f8 27 (narrowDisp 25 disp)
  | .add rx ry => .f2 32 rx.num ry.num
  | .addc rx ry => .f2 33 rx.num ry.num
  | .and rx ry => .f2 34 rx.num ry.num
  | .asr rx ry => .f2 35 rx.num ry.num
  | .lsl rx ry => .f2 36 rx.num ry.num
  | .lsr rx ry => .f2 37 rx.num ry.num
  | .cmp rx ry => .f2 38 rx.num ry.num
  | .sub rx ry => .f2 39 rx.num ry.num
  | .subb rx ry => .f2 40 rx.num ry.num
  | .divs rx ry => .f2 41 rx.num ry.num
  | .divu rx ry => .f2 42 rx.num ry.num
  | .mod rx ry => .f2 43 rx.num ry.num
  | .move rx ry => .f2 44 rx.num ry.num
  | .muls rx ry => .f2 45 rx.num ry.num
  | .mulu rx ry => .f2 46 rx.num ry.num
  | .neg rx ry => .f2 47 rx.num ry.num
  | .not rx ry => .f2 48 rx.num ry.num
  | .or rx ry => .f2 49 rx.num ry.num
  | .xor rx ry => .f2 50 rx.num ry.num
  | .fadd fx fy => .f2 51 (.ofFin fx) (.ofFin fy)
  | .fcmp fx fy => .f2 52 (.ofFin fx) (.ofFin fy)
  | .fdiv fx fy => .f2 53 (.ofFin fx) (.ofFin fy)
  | .fmove fx fy => .f2 54 (.ofFin fx) (.ofFin fy)
  | .fmul fx fy => .f2 55 (.ofFin fx) (.ofFin fy)
  | .fneg fx fy => .f2 56 (.ofFin fx) (.ofFin fy)
  | .fsub fx fy => .f2 57 (.ofFin fx) (.ofFin fy)
  | .fldd disp rx fy => .f6 64 rx.num (.ofFin fy) (.ofInt 16 disp)
  | .flds disp rx fy => .f6 65 rx.num (.ofFin fy) (.ofInt 16 disp)
  | .lbzx disp rx ry => .f6 72 rx.num ry.num (.ofInt 16 disp)
  | .lbsx disp rx ry => .f6 73 rx.num ry.num (.ofInt 16 disp)
  | .llsx disp rx ry => .f6 74 rx.num ry.num (.ofInt 16 disp)
  | .llzx disp rx ry => .f6 75 rx.num ry.num (.ofInt 16 disp)
  | .lwsx disp rx ry => .f6 76 rx.num ry.num (.ofInt 16 disp)
  | .lwzx disp rx ry => .f6 77 rx.num ry.num (.ofInt 16 disp)
  | .fstd fx disp ry => .f6 80 (.ofFin fx) ry.num (.ofInt 16 disp)
  | .fsts fx disp ry => .f6 81 (.ofFin fx) ry.num (.ofInt 16 disp)
  | .stb rx disp ry => .f6 88 rx.num ry.num (.ofInt 16 disp)
  | .stl rx disp ry => .f6 89 rx.num ry.num (.ofInt 16 disp)
  | .stw rx disp ry => .f6 90 rx.num ry.num (.ofInt 16 disp)
  | .syscall => .f3 112
  | .nop => .f3 113
  | .lims imm ry => .f5 114 (.ofInt 5 imm) ry.num
  | .orhi imm ry => .f7 115 ry.num imm
  | .lilo imm ry => .f7 116 ry.num imm
  | .call rx => .f4 120 rx.num
  | .popl rx => .f4 126 rx.num
  | .pushl rx => .f4 127 rx.num

/-- The form of a field record. -/
def fieldsForm : Fields → Form
  | .f1 .. => .f1
  | .f2 .. => .f2
  | .f3 .. => .f3
  | .f4 .. => .f4
  | .f5 .. => .f5
  | .f6 .. => .f6
  | .f7 .. => .f7
  | .f8 .. => .f8

/-- The two bytes of a halfword, most significant first (R53, R101). -/
def halfBytes (h : Half) : List Byte := [h.extractLsb' 8 8, h.extractLsb' 0 8]

/-- The bytes of an instruction in the order they lie in memory (R53, R101). -/
def encode (i : Instr) (layout : Layout := Machine.Params.layout) : List Byte :=
  halfBytes (layout.first (fieldsOf i)) ++
    (if formBytes (fieldsForm (fieldsOf i)) = 2 then [] else halfBytes (layout.second (fieldsOf i)))

/-- The length L of an instruction in bytes (R96). -/
def Instr.size (i : Instr) : Nat := formBytes (fieldsForm (fieldsOf i))

/-- The four bytes in which an instruction of the opcode table lies, the table's bits above `nbits` being 0.
The table reads a 16-bit instruction as one 16-bit number and a 32-bit one as one 32-bit number whose upper
half is the first halfword (log 24). -/
def tableBytes (nbits w : Nat) : List Byte :=
  if nbits ≤ 16 then halfBytes (BitVec.ofNat 16 w) ++ [0#8, 0#8]
  else halfBytes (BitVec.ofNat 16 (w / 2 ^ 16)) ++ halfBytes (BitVec.ofNat 16 w)

/-- The instruction the decoder reads from a word of the opcode table. -/
def decodeTableWord (nbits w : Nat) : Option Instr :=
  match decode (tableBytes nbits w) with
  | .ok (i, _) => some i
  | .error _ => none

/-- LEAA (R112, R270): LILO of the low half, then ORHI of the high half. -/
def leaa (imm32 : Word) (ry : IReg) : List Instr :=
  [.lilo (imm32.extractLsb' 0 16) ry, .orhi (imm32.extractLsb' 16 16) ry]

/-- LIMM (R112, R271): the expansion of LEAA with the constant's two halves, for a signed or unsigned
constant. -/
def limm (imm : Int) (ry : IReg) : List Instr := leaa (BitVec.ofInt 32 imm) ry

/-- The displacement an assembler gives a branch of `len` bytes at `a` to reach `target`, if the instruction
can hold it: `target - (a + len)`, even and in reach (R92, R109). -/
def branchDisp (len : Nat) (a target : Word) : Option Int :=
  let d := (target - (a + BitVec.ofNat 32 len)).toInt
  if (if len = 2 then shortReach d else longReach d) then some d else none

end Sys2Proof
end

