-- ==== Sys2Proof/Machine/Oracle.lean ====
section
/-! DEFINITION. The host's side of a system call and of an exception, as data and as uninterpreted constants: the
parameter SYSCALL_ORACLE (R274), which holds what a system call answers (log 9), where the buffers of a call lie (log
26), what the uid permits and the format of SYS_LIBCALL's records (R276, log 27); and the parameter HANDLERS (R312, log
7). What the host may change of the process is fixed by the operations of SystemCalls.lean that use them. -/

namespace Sys2Proof.Machine

/-- What the host answers to a system call that returns (R274). -/
structure SyscallReply where
  /-- R0, the result, and R1 to R11, which may hold any value (R260). -/
  r : Vector Word 12
  /-- FP0 to FP15, which may hold any value (R260). -/
  f : Vector Double 16
  /-- The bytes the service asks to write; those the host may not write are dropped (R274). -/
  writes : List Host.Cell
  /-- The new host-side state. -/
  host : HostState
  /-- SYS_FILES: the pointer to the array of names, which the service has written among `writes` (R276 c). -/
  files : Word
  /-- SYS_LIBOPEN: the library was opened (R276 e). -/
  opened : Bool
  deriving DecidableEq, Repr, Inhabited

/-- The types of parameter that SYS_LIBCALL passes (R276 d); their numeric codes are not given. -/
inductive TlvKind where
  /-- DATA_SIGNED. -/
  | signed
  /-- DATA_UNSIGNED. -/
  | unsigned
  /-- DATA_FLOAT. -/
  | float
  /-- DATA_POINTER. -/
  | pointer
  /-- DATA_VOID, "an empty parameter". -/
  | void
  deriving DecidableEq, Repr, Inhabited

/-- The lengths in bytes that a type's length field may hold (R276 d). For DATA_VOID the source gives none: an empty
parameter is read as one of no bytes (DESIGN CHOICE, log 27). -/
def TlvKind.lengths : TlvKind → List Nat
  | .signed | .unsigned => [1, 2, 4, 8]
  | .float => [4, 8]
  | .pointer => [4]
  | .void => [0]

/-- One record of SYS_LIBCALL's array in TLV (type, length, value) format (R276 d). -/
structure TlvRecord where
  kind : TlvKind
  /-- The bytes of the value, most significant first; the length field is their number. -/
  value : List Byte
  deriving DecidableEq, Repr, Inhabited

/-- SYSCALL_ORACLE (R7, R73, R274): what each operating-system service does, in the state after the push. Every number
but SYS_EXIT's is asked of it. -/
structure SyscallOracle where
  /-- The outcome `Exit(status)` of R274: the service ends the run; `none` where it returns. -/
  exits : State → Option Word
  /-- The answer of a service that returns. -/
  reply : State → SyscallReply
  /-- The buffers that a call hands to the host to fill: which of R1 to R11 holds the address (0 for R1), and how many
  bytes. Asked only of the calls whose prototypes the source does not give (R272). -/
  buffers : State → List (Fin 11 × Nat)
  /-- Where SYS_FILES puts the array of names and its strings, each place an address and a number of bytes: "not stated"
  (R276 c). -/
  filesStorage : State → List (Word × Nat)
  /-- How many bytes the routine that SYS_LIBCALL calls may fill at a DATA_POINTER, or at an array of parameters that is
  not as R276 (d) describes. -/
  pointerExtent : State → (pointer : Word) → Nat
  /-- Whether the uid permits a call of this number at the draw numbered `draw` (R276 c, d). -/
  uidPermits : (number : Word) → (uid draw : Nat) → Bool
  /-- One less than the numeric value of EACCES, which is not 0 (R273, R276). -/
  eaccesLessOne : Fin 4294967295
  /-- The type that a code in the type field of a TLV record stands for, if any (R276 d). -/
  tlvKind : (code : Nat) → Option TlvKind
  /-- How many bytes the type field of a TLV record has (R276 d). -/
  tlvTypeBytes : Nat
  /-- How many bytes the length field of a TLV record has (R276 d). -/
  tlvLengthBytes : Nat

/-- HANDLERS (R7, R310, R312). -/
inductive Handlers where
  /-- The spec's default (D20): no handler can be installed and every exception ends the run. -/
  | terminal
  /-- "An abstract function from (vector, state at the fault) to a successor state, with no property assumed". -/
  | modelled (successor : BitVec 5 → State → State)

end Sys2Proof.Machine

namespace Sys2Proof.Config

/-- FREE VALUE (log 9): what the host answers to a call that returns, from the state after the push (R274). -/
opaque syscallOracle : Machine.State → Machine.SyscallReply

/-- FREE VALUE (log 26): the buffers that a call hands to the host to fill; where they lie is not given (R272). -/
opaque syscallBuffers : Machine.State → List (Fin 11 × Nat)

/-- FREE VALUE (log 26): where SYS_FILES puts the array of names and its strings: "not stated" (R276 c). -/
opaque filesStorage : Machine.State → List (Word × Nat)

/-- FREE VALUE (log 27): the type that a code of a TLV record stands for; the codes are not given (R276 d). -/
opaque tlvKind : (code : Nat) → Option Machine.TlvKind

/-- FREE VALUE (log 27): how many bytes the type field of a TLV record has; not given (R276 d). -/
opaque tlvTypeBytes : Nat

/-- FREE VALUE (log 27): how many bytes the length field of a TLV record has; not given (R276 d). -/
opaque tlvLengthBytes : Nat

/-- FREE VALUE (log 26): how many bytes a routine that SYS_LIBCALL calls may fill at a pointer; not given (R276 d). -/
opaque pointerExtent : Machine.State → (pointer : Word) → Nat

end Sys2Proof.Config

namespace Sys2Proof.Machine.Params

/-- SYSCALL_ORACLE (R274, D22): the host's, of which nothing can be proved but that every call returns (DESIGN CHOICE,
log 9). -/
def syscallOracle : SyscallOracle :=
  { exits := fun _ => none
    reply := Config.syscallOracle
    buffers := Config.syscallBuffers
    filesStorage := Config.filesStorage
    pointerExtent := Config.pointerExtent
    uidPermits := Config.uidPermits
    eaccesLessOne := Config.eaccesLessOne
    tlvKind := Config.tlvKind
    tlvTypeBytes := Config.tlvTypeBytes
    tlvLengthBytes := Config.tlvLengthBytes }

/-- HANDLERS (R310, R312, D20): not modelled, every exception is terminal. -/
def handlers : Handlers := .terminal

end Sys2Proof.Machine.Params
end

