-- ==== Sys2Proof/Machine/Parameters.lean ====
section
/-! DEFINITION. The open parameters of R7 that a step depends on, as one record of named arguments, each with its
default of Machine/Params.lean (log 14). -/

namespace Sys2Proof.Machine

/-- The parameters of R7, by name. DATA_BASE, BSS_BASE and LAUNCH_MEMORY are not among them: they are arguments of
the launch (Launch.lean), and a step sees the memory map that a launch has made of them. -/
structure Parameters where
  /-- LAYOUT. -/
  layout : Layout := Params.layout
  /-- UNUSED_BITS. -/
  unusedBitsFault : Bool := Params.unusedBitsFault
  /-- CCR_LAYOUT. -/
  ccrLayout : Config.CcrLayout := Params.ccrLayout
  /-- SPECIAL_AS_OPERAND. -/
  specialAsOperand : Config.SpecialAsOperand := Params.specialAsOperand
  /-- CMP_WRITES_CF. -/
  cmpWritesCf : Bool := Params.cmpWritesCf
  /-- UNSIGNED_COND. -/
  unsignedCond : Config.UnsignedCond := Params.unsignedCond
  /-- DIV_NUMERICS. -/
  divNumerics : Config.DivNumerics := Params.divNumerics
  /-- FP_NUMERICS. -/
  fpNumerics : Config.FpNumerics := Params.fpNumerics
  /-- FDIV_ZERO_VECTOR. -/
  fdivZeroVector : Config.FdivZero := Params.fdivZeroVector
  /-- DATA_ALIGN. -/
  dataAlignNatural : Bool := Params.dataAlignNatural
  /-- HANDLERS. -/
  handlers : Handlers := Params.handlers
  /-- SYSCALL_ORACLE. -/
  syscallOracle : SyscallOracle := Params.syscallOracle
  /-- SYSCALL_PRESERVES. -/
  syscallPreserves : Config.SyscallPreserves := Params.syscallPreserves
  /-- LITERAL_FLAGS. -/
  literalFlags : Config.LiteralFlags := Params.literalFlags

/-- Every parameter at its default. -/
abbrev Params.defaults : Parameters := {}

end Sys2Proof.Machine
end

