-- ==== Sys2Proof/Machine/Ops.lean ====
section
/-! DEFINITION. The shared operations over memory: bytes and their canonical form (R35, R52), the launch map's Valid
and Writable (R65, R66), the checks and the byte order of every access (R52, R55, R56, R60), strings in memory
(R276, R343), the stack (R280), and taking an exception (R310 to R315). -/

namespace Sys2Proof.Machine

/-- What a step or a meaning answers. -/
abbrev Answer := Host.Outcome State Fault Refusal

namespace Memory

/-- The canonical form: addresses strictly rising, all of them 32-bit addresses (log 3). -/
abbrev wf (m : Memory) : Prop := m.Pairwise (fun x y => x.1 < y.1) ∧ ∀ c ∈ m, c.1 < 4294967296

/-- The byte written at an address, if any. -/
def find : Memory → Nat → Option Byte
  | [], _ => none
  | (k, w) :: m, a => if k = a then some w else find m a

/-- Writes one byte, keeping the canonical form. -/
def store : Memory → Nat → Byte → Memory
  | [], a, v => [(a, v)]
  | (k, w) :: m, a, v =>
    if a < k then (a, v) :: (k, w) :: m
    else if a = k then (a, v) :: m
    else (k, w) :: store m a v

/-- `MemWrite(a, 1, v)` without its checks (R52). -/
def store8 (m : Memory) (a : Word) (v : Byte) : Memory := store m a.toNat v

/-- `MemWrite(a, 2, v)` without its checks: the more significant half at the lower address (R51, R52), addresses
modulo 2^32 (R74). -/
def store16 (m : Memory) (a : Word) (v : Half) : Memory :=
  store8 (store8 m a (v.extractLsb' 8 8)) (a + 1#32) (v.extractLsb' 0 8)

/-- `MemWrite(a, 4, v)` without its checks (R51, R52). -/
def store32 (m : Memory) (a : Word) (v : Word) : Memory :=
  store16 (store16 m a (v.extractLsb' 16 16)) (a + 2#32) (v.extractLsb' 0 16)

/-- `MemWrite(a, 8, v)` without its checks (R51, R52). -/
def store64 (m : Memory) (a : Word) (v : BitVec 64) : Memory :=
  store32 (store32 m a (v.extractLsb' 32 32)) (a + 4#32) (v.extractLsb' 0 32)

/-- Writes the listed bytes at the addresses that `may` admits and drops the rest (R274). -/
def storeCells (m : Memory) (may : Word → Bool) (cells : List Host.Cell) : Memory :=
  cells.foldl (fun m c => if may (BitVec.ofNat 32 c.1) then store8 m (BitVec.ofNat 32 c.1) c.2 else m) m

/-- The four bytes of a word at `a`, most significant first, as a list of bytes to write (R51, R52). -/
def cellsOf (a v : Word) : List Host.Cell :=
  [(a.toNat, v.extractLsb' 24 8), ((a + 1#32).toNat, v.extractLsb' 16 8), ((a + 2#32).toNat, v.extractLsb' 8 8),
    ((a + 3#32).toNat, v.extractLsb' 0 8)]

end Memory

/-- The region holds the address. -/
def Region.covers (g : Region) (a : Word) : Bool := decide (g.base ≤ a.toNat) && decide (a.toNat < g.base + g.size)

/-- `p` holds of the `n` addresses from `a` on, modulo 2^32 (R52, R74). -/
def everyByte (p : Word → Bool) (a : Word) : Nat → Bool
  | 0 => true
  | n + 1 => everyByte p a n && p (a + BitVec.ofNat 32 n)

/-- The address lies among the `n` from `a` on, modulo 2^32 (R52, R74). -/
def inRange (a : Word) (n : Nat) (b : Word) : Bool := decide ((b - a).toNat < n)

/-- The vector numbers that have a name of their own (R301). -/
inductive VectorName where
  /-- 0, "Reset initial PC (unsupported)". -/
  | resetInitialPc
  /-- 1. -/
  | illegalInstruction
  /-- 2. -/
  | invalidMemoryAccess
  /-- 3. -/
  | illegalBusAccess
  /-- 4, "Syscall handler (unsupported)". -/
  | syscallHandler
  /-- 5, "STEP Handler (unsupported)". -/
  | stepHandler
  /-- 6 to 9, "Breakpoint 0 to 3 handler (unsupported)". -/
  | breakpoint (n : Fin 4)
  /-- 10 to 31, "Reserved (unsupported)". -/
  | reserved
  deriving DecidableEq, Repr

/-- Table 5.1 (R301). -/
def vectorName (v : BitVec 5) : VectorName :=
  match v.toNat with
  | 0 => .resetInitialPc
  | 1 => .illegalInstruction
  | 2 => .invalidMemoryAccess
  | 3 => .illegalBusAccess
  | 4 => .syscallHandler
  | 5 => .stepHandler
  | 6 => .breakpoint 0
  | 7 => .breakpoint 1
  | 8 => .breakpoint 2
  | 9 => .breakpoint 3
  | _ => .reserved

/-- The signals of Table 8.3 (R302). -/
inductive Signal where
  | sigabrt | sigalrm | sigfpe | sighup | sigill | sigint | sigkill | sigpipe | sigquit | sigsegv | sigterm
  | sigusr1 | sigusr2 | sigchld | sigcont | sigstop | sigtstp | sigttin | sigttou | sigbus | sigstep | sigtrap
  deriving DecidableEq, Repr

/-- The value of a signal (R302). -/
def Signal.value : Signal → Nat
  | .sigabrt => 1 | .sigalrm => 2 | .sigfpe => 3 | .sighup => 4 | .sigill => 5 | .sigint => 6
  | .sigkill => 7 | .sigpipe => 8 | .sigquit => 9 | .sigsegv => 10 | .sigterm => 11 | .sigusr1 => 12
  | .sigusr2 => 13 | .sigchld => 14 | .sigcont => 15 | .sigstop => 16 | .sigtstp => 17 | .sigttin => 18
  | .sigttou => 19 | .sigbus => 20 | .sigstep => 21 | .sigtrap => 22

/-- The signals that are not marked "Not supported" (R302). -/
def Signal.supported : Signal → Bool
  | .sigill | .sigsegv | .sigterm | .sigstep | .sigtrap => true
  | _ => false

/-- The signal of an exception; none for FloatDivideByZero (R311). -/
def Exception.signal : Exception → Option Signal
  | .illegalInstruction _ => some .sigill
  | .invalidMemoryAccess _ => some .sigsegv
  | .illegalBusAccess _ => some .sigbus
  | .floatDivideByZero => none

/-- The exit status of the abort: the signal number (R311); FloatDivideByZero has the one that FDIV_ZERO_VECTOR gives
(R223, log 8). -/
def Exception.abortStatus (e : Exception) (fdivZero : Config.FdivZero := Params.fdivZeroVector) : Nat :=
  match e.signal with
  | some signal => signal.value
  | none => fdivZero.status

/-- The vector of an exception (R301, R311); FloatDivideByZero has the one that FDIV_ZERO_VECTOR names, if any (R223,
log 8). -/
def Exception.vector (e : Exception) (fdivZero : Config.FdivZero := Params.fdivZeroVector) : Option (BitVec 5) :=
  match e with
  | .illegalInstruction _ => some 1#5
  | .invalidMemoryAccess _ => some 2#5
  | .illegalBusAccess _ => some 3#5
  | .floatDivideByZero => fdivZero.vector

namespace State

/-- What the byte at an address reads as: the byte last written, else the unknown byte that the address has held
since before the launch (R38, log 3). -/
def byte (s : State) (a : Word) : Byte := (Memory.find s.mem a.toNat).getD (Config.unwrittenByte a)

/-- The address is valid memory (R65). -/
def valid (s : State) (a : Word) : Bool := s.regions.any fun g => g.covers a

/-- The address lies in the code segment (R65, R66). -/
def inCode (s : State) (a : Word) : Bool := s.regions.any fun g => decide (g.segment = .code) && g.covers a

/-- The address may be written: Valid minus the code segment (R65, R66, log 22). -/
def writable (s : State) (a : Word) : Bool := s.valid a && !s.inCode a

/-- `MemRead(a, 1)` without its checks (R52). -/
def load8 (s : State) (a : Word) : Byte := s.byte a

/-- `MemRead(a, 2)` without its checks: the byte at `a` is the most significant (R51, R52). -/
def load16 (s : State) (a : Word) : Half := s.load8 a ++ s.load8 (a + 1#32)

/-- `MemRead(a, 4)` without its checks (R51, R52). -/
def load32 (s : State) (a : Word) : Word := s.load16 a ++ s.load16 (a + 2#32)

/-- `MemRead(a, 8)` without its checks (R51, R52). -/
def load64 (s : State) (a : Word) : BitVec 64 := s.load32 a ++ s.load32 (a + 4#32)

/-- The check that stands before an access of `n` bytes at `a`, every byte of which must satisfy `p`: alignment
under DATA_ALIGN, then validity (R52, R56, R60, R320). -/
def accessFault (p : Word → Bool) (n : Nat) (a : Word) (natural : Bool := Params.dataAlignNatural) :
    Option Exception :=
  if natural && decide (a.toNat % n ≠ 0) then some (.illegalBusAccess a)
  else if everyByte p a n then none
  else some (.invalidMemoryAccess a)

/-- The exception that a read of `n` bytes at `a` raises, if any. -/
def readFault (s : State) (n : Nat) (a : Word) (natural : Bool := Params.dataAlignNatural) : Option Exception :=
  accessFault s.valid n a natural

/-- The exception that a write of `n` bytes at `a` raises, if any. -/
def writeFault (s : State) (n : Nat) (a : Word) (natural : Bool := Params.dataAlignNatural) : Option Exception :=
  accessFault s.writable n a natural

/-- The bytes from `a` on are valid memory up to and including a null byte, found within `fuel` bytes. -/
def stringEnds (s : State) : (fuel : Nat) → Word → Bool
  | 0, _ => false
  | fuel + 1, a => s.valid a && (decide (s.byte a = 0#8) || stringEnds s fuel (a + 1#32))

/-- How many bytes of valid memory there can be: no string is longer. -/
def validSize (s : State) : Nat := (s.regions.map Region.size).sum

/-- A null-terminated string stands in valid memory at `a` (R276, R343). -/
def isString (s : State) (a : Word) : Bool := s.stringEnds s.validSize a

/-- How many bytes of valid memory stand from `a` on up to and including a null byte, within `fuel` bytes. -/
def stringSize (s : State) : (fuel : Nat) → Word → Nat
  | 0, _ => 0
  | fuel + 1, a => if !s.valid a then 0 else if s.byte a = 0#8 then 1 else stringSize s fuel (a + 1#32) + 1

/-- The `count` pointers from `base` on, 32-bit big-endian, lie in valid memory and each addresses a null-terminated
string there (R276, R343). -/
def stringsPlaced (s : State) (base : Word) : (count : Nat) → Bool
  | 0 => true
  | count + 1 =>
    everyByte s.valid (base + BitVec.ofNat 32 (4 * count)) 4 &&
      s.isString (s.load32 (base + BitVec.ofNat 32 (4 * count))) && stringsPlaced s base count

/-- An array of `count` null-terminated strings stands at `base`, "ending with a NULL character": a null pointer
behind the last pointer, and none before it (R276 c). -/
def stringArray (s : State) (base : Word) (count : Nat) : Bool :=
  s.stringsPlaced base count && everyByte s.valid (base + BitVec.ofNat 32 (4 * count)) 4 &&
    decide (s.load32 (base + BitVec.ofNat 32 (4 * count)) = 0#32) &&
    (List.range count).all fun i => decide (s.load32 (base + BitVec.ofNat 32 (4 * i)) ≠ 0#32)

/-- The `n` bytes of memory from `a` on. -/
def bytesFrom (s : State) (a : Word) (n : Nat) : List Byte := (List.range n).map fun k => s.byte (a + BitVec.ofNat 32 k)

/-- The process has installed a handler for the vector (R40, R301). -/
def installed (s : State) (v : BitVec 5) : Bool := (s.host.vectors.lookup v).isSome

/-- The vector of the handler that an exception goes to, if one is installed for it (R310, R312). -/
def handlerVector (s : State) (e : Exception) (fdivZero : Config.FdivZero := Params.fdivZeroVector) :
    Option (BitVec 5) := (e.vector fdivZero).filter s.installed

end State

/-- Taking an exception (R310): the instruction has had no effect (R315), so `s` is the state before it, with the
PC at `A`. The host ends the run as aborted (R311), as it does for every exception at the default of HANDLERS. Where
HANDLERS is modelled and a handler is installed, its successor state is next (R312). What happens "if a handler
itself faults" R312 leaves open: such a fault is taken in the same way as any other (DESIGN CHOICE, log 7). -/
def takeException (e : Exception) (s : State) (p : Parameters := Params.defaults) : Answer :=
  match p.handlers with
  | .terminal => .next (s.withRun (.aborted e (e.abortStatus p.fdivZeroVector)))
  | .modelled successor =>
    match s.handlerVector e p.fdivZeroVector with
    | some v => .next (successor v s)
    | none => .next (s.withRun (.aborted e (e.abortStatus p.fdivZeroVector)))

/-- An instruction that completes as `t` unless the exception `fault` is raised, which is taken in the state before
the instruction (R315). -/
def unlessFault (s : State) (fault : Option Exception) (t : State) (p : Parameters := Params.defaults) : Answer :=
  match fault with
  | some e => takeException e s p
  | none => .next t

namespace State

/-- SP after a push: `SP - 4` modulo 2^32 (R280, R74). -/
def pushSp (s : State) : Word := s.sp - 4#32

/-- The push of `v` once its checks have passed (R280). -/
def push (s : State) (v : Word) : State := (s.withMem (Memory.store32 s.mem s.pushSp v)).withSp s.pushSp

/-- The exception that a push raises, if any (R280). -/
def pushFault (s : State) (natural : Bool := Params.dataAlignNatural) : Option Exception :=
  s.writeFault 4 s.pushSp natural

/-- The exception that a pop raises, if any (R280). -/
def popFault (s : State) (natural : Bool := Params.dataAlignNatural) : Option Exception :=
  s.readFault 4 s.sp natural

/-- The value on top of the stack. -/
def top (s : State) : Word := s.load32 s.sp

/-- Drops `bytes` from the stack, modulo 2^32 (R280, R282). -/
def drop (s : State) (bytes : Int) : State := s.withSp (s.sp + BitVec.ofInt 32 bytes)

end State

end Sys2Proof.Machine
end

