-- ==== Sys2Proof/Machine/Branches.lean ====
section
/-! DEFINITION. The 26 relative branches (R120 to R150): no register but the PC, no flag and no memory changes, and
no exception of their own. Taken, the PC becomes `A + L + disp`; not taken, `A + L`. -/

namespace Sys2Proof.Machine

/-- The branch mechanism (R120) for a branch of `len` bytes. -/
def branch (len : Nat) (cond : Flags → Bool) (disp : Int) (s : State) : State :=
  let s1 := s.advance len
  if cond s1.flags then s1.withPc (s1.pc + BitVec.ofInt 32 disp) else s1

/-- BEQS (R125). -/
def execBeqs (disp : Int) (s : State) : Answer := .next (branch 2 condEq disp s)

/-- BGES (R126). -/
def execBges (disp : Int) (s : State) : Answer := .next (branch 2 condGe disp s)

/-- BGTS (R127). -/
def execBgts (disp : Int) (s : State) : Answer := .next (branch 2 condGt disp s)

/-- BLES (R128). -/
def execBles (disp : Int) (s : State) : Answer := .next (branch 2 condLe disp s)

/-- BLTS (R129). -/
def execBlts (disp : Int) (s : State) : Answer := .next (branch 2 condLt disp s)

/-- BNES (R130). -/
def execBnes (disp : Int) (s : State) : Answer := .next (branch 2 condNe disp s)

/-- BRAS (R131). -/
def execBras (disp : Int) (s : State) : Answer := .next (branch 2 (fun _ => true) disp s)

/-- BCCS (R132). -/
def execBccs (disp : Int) (s : State) : Answer := .next (branch 2 condCc disp s)

/-- BCSS (R133). -/
def execBcss (disp : Int) (s : State) : Answer := .next (branch 2 condCs disp s)

/-- BVCS (R134). -/
def execBvcs (disp : Int) (s : State) : Answer := .next (branch 2 condVc disp s)

/-- BVSS (R135). -/
def execBvss (disp : Int) (s : State) : Answer := .next (branch 2 condVs disp s)

/-- BBSS (R136). -/
def execBbss (disp : Int) (s : State) (p : Parameters := Params.defaults) : Answer :=
  .next (branch 2 (condBelowSame p.unsignedCond) disp s)

/-- BASS (R137). -/
def execBass (disp : Int) (s : State) (p : Parameters := Params.defaults) : Answer :=
  .next (branch 2 (condAboveSame p.unsignedCond) disp s)

/-- BATS (R138). -/
def execBats (disp : Int) (s : State) (p : Parameters := Params.defaults) : Answer :=
  .next (branch 2 (condAbove p.unsignedCond) disp s)

/-- BBTS (R139). -/
def execBbts (disp : Int) (s : State) (p : Parameters := Params.defaults) : Answer :=
  .next (branch 2 (condBelow p.unsignedCond) disp s)

/-- BEQL (R140). -/
def execBeql (disp : Int) (s : State) : Answer := .next (branch 4 condEq disp s)

/-- BGEL (R141). -/
def execBgel (disp : Int) (s : State) : Answer := .next (branch 4 condGe disp s)

/-- BGTL (R142). -/
def execBgtl (disp : Int) (s : State) : Answer := .next (branch 4 condGt disp s)

/-- BLEL (R143). -/
def execBlel (disp : Int) (s : State) : Answer := .next (branch 4 condLe disp s)

/-- BLTL (R144). -/
def execBltl (disp : Int) (s : State) : Answer := .next (branch 4 condLt disp s)

/-- BNEL (R145). -/
def execBnel (disp : Int) (s : State) : Answer := .next (branch 4 condNe disp s)

/-- BRAL (R146). -/
def execBral (disp : Int) (s : State) : Answer := .next (branch 4 (fun _ => true) disp s)

/-- BBSL (R147). -/
def execBbsl (disp : Int) (s : State) (p : Parameters := Params.defaults) : Answer :=
  .next (branch 4 (condBelowSame p.unsignedCond) disp s)

/-- BASL (R148). -/
def execBasl (disp : Int) (s : State) (p : Parameters := Params.defaults) : Answer :=
  .next (branch 4 (condAboveSame p.unsignedCond) disp s)

/-- BATL (R149). -/
def execBatl (disp : Int) (s : State) (p : Parameters := Params.defaults) : Answer :=
  .next (branch 4 (condAbove p.unsignedCond) disp s)

/-- BBTL (R150). -/
def execBbtl (disp : Int) (s : State) (p : Parameters := Params.defaults) : Answer :=
  .next (branch 4 (condBelow p.unsignedCond) disp s)

end Sys2Proof.Machine
end

