-- ==== Sys2Proof/Machine/FloatOps.lean ====
section
/-! DEFINITION. The floating-point instructions (R210 to R224): the register operations of two bytes, over
FP_NUMERICS, and the loads and stores of four. An operation that can give a NaN takes this state's free quiet NaN
and counts one draw (log 12); FMOVE, FLDD and FSTD copy bits. -/

namespace Sys2Proof.Machine

/-- What the floating-point operations with a result share: `op a b` goes to `fy`, then the flag line. -/
def floatOp (fx fy : FReg) (op : Double → Double → Double) (line : Double → Double → Double → Flags → Flags)
    (s : State) : State :=
  let s1 := s.advance 2
  let a := s1.readF fx
  let b := s1.readF fy
  ((s1.writeF fy (op a b)).mapFlags (line a b (op a b))).draw

/-- FADD (R212): the only one that writes OV. -/
def execFadd (fx fy : FReg) (s : State) (p : Parameters := Params.defaults) : Answer :=
  .next (floatOp fx fy (fun a b => p.fpNumerics.fadd s.nan64 a b) (faddFlags p.fpNumerics) s)

/-- FCMP (R213): the flags of `fy - fx`; writes no register. -/
def execFcmp (fx fy : FReg) (s : State) (p : Parameters := Params.defaults) : Answer :=
  let s1 := s.advance 2
  .next (s1.mapFlags (floatFlags p.fpNumerics (p.fpNumerics.fsub s.nan64 (s1.readF fy) (s1.readF fx)))).draw

/-- FDIV (R214): `fy / fx`; a divisor of +0.0 or -0.0 raises FloatDivideByZero (R223). -/
def execFdiv (fx fy : FReg) (s : State) (p : Parameters := Params.defaults) : Answer :=
  unlessFault s (if p.fpNumerics.isZero (s.readF fx) then some .floatDivideByZero else none)
    (floatOp fx fy (fun a b => p.fpNumerics.fdiv s.nan64 b a) (fun _ _ => floatFlags p.fpNumerics) s) p

/-- FMOVE (R215): all 64 bits, no arithmetic, no flag. -/
def execFmove (fx fy : FReg) (s : State) : Answer :=
  let s1 := s.advance 2
  .next (s1.writeF fy (s1.readF fx))

/-- FMUL (R216). -/
def execFmul (fx fy : FReg) (s : State) (p : Parameters := Params.defaults) : Answer :=
  .next (floatOp fx fy (fun a b => p.fpNumerics.fmul s.nan64 a b) (fun _ _ => floatFlags p.fpNumerics) s)

/-- FNEG (R217): "0 - Source"; the old value of `fy` plays no part. -/
def execFneg (fx fy : FReg) (s : State) (p : Parameters := Params.defaults) : Answer :=
  .next (floatOp fx fy (fun a _ => p.fpNumerics.fneg0 s.nan64 a) (fun _ _ => floatFlags p.fpNumerics) s)

/-- FSUB (R218): `fy - fx`. -/
def execFsub (fx fy : FReg) (s : State) (p : Parameters := Params.defaults) : Answer :=
  .next (floatOp fx fy (fun a b => p.fpNumerics.fsub s.nan64 b a) (fun _ _ => floatFlags p.fpNumerics) s)

/-- FLDD (R219). -/
def execFldd (disp : Int) (rx : IReg) (fy : FReg) (s : State) (p : Parameters := Params.defaults) : Answer :=
  let s1 := s.advance 4
  let ea := s1.ea rx disp p.ccrLayout
  unlessFault s (s.readFault 8 ea p.dataAlignNatural) (s1.writeF fy (s1.load64 ea)) p

/-- FLDS (R220): a single, converted to double. -/
def execFlds (disp : Int) (rx : IReg) (fy : FReg) (s : State) (p : Parameters := Params.defaults) : Answer :=
  let s1 := s.advance 4
  let ea := s1.ea rx disp p.ccrLayout
  unlessFault s (s.readFault 4 ea p.dataAlignNatural) (s1.writeF fy (p.fpNumerics.s2d s.nan64 (s1.load32 ea))).draw p

/-- FSTD (R221). -/
def execFstd (fx : FReg) (disp : Int) (ry : IReg) (s : State) (p : Parameters := Params.defaults) : Answer :=
  let s1 := s.advance 4
  let ea := s1.ea ry disp p.ccrLayout
  unlessFault s (s.writeFault 8 ea p.dataAlignNatural) (s1.withMem (Memory.store64 s1.mem ea (s1.readF fx))) p

/-- FSTS (R222): the register rounded to single. -/
def execFsts (fx : FReg) (disp : Int) (ry : IReg) (s : State) (p : Parameters := Params.defaults) : Answer :=
  let s1 := s.advance 4
  let ea := s1.ea ry disp p.ccrLayout
  unlessFault s (s.writeFault 4 ea p.dataAlignNatural)
    (s1.withMem (Memory.store32 s1.mem ea (p.fpNumerics.d2s s.nan32 (s1.readF fx)))).draw p

end Sys2Proof.Machine
end

