-- ==== Sys2Proof/Machine/SystemCalls.lean ====
section
/-! DEFINITION. The host's part of a system call (R260, R272 to R278): the call numbers, the register convention, what
memory the host may write (R274, D22, log 26), what the described calls answer (R276, log 27), and the return. -/

namespace Sys2Proof.Machine

/-- The system calls that have a name: the thirty of Table 8.5 in its order (R275) and the six of Table 8.6
(R276). Parameters of the six: SYS_NATCMD and SYS_VISCMD have the address of a command string in R1; SYS_FILES the
address of a pointer variable in R1; SYS_LIBOPEN the address of a file name in R1 and a mode in R2; SYS_LIBCALL a
handle in R1, the address of a name in R2 and the address of a structure in R3; those of SYS_LIBCLOSE are lost. -/
inductive SystemCall where
  | exit | sigaction | uname | time | getenv | sysconf | opendir | readdir | closedir | chdir
  | getcwd | open | creat | mkdir | rmdir | rename | stat | fstat | chmod | access
  | fchmod | utime | ftruncate | fpathconf | read | write | fsync | lseek | close | pathconf
  | libopen | libclose | libcall | natcmd | viscmd | files
  deriving DecidableEq, Repr

/-- The number of a system call, which goes in R0 (R273, R275, R276). -/
def SystemCall.number : SystemCall → Word
  | .exit => 0x00#32 | .sigaction => 0x01#32 | .uname => 0x02#32 | .time => 0x03#32 | .getenv => 0x04#32
  | .sysconf => 0x05#32 | .opendir => 0x06#32 | .readdir => 0x07#32 | .closedir => 0x08#32 | .chdir => 0x09#32
  | .getcwd => 0x0A#32 | .open => 0x0B#32 | .creat => 0x0C#32 | .mkdir => 0x0D#32 | .rmdir => 0x0E#32
  | .rename => 0x0F#32 | .stat => 0x10#32 | .fstat => 0x11#32 | .chmod => 0x12#32 | .access => 0x13#32
  | .fchmod => 0x14#32 | .utime => 0x15#32 | .ftruncate => 0x16#32 | .fpathconf => 0x17#32 | .read => 0x18#32
  | .write => 0x19#32 | .fsync => 0x1A#32 | .lseek => 0x1B#32 | .close => 0x1C#32 | .pathconf => 0x1D#32
  | .libopen => 0x80#32 | .libclose => 0x81#32 | .libcall => 0x82#32 | .natcmd => 0x83#32 | .viscmd => 0x84#32
  | .files => 0x85#32

/-- STDIN, STDOUT and STDERR, which "are always accessible, i.e they can never be closed" (R40, R277). -/
def standardFds : List Nat := [0, 1, 2]

/-- A list of descriptors with the standard ones always in it (R277). -/
def withStandardFds (fds : List Nat) : List Nat := standardFds ++ fds.filter fun d => !standardFds.contains d

/-- EACCES, the one error code that SYS_FILES and SYS_LIBCALL return (R276); its value is the oracle's (log 27). -/
def SyscallOracle.eacces (o : SyscallOracle) : Word := BitVec.ofNat 32 (o.eaccesLessOne.val + 1)

/-- The number that bytes denote, most significant first (R51). -/
def bigEndian (bytes : List Byte) : Nat := bytes.foldl (fun acc b => acc * 256 + b.toNat) 0

/-- How many bytes a TLV record has in memory: its type field, its length field and its value (R276 d). -/
def TlvRecord.size (t : TlvRecord) (o : SyscallOracle) : Nat := o.tlvTypeBytes + o.tlvLengthBytes + t.value.length

namespace State

/-- The call number: R0 (R273). -/
def callNumber (s : State) : Word := s.readReg (.r 0)

/-- The `n`-th parameter of a system call, from 1 on: the register of that number (R273). -/
def callParameter (s : State) (n : Fin 12) : Word := s.readReg (.r n)

/-- The call in progress is this one. -/
def calls (s : State) (c : SystemCall) : Bool := decide (s.callNumber = c.number)

/-- SYS_LIBCALL's structure at R3, two 32-bit big-endian fields: `nr`, the number of parameters, and `params`, the
address of the array of records (R276 d). -/
def libcallBlock (s : State) : Word × Word := (s.load32 (s.callParameter 3), s.load32 (s.callParameter 3 + 4#32))

/-- The TLV record at an address: type, length and value one after the other, big-endian, all of it valid memory, of a
known type and with a length that the type may have (R276 d, log 27). -/
def tlvAt (s : State) (o : SyscallOracle) (a : Word) : Option TlvRecord :=
  let lengthAt := a + BitVec.ofNat 32 o.tlvTypeBytes
  let valueAt := lengthAt + BitVec.ofNat 32 o.tlvLengthBytes
  let length := bigEndian (s.bytesFrom lengthAt o.tlvLengthBytes)
  match o.tlvKind (bigEndian (s.bytesFrom a o.tlvTypeBytes)) with
  | none => none
  | some kind =>
    if kind.lengths.contains length &&
        everyByte s.valid a (o.tlvTypeBytes + o.tlvLengthBytes + length) then
      some { kind := kind, value := s.bytesFrom valueAt length }
    else none

/-- The records from an address on, at most `count`: "Array of data in TLV format", each right behind the one before,
up to one that is not as R276 (d) describes. -/
def tlvRecords (s : State) (o : SyscallOracle) (a : Word) : (count : Nat) → List TlvRecord
  | 0 => []
  | count + 1 =>
    match s.tlvAt o a with
    | none => []
    | some t => t :: tlvRecords s o (a + BitVec.ofNat 32 (t.size o)) count

/-- SYS_LIBCALL's parameters: the records that `params` leads to (R276 d). -/
def libcallRecords (s : State) (o : SyscallOracle) : List TlvRecord :=
  s.tlvRecords o s.libcallBlock.2 s.libcallBlock.1.toNat

/-- SYS_LIBCALL is given what R276 (d) describes: the handle of an opened library, a name, a structure in valid
memory, and as many records as it says, `nr` being an `int`. -/
def libcallDescribed (s : State) (o : SyscallOracle) : Bool :=
  s.host.libs.contains (s.callParameter 1).toNat && s.isString (s.callParameter 2) &&
    everyByte s.valid (s.callParameter 3) 8 && !s.libcallBlock.1.msb &&
    decide ((s.libcallRecords o).length = s.libcallBlock.1.toNat)

/-- How many bytes SYS_LIBCALL's array of records has (log 26). -/
def libcallArraySize (s : State) (o : SyscallOracle) : Nat :=
  if s.libcallDescribed o then ((s.libcallRecords o).map fun t => t.size o).sum else o.pointerExtent s s.libcallBlock.2

/-- The pointers among SYS_LIBCALL's parameters: the values of its DATA_POINTER records (R276 d). -/
def libcallPointers (s : State) (o : SyscallOracle) : List Word :=
  ((s.libcallRecords o).filter fun t => decide (t.kind = .pointer)).map fun t => BitVec.ofNat 32 (bigEndian t.value)

/-- The regions that a call's parameters designate for the host to write, each an address and a number of bytes (R274,
D22, log 26): SYS_FILES the pointer variable at R1, and the place of the names that it shall lead to; SYS_NATCMD,
SYS_VISCMD and SYS_LIBOPEN, whose parameters are `const` strings and a mode, none; SYS_LIBCALL the name at R2, the
structure at R3, its array of records, and what the pointers among them lead to; any other call buffers whose
addresses stand in its parameters. -/
def designated (s : State) (o : SyscallOracle) : List (Word × Nat) :=
  if s.calls .files then (s.callParameter 1, 4) :: o.filesStorage s
  else if s.calls .natcmd || s.calls .viscmd || s.calls .libopen then []
  else if s.calls .libcall then
    (s.callParameter 2, s.stringSize s.validSize (s.callParameter 2)) :: (s.callParameter 3, 8) ::
      (s.libcallBlock.2, s.libcallArraySize o) :: (s.libcallPointers o).map fun p => (p, o.pointerExtent s p)
  else (o.buffers s).map fun b => (s.callParameter b.1.succ, b.2)

/-- The address lies in memory that the host supplied, which it may reuse "at a later SYSCALL" (R343). -/
def inHostMemory (s : State) (a : Word) : Bool :=
  s.regions.any fun g => decide (g.segment = .host) && g.covers a

/-- What the host may write while it serves a call, in the state after the push: writable memory outside the return
slot that the call designates or the host supplied (R274, R343, log 26). -/
def hostMayWrite (s : State) (o : SyscallOracle) (a : Word) : Bool :=
  s.writable a && !inRange s.sp 4 a && (s.inHostMemory a || (s.designated o).any fun d => inRange d.1 d.2 a)

/-- SYS_FILES is given a pointer variable that the host may write (R276 c). -/
def filesDescribed (s : State) (o : SyscallOracle) : Bool := everyByte (s.hostMayWrite o) (s.callParameter 1) 4

/-- The uid of the process permits the call (R276, log 27). -/
def permitted (s : State) (o : SyscallOracle) : Bool := o.uidPermits s.callNumber s.host.uid s.draws

/-- The descriptors open after a call: as the oracle says, the standard ones always (R277). -/
def fdsAfter (reply : SyscallReply) : List Nat := withStandardFds reply.host.openFds

/-- Memory as a SYS_FILES that succeeds leaves it: what the host writes, and the pointer in the variable at R1
(R276 c, C24). -/
def filesMem (s : State) (o : SyscallOracle) : Memory :=
  Memory.storeCells s.mem (s.hostMayWrite o)
    ((o.reply s).writes ++ Memory.cellsOf (s.callParameter 1) (o.reply s).files)

/-- SYS_FILES succeeds: the uid permits it, and the pointer leads to an array of names, one for each open descriptor
(R276 c, log 27). -/
def filesSucceeds (s : State) (o : SyscallOracle) : Bool :=
  s.permitted o && (s.withMem (s.filesMem o)).stringArray (o.reply s).files (fdsAfter (o.reply s)).length

/-- R0 after a call that returns (R273, R276, 90_conflicts.md C24, C25): 0 or EACCES for SYS_FILES and SYS_LIBCALL with
parameters as R276 describes, else the oracle's value, which for SYS_LIBOPEN is the handle. -/
def callResult (s : State) (o : SyscallOracle) : Word :=
  if s.calls .files && s.filesDescribed o then (if s.filesSucceeds o then 0#32 else o.eacces)
  else if s.calls .libcall && s.libcallDescribed o then (if s.permitted o then 0#32 else o.eacces)
  else (o.reply s).r[0]

/-- The registers R0 to R11 after a call that returns, under SYSCALL_PRESERVES (R260). -/
def callRegisters (s : State) (o : SyscallOracle) (preserves : Config.SyscallPreserves := Params.syscallPreserves) :
    Vector Word 12 :=
  (Vector.ofFn fun n => if preserves.r n then s.r[n] else (o.reply s).r[n]).set 0 (s.callResult o)

/-- The registers FP0 to FP15 after a call that returns, under SYSCALL_PRESERVES (R260). -/
def callFloats (s : State) (o : SyscallOracle) (preserves : Config.SyscallPreserves := Params.syscallPreserves) :
    Vector Double 16 :=
  Vector.ofFn fun n => if preserves.f n then s.f[n] else (o.reply s).f[n]

/-- Memory after a call that returns: what the host writes where it may (R274), and the pointer of a SYS_FILES that
succeeds. -/
def callMem (s : State) (o : SyscallOracle) : Memory :=
  if s.calls .files && s.filesDescribed o && s.filesSucceeds o then s.filesMem o
  else Memory.storeCells s.mem (s.hostMayWrite o) (o.reply s).writes

/-- The host-side state after a call: as the oracle says, but the standard descriptors stay open (R277); a library that
SYS_LIBOPEN opened is among the libraries under the handle in R0 (R276 e, C25); and the vectors stay unless HANDLERS
is modelled and the call is SYS_SIGACTION, "the only visible means" to set them (R275, R312, log 7). -/
def hostAfter (s : State) (reply : SyscallReply) (handlers : Handlers := Params.handlers) : HostState :=
  { reply.host with
    openFds := fdsAfter reply
    libs := if s.calls .libopen && reply.opened then reply.r[0].toNat :: reply.host.libs else reply.host.libs
    vectors :=
      match handlers with
      | .terminal => s.host.vectors
      | .modelled _ => if s.calls .sigaction then reply.host.vectors else s.host.vectors }

/-- The host serves a call that returns, in the state after the push: registers, host-side state and the bytes it may
write as above; SP, FP, CCR, PC, the map and every other byte as they were (R260, R273, R274, log 9). -/
def hostService (s : State) (p : Parameters := Params.defaults) : State :=
  { s with
    r := s.callRegisters p.syscallOracle p.syscallPreserves
    f := s.callFloats p.syscallOracle p.syscallPreserves
    mem := s.callMem p.syscallOracle
    host := s.hostAfter (p.syscallOracle.reply s) p.handlers
    draws := s.draws + 1 }

/-- The host returns from a system call as RETS #0 would: it pops the return address (R260, R314). The slot is the
one the instruction has just written, so the pop cannot fault (R320). -/
def hostReturn (s : State) : State := (s.withPc s.top).drop 4

end State

end Sys2Proof.Machine
end

