-- ==== Sys2Proof/Machine/ImmSystem.lean ====
section
/-! DEFINITION. The immediate loads, NOP and SYSCALL (R260 to R264). -/

namespace Sys2Proof.Machine

/-- LIMS (R262): the 5-bit constant, sign extended. -/
def execLims (imm : Int) (ry : IReg) (s : State) (p : Parameters := Params.defaults) : Answer :=
  .next ((s.advance 2).writeReg ry (BitVec.ofInt 32 imm) p.ccrLayout)

/-- ORHI (R263): ors the constant into the upper half; no flag. -/
def execOrhi (imm : BitVec 16) (ry : IReg) (s : State) (p : Parameters := Params.defaults) : Answer :=
  let s1 := s.advance 4
  .next (s1.writeReg ry (s1.readReg ry p.ccrLayout ||| (imm ++ 0#16)) p.ccrLayout)

/-- LILO (R264): the constant, zero extended. -/
def execLilo (imm : BitVec 16) (ry : IReg) (s : State) (p : Parameters := Params.defaults) : Answer :=
  .next ((s.advance 4).writeReg ry (imm.setWidth 32) p.ccrLayout)

/-- NOP (R261). -/
def execNop (s : State) : Answer := .next (s.advance 2)

/-- The end of a run by a call (R274, R278): the call's own push stands, nothing further executes, and the PC reported
is that of the SYSCALL (log 10). -/
def exitRun (s pushed : State) (status : Word) : State := (pushed.withPc s.pc).withRun (.exited status)

/-- The status with which a call ends the run, if it does: R1 for SYS_EXIT (R278), else as the oracle says (R274). -/
def exitStatus (pushed : State) (o : SyscallOracle) : Option Word :=
  if pushed.calls .exit then some (pushed.callParameter 1) else o.exits pushed

/-- SYSCALL (R260): pushes `A + 2`, then the host serves the call. SYS_EXIT ends the run; every other number is
served by the oracle, and the host returns as RETS #0 would. -/
def execSyscall (s : State) (p : Parameters := Params.defaults) : Answer :=
  let s1 := s.advance 2
  let pushed := s1.push s1.pc
  unlessFault s (s.pushFault p.dataAlignNatural)
    (match exitStatus pushed p.syscallOracle with
      | some status => exitRun s pushed status
      | none => (pushed.hostService p).hostReturn)
    p

end Sys2Proof.Machine
end

