-- ==== Sys2Proof/Machine/IntArith.lean ====
section
/-! DEFINITION. The integer arithmetic instructions (R160 to R175), all of two bytes. Both operands are read before
anything is written; the destination is written first and the flag line applied to what then stands in the CCR
(R31 c). None raises an exception. -/

namespace Sys2Proof.Machine

/-- `(u(a) + u(b) + cin) mod 2^32` (R161). -/
def sumWord (cin : Bool) (a b : Word) : Word := BitVec.ofNat 32 (sumU a b cin)

/-- `(u(b) - u(a) - bin) mod 2^32` (R161). -/
def diffWord (bin : Bool) (a b : Word) : Word := BitVec.ofInt 32 (diffU a b bin)

/-- What the instructions with a source and a destination register share (R160, R190): the result `op a b` goes to
`ry`, then the flag line `line a b r` is applied. -/
def registerOp (rx ry : IReg) (op : Word → Word → Word) (line : Word → Word → Word → Flags → Flags) (s : State)
    (p : Parameters := Params.defaults) : State :=
  let s1 := s.advance 2
  let a := s1.readReg rx p.ccrLayout
  let b := s1.readReg ry p.ccrLayout
  (s1.writeReg ry (op a b) p.ccrLayout).mapFlags (line a b (op a b))

/-- The exact signed product (R170). -/
def productS (a b : Word) : Int := a.toInt * b.toInt

/-- The exact unsigned product (R171). -/
def productU (a b : Word) : Nat := a.toNat * b.toNat

/-- What DIVS, DIVU and MOD share: a divisor of 0 leaves `ry` alone, sets OV and leaves N and Z free (R173). -/
def divideOp (rx ry : IReg) (op : Word → Word → Word) (s : State)
    (p : Parameters := Params.defaults) : State :=
  if (s.advance 2).readReg rx p.ccrLayout = 0#32 then ((s.advance 2).mapFlags (divideByZeroFlags s.draws)).draw
  else registerOp rx ry op (fun _ _ r => divideFlags r) s p

/-- ADD (R162). -/
def execAdd (rx ry : IReg) (s : State) (p : Parameters := Params.defaults) : Answer :=
  .next (registerOp rx ry (sumWord false) addFlags s p)

/-- ADDC (R163): reads C before anything is written. -/
def execAddc (rx ry : IReg) (s : State) (p : Parameters := Params.defaults) : Answer :=
  .next (registerOp rx ry (sumWord s.flags.c) (addcFlags p.literalFlags s.flags.c) s p)

/-- CMP (R164): writes no register. -/
def execCmp (rx ry : IReg) (s : State) (p : Parameters := Params.defaults) : Answer :=
  let s1 := s.advance 2
  let a := s1.readReg rx p.ccrLayout
  let b := s1.readReg ry p.ccrLayout
  .next (s1.mapFlags (cmpFlags p.cmpWritesCf p.literalFlags a b (diffWord false a b)))

/-- SUB (R165). -/
def execSub (rx ry : IReg) (s : State) (p : Parameters := Params.defaults) : Answer :=
  .next (registerOp rx ry (diffWord false) (subFlags p.literalFlags false) s p)

/-- SUBB (R166): reads C before anything is written. -/
def execSubb (rx ry : IReg) (s : State) (p : Parameters := Params.defaults) : Answer :=
  .next (registerOp rx ry (diffWord s.flags.c) (subFlags p.literalFlags s.flags.c) s p)

/-- DIVS (R167). -/
def execDivs (rx ry : IReg) (s : State) (p : Parameters := Params.defaults) : Answer :=
  .next (divideOp rx ry (fun a b => BitVec.ofInt 32 (p.divNumerics.sdiv b.toInt a.toInt)) s p)

/-- DIVU (R168). -/
def execDivu (rx ry : IReg) (s : State) (p : Parameters := Params.defaults) : Answer :=
  .next (divideOp rx ry (fun a b => BitVec.ofNat 32 (b.toNat / a.toNat)) s p)

/-- MOD (R169). -/
def execMod (rx ry : IReg) (s : State) (p : Parameters := Params.defaults) : Answer :=
  .next (divideOp rx ry (fun a b => BitVec.ofInt 32 (p.divNumerics.smod b.toInt a.toInt)) s p)

/-- MULS (R170). -/
def execMuls (rx ry : IReg) (s : State) (p : Parameters := Params.defaults) : Answer :=
  .next (registerOp rx ry (fun a b => BitVec.ofInt 32 (productS a b))
    (fun a b r => multiplyFlags (fitsSigned (productS a b)) r) s p)

/-- MULU (R171). -/
def execMulu (rx ry : IReg) (s : State) (p : Parameters := Params.defaults) : Answer :=
  .next (registerOp rx ry (fun a b => BitVec.ofNat 32 (productU a b))
    (fun a b r => multiplyFlags (decide (productU a b < 4294967296)) r) s p)

/-- NEG (R172): the old value of `ry` plays no part. -/
def execNeg (rx ry : IReg) (s : State) (p : Parameters := Params.defaults) : Answer :=
  .next (registerOp rx ry (fun a _ => diffWord false a 0#32) (fun a _ r => negFlags p.literalFlags a r) s p)

end Sys2Proof.Machine
end

