-- ==== Sys2Proof/Machine/LoadStore.lean ====
section
/-! DEFINITION. The integer loads and stores (R240 to R250), all of four bytes: the effective address, the checks,
then the access; a load writes its register last. A faulting access changes nothing (R315). -/

namespace Sys2Proof.Machine

/-- What the loads share: `n` bytes checked at the effective address, then the value that `value` reads there goes
to `ry` (R250). -/
def loadOp (n : Nat) (value : State → Word → Word) (disp : Int) (rx ry : IReg) (s : State)
    (p : Parameters := Params.defaults) : Answer :=
  let s1 := s.advance 4
  let ea := s1.ea rx disp p.ccrLayout
  unlessFault s (s.readFault n ea p.dataAlignNatural) (s1.writeReg ry (value s1 ea) p.ccrLayout) p

/-- What the stores share: `n` bytes checked at the effective address, then `rx` stored as `put` says (R250). -/
def storeOp (n : Nat) (put : Memory → Word → Word → Memory) (rx : IReg) (disp : Int) (ry : IReg) (s : State)
    (p : Parameters := Params.defaults) : Answer :=
  let s1 := s.advance 4
  let ea := s1.ea ry disp p.ccrLayout
  unlessFault s (s.writeFault n ea p.dataAlignNatural) (s1.withMem (put s1.mem ea (s1.readReg rx p.ccrLayout))) p

/-- LBZX (R241). -/
def execLbzx (disp : Int) (rx ry : IReg) (s : State) (p : Parameters := Params.defaults) : Answer :=
  loadOp 1 (fun t a => (t.load8 a).setWidth 32) disp rx ry s p

/-- LBSX (R242). -/
def execLbsx (disp : Int) (rx ry : IReg) (s : State) (p : Parameters := Params.defaults) : Answer :=
  loadOp 1 (fun t a => (t.load8 a).signExtend 32) disp rx ry s p

/-- LLSX (R243). -/
def execLlsx (disp : Int) (rx ry : IReg) (s : State) (p : Parameters := Params.defaults) : Answer :=
  loadOp 4 State.load32 disp rx ry s p

/-- LLZX (R244). -/
def execLlzx (disp : Int) (rx ry : IReg) (s : State) (p : Parameters := Params.defaults) : Answer :=
  loadOp 4 State.load32 disp rx ry s p

/-- LWSX (R245). -/
def execLwsx (disp : Int) (rx ry : IReg) (s : State) (p : Parameters := Params.defaults) : Answer :=
  loadOp 2 (fun t a => (t.load16 a).signExtend 32) disp rx ry s p

/-- LWZX (R246). -/
def execLwzx (disp : Int) (rx ry : IReg) (s : State) (p : Parameters := Params.defaults) : Answer :=
  loadOp 2 (fun t a => (t.load16 a).setWidth 32) disp rx ry s p

/-- STB (R247): the low 8 bits. -/
def execStb (rx : IReg) (disp : Int) (ry : IReg) (s : State) (p : Parameters := Params.defaults) : Answer :=
  storeOp 1 (fun m a v => Memory.store8 m a (v.setWidth 8)) rx disp ry s p

/-- STL (R248). -/
def execStl (rx : IReg) (disp : Int) (ry : IReg) (s : State) (p : Parameters := Params.defaults) : Answer :=
  storeOp 4 Memory.store32 rx disp ry s p

/-- STW (R249): the low 16 bits. -/
def execStw (rx : IReg) (disp : Int) (ry : IReg) (s : State) (p : Parameters := Params.defaults) : Answer :=
  storeOp 2 (fun m a v => Memory.store16 m a (v.setWidth 16)) rx disp ry s p

end Sys2Proof.Machine
end

