-- ==== Sys2Proof/Machine/Logic.lean ====
section
/-! DEFINITION. The logic, shift and register move instructions (R190 to R199), all of two bytes, over the
shared operation of IntArith.lean. None accesses memory, none raises an exception. -/

namespace Sys2Proof.Machine

/-- The shift count: `u(x[rx]) mod 32` (R199). -/
def shiftCount (a : Word) : Nat := a.toNat % 32

/-- AND (R191). -/
def execAnd (rx ry : IReg) (s : State) (p : Parameters := Params.defaults) : Answer :=
  .next (registerOp rx ry (fun a b => a &&& b) (fun _ _ r => logicFlags r) s p)

/-- ASR (R192): `floor(s(b) / 2^n)`. -/
def execAsr (rx ry : IReg) (s : State) (p : Parameters := Params.defaults) : Answer :=
  .next (registerOp rx ry (fun a b => b.sshiftRight (shiftCount a)) (fun _ b r => asrFlags b r) s p)

/-- LSL (R193). -/
def execLsl (rx ry : IReg) (s : State) (p : Parameters := Params.defaults) : Answer :=
  .next (registerOp rx ry (fun a b => b <<< shiftCount a) (fun _ b r => lslFlags b r) s p)

/-- LSR (R194). -/
def execLsr (rx ry : IReg) (s : State) (p : Parameters := Params.defaults) : Answer :=
  .next (registerOp rx ry (fun a b => b >>> shiftCount a) (fun _ b r => lsrFlags p.literalFlags b r) s p)

/-- MOVE (R195): no flag, unless the destination is the CCR (R30). -/
def execMove (rx ry : IReg) (s : State) (p : Parameters := Params.defaults) : Answer :=
  .next (registerOp rx ry (fun a _ => a) (fun _ _ _ fl => fl) s p)

/-- NOT (R196). -/
def execNot (rx ry : IReg) (s : State) (p : Parameters := Params.defaults) : Answer :=
  .next (registerOp rx ry (fun a _ => ~~~a) (fun _ _ r => logicFlags r) s p)

/-- OR (R197). -/
def execOr (rx ry : IReg) (s : State) (p : Parameters := Params.defaults) : Answer :=
  .next (registerOp rx ry (fun a b => a ||| b) (fun _ _ r => logicFlags r) s p)

/-- XOR (R198). -/
def execXor (rx ry : IReg) (s : State) (p : Parameters := Params.defaults) : Answer :=
  .next (registerOp rx ry (fun a b => a ^^^ b) (fun _ _ r => logicFlags r) s p)

end Sys2Proof.Machine
end

