-- ==== Sys2Proof/Machine/Subroutine.lean ====
section
/-! DEFINITION. The subroutine and stack instructions (R280 to R286). The steps stand in the order of the source's
Operation lines, which settles what SP, CCR and PC mean as operands (R286); a fault of the stack slot comes first
and changes nothing (R280). -/

namespace Sys2Proof.Machine

/-- BSRL (R281): pushes `A + 4` and branches. -/
def execBsrl (disp : Int) (s : State) (p : Parameters := Params.defaults) : Answer :=
  let s1 := s.advance 4
  unlessFault s (s.pushFault p.dataAlignNatural) ((s1.push s1.pc).withPc (s1.pc + BitVec.ofInt 32 disp)) p

/-- RETS (R282): pops the PC and releases `slots` further slots of 4 bytes. -/
def execRets (slots : Int) (s : State) (p : Parameters := Params.defaults) : Answer :=
  unlessFault s (s.popFault p.dataAlignNatural) ((s.drop (4 + 4 * slots)).withPc s.top) p

/-- CALL (R283): pushes `A + 2`, then reads the target, so that CALL (SP) goes to the decremented SP. -/
def execCall (rx : IReg) (s : State) (p : Parameters := Params.defaults) : Answer :=
  let s1 := s.advance 2
  let pushed := s1.push s1.pc
  unlessFault s (s.pushFault p.dataAlignNatural) (pushed.withPc (pushed.readReg rx p.ccrLayout)) p

/-- POPL (R284): the register is written first, so that POPL SP ends 4 above the loaded value. -/
def execPopl (rx : IReg) (s : State) (p : Parameters := Params.defaults) : Answer :=
  let s1 := s.advance 2
  unlessFault s (s.popFault p.dataAlignNatural) ((s1.writeReg rx s1.top p.ccrLayout).drop 4) p

/-- PUSHL (R285): SP is decremented first, so that PUSHL SP stores the decremented value. -/
def execPushl (rx : IReg) (s : State) (p : Parameters := Params.defaults) : Answer :=
  let s1 := s.advance 2
  unlessFault s (s.pushFault p.dataAlignNatural) (s1.push ((s1.withSp s1.pushSp).readReg rx p.ccrLayout)) p

end Sys2Proof.Machine
end

