-- ==== Sys2Proof/Machine/Dispatch.lean ====
section
/-! DEFINITION. The dispatch: one arm for each of the 75 instructions. -/

namespace Sys2Proof.Machine

def exec (i : Instr) (s : State) : Host.Outcome State Fault Refusal :=
  match i with
  | .beqs disp => Sys2Proof.Machine.execBeqs disp s
  | .bges disp => Sys2Proof.Machine.execBges disp s
  | .bgts disp => Sys2Proof.Machine.execBgts disp s
  | .bles disp => Sys2Proof.Machine.execBles disp s
  | .blts disp => Sys2Proof.Machine.execBlts disp s
  | .bnes disp => Sys2Proof.Machine.execBnes disp s
  | .bras disp => Sys2Proof.Machine.execBras disp s
  | .rets slots => Sys2Proof.Machine.execRets slots s
  | .bccs disp => Sys2Proof.Machine.execBccs disp s
  | .bcss disp => Sys2Proof.Machine.execBcss disp s
  | .bvcs disp => Sys2Proof.Machine.execBvcs disp s
  | .bvss disp => Sys2Proof.Machine.execBvss disp s
  | .bbss disp => Sys2Proof.Machine.execBbss disp s
  | .bass disp => Sys2Proof.Machine.execBass disp s
  | .bats disp => Sys2Proof.Machine.execBats disp s
  | .bbts disp => Sys2Proof.Machine.execBbts disp s
  | .beql disp => Sys2Proof.Machine.execBeql disp s
  | .bgel disp => Sys2Proof.Machine.execBgel disp s
  | .bgtl disp => Sys2Proof.Machine.execBgtl disp s
  | .blel disp => Sys2Proof.Machine.execBlel disp s
  | .bltl disp => Sys2Proof.Machine.execBltl disp s
  | .bnel disp => Sys2Proof.Machine.execBnel disp s
  | .bral disp => Sys2Proof.Machine.execBral disp s
  | .bsrl disp => Sys2Proof.Machine.execBsrl disp s
  | .bbsl disp => Sys2Proof.Machine.execBbsl disp s
  | .basl disp => Sys2Proof.Machine.execBasl disp s
  | .batl disp => Sys2Proof.Machine.execBatl disp s
  | .bbtl disp => Sys2Proof.Machine.execBbtl disp s
  | .add rx ry => Sys2Proof.Machine.execAdd rx ry s
  | .addc rx ry => Sys2Proof.Machine.execAddc rx ry s
  | .and rx ry => Sys2Proof.Machine.execAnd rx ry s
  | .asr rx ry => Sys2Proof.Machine.execAsr rx ry s
  | .lsl rx ry => Sys2Proof.Machine.execLsl rx ry s
  | .lsr rx ry => Sys2Proof.Machine.execLsr rx ry s
  | .cmp rx ry => Sys2Proof.Machine.execCmp rx ry s
  | .sub rx ry => Sys2Proof.Machine.execSub rx ry s
  | .subb rx ry => Sys2Proof.Machine.execSubb rx ry s
  | .divs rx ry => Sys2Proof.Machine.execDivs rx ry s
  | .divu rx ry => Sys2Proof.Machine.execDivu rx ry s
  | .mod rx ry => Sys2Proof.Machine.execMod rx ry s
  | .move rx ry => Sys2Proof.Machine.execMove rx ry s
  | .muls rx ry => Sys2Proof.Machine.execMuls rx ry s
  | .mulu rx ry => Sys2Proof.Machine.execMulu rx ry s
  | .neg rx ry => Sys2Proof.Machine.execNeg rx ry s
  | .not rx ry => Sys2Proof.Machine.execNot rx ry s
  | .or rx ry => Sys2Proof.Machine.execOr rx ry s
  | .xor rx ry => Sys2Proof.Machine.execXor rx ry s
  | .fadd fx fy => Sys2Proof.Machine.execFadd fx fy s
  | .fcmp fx fy => Sys2Proof.Machine.execFcmp fx fy s
  | .fdiv fx fy => Sys2Proof.Machine.execFdiv fx fy s
  | .fmove fx fy => Sys2Proof.Machine.execFmove fx fy s
  | .fmul fx fy => Sys2Proof.Machine.execFmul fx fy s
  | .fneg fx fy => Sys2Proof.Machine.execFneg fx fy s
  | .fsub fx fy => Sys2Proof.Machine.execFsub fx fy s
  | .fldd disp rx fy => Sys2Proof.Machine.execFldd disp rx fy s
  | .flds disp rx fy => Sys2Proof.Machine.execFlds disp rx fy s
  | .lbzx disp rx ry => Sys2Proof.Machine.execLbzx disp rx ry s
  | .lbsx disp rx ry => Sys2Proof.Machine.execLbsx disp rx ry s
  | .llsx disp rx ry => Sys2Proof.Machine.execLlsx disp rx ry s
  | .llzx disp rx ry => Sys2Proof.Machine.execLlzx disp rx ry s
  | .lwsx disp rx ry => Sys2Proof.Machine.execLwsx disp rx ry s
  | .lwzx disp rx ry => Sys2Proof.Machine.execLwzx disp rx ry s
  | .fstd fx disp ry => Sys2Proof.Machine.execFstd fx disp ry s
  | .fsts fx disp ry => Sys2Proof.Machine.execFsts fx disp ry s
  | .stb rx disp ry => Sys2Proof.Machine.execStb rx disp ry s
  | .stl rx disp ry => Sys2Proof.Machine.execStl rx disp ry s
  | .stw rx disp ry => Sys2Proof.Machine.execStw rx disp ry s
  | .syscall => Sys2Proof.Machine.execSyscall s
  | .nop => Sys2Proof.Machine.execNop s
  | .lims imm ry => Sys2Proof.Machine.execLims imm ry s
  | .orhi imm ry => Sys2Proof.Machine.execOrhi imm ry s
  | .lilo imm ry => Sys2Proof.Machine.execLilo imm ry s
  | .call rx => Sys2Proof.Machine.execCall rx s
  | .popl rx => Sys2Proof.Machine.execPopl rx s
  | .pushl rx => Sys2Proof.Machine.execPushl rx s

end Sys2Proof.Machine
end

