-- ==== Sys2Proof/Machine/Fetch.lean ====
section
/-! DEFINITION. Fetching and decoding the instruction at the PC, with the exceptions of a fetch in the order of
R320, and placing an instruction's bytes where a fetch finds them. -/

namespace Sys2Proof.Machine.State

/-- The instruction at the PC, or the exception its fetch raises: an odd address; the first halfword not valid; an
opcode or an unused bit that is illegal, from the first halfword alone; the second halfword, of a 32-bit form only,
not valid (R53, R61, R96, R303, R320). Where SPECIAL_AS_OPERAND is refused, the IllegalInstruction of a refused operand
comes last, behind InvalidMemoryAccess of the second halfword: R31 says only "refuse", and R320 gives it no place (DESIGN
CHOICE, log 14). -/
def fetch (s : State) (p : Parameters := Params.defaults) : Except Exception Instr :=
  if s.pc.getLsbD 0 then .error (.illegalBusAccess s.pc)
  else if !everyByte s.valid s.pc 2 then .error (.invalidMemoryAccess s.pc)
  else
    match formOf (s.load16 s.pc) p.layout p.unusedBitsFault with
    | .error _ => .error (.illegalInstruction (s.load16 s.pc))
    | .ok fm =>
      if formBytes fm = 4 && !everyByte s.valid (s.pc + 2#32) 2 then .error (.invalidMemoryAccess (s.pc + 2#32))
      else
        match decodeHalves (s.load16 s.pc) (if formBytes fm = 4 then s.load16 (s.pc + 2#32) else 0#16) p.layout
          p.unusedBitsFault p.specialAsOperand with
        | .error _ => .error (.illegalInstruction (s.load16 s.pc))
        | .ok i => .ok i

/-- Puts the listed bytes at `a` and on. A byte that is not valid memory becomes a code byte of its own (log 21). -/
def placeCode (s : State) (a : Word) : List Byte → State
  | [] => s
  | b :: bs =>
    let s1 := s.withMem (Memory.store8 s.mem a b)
    let s2 := if s1.valid a then s1 else s1.withRegions (s1.regions ++ [{ segment := .code, base := a.toNat, size := 1 }])
    placeCode s2 (a + 1#32) bs

end Sys2Proof.Machine.State
end

