-- ==== Sys2Proof/Machine/Step.lean ====
section
/-! DEFINITION. One step: one instruction fetched, decoded and executed (R62, R68, R370), or the exception of its
fetch taken. A process whose run has ended has no step (R278, log 5). -/

namespace Sys2Proof.Machine

/-- One step of the machine. -/
def step (s : State) : Host.Outcome State Fault Refusal :=
  match s.run with
  | .running =>
    match s.fetch with
    | .error e => takeException e s
    | .ok i => exec i s
  | .exited _ => .fault .processEnded
  | .aborted _ _ => .fault .processEnded

/-- The state with a word of the opcode table stored where the next fetch reads, made valid memory there, and the
run going on (log 21). -/
def State.withFetchWord (s : State) (nbits w : Nat) : State :=
  (s.placeCode s.pc (tableBytes nbits w)).withRun .running

end Sys2Proof.Machine
end

