-- ==== Sys2Proof/Machine/FileFormat.lean ====
section
/-! DEFINITION. The executable and object file (R350 to R355): the packed 76-byte header, the records of the symbol,
relocation and debug tables, and the two string tables, all big-endian. The header decides a launch (Launch.lean); the tables are only
read, since they "have no effect on execution" (R5 d, log 23). -/

namespace Sys2Proof.Machine.FileFormat

/-- The `n` bytes of the file from `off` on, if it has them. -/
def bytesAt (file : List Byte) (off n : Nat) : Option (List Byte) :=
  if off + n ≤ file.length then some ((file.drop off).take n) else none

/-- A big-endian number of any width (R350). -/
def bigEndian (bytes : List Byte) : Nat := bytes.foldl (fun acc b => acc * 256 + b.toNat) 0

/-- A `uint8` of the file. -/
def uint8At (file : List Byte) (off : Nat) : Option Byte := (bytesAt file off 1).map fun b => BitVec.ofNat 8 (bigEndian b)

/-- A `uint16` of the file. -/
def uint16At (file : List Byte) (off : Nat) : Option Half := (bytesAt file off 2).map fun b => BitVec.ofNat 16 (bigEndian b)

/-- An `int32` or `uint32` of the file, as its bits. -/
def int32At (file : List Byte) (off : Nat) : Option Word := (bytesAt file off 4).map fun b => BitVec.ofNat 32 (bigEndian b)

/-- The file header `_vis_header_` (R350). The values of magic, version and revision are not given and are not
checked. -/
structure Header where
  /-- Five bytes. -/
  magic : List Byte
  reserved : Byte
  version : Byte
  revision : Byte
  codeoffset : Word
  codesize : Word
  dataoffset : Word
  datasize : Word
  bsssize : Word
  offsettosyms : Word
  nrsyms : Word
  offsettorelocs : Word
  nrrelocs : Word
  stroffset : Word
  strsize : Word
  debugoffset : Word
  debugentries : Word
  dbgstroffset : Word
  dbgstrsize : Word
  entry : Word
  base : Word
  deriving DecidableEq, Repr

/-- The header's length in bytes (R350). -/
def headerSize : Nat := 76

/-- Reads the header at the start of the file (R350). -/
def readHeader (file : List Byte) : Option Header := do
  let magic ← bytesAt file 0 5
  let reserved ← uint8At file 5
  let version ← uint8At file 6
  let revision ← uint8At file 7
  let codeoffset ← int32At file 8
  let codesize ← int32At file 12
  let dataoffset ← int32At file 16
  let datasize ← int32At file 20
  let bsssize ← int32At file 24
  let offsettosyms ← int32At file 28
  let nrsyms ← int32At file 32
  let offsettorelocs ← int32At file 36
  let nrrelocs ← int32At file 40
  let stroffset ← int32At file 44
  let strsize ← int32At file 48
  let debugoffset ← int32At file 52
  let debugentries ← int32At file 56
  let dbgstroffset ← int32At file 60
  let dbgstrsize ← int32At file 64
  let entry ← int32At file 68
  let base ← int32At file 72
  pure
    { magic, reserved, version, revision, codeoffset, codesize, dataoffset, datasize, bsssize, offsettosyms, nrsyms,
      offsettorelocs, nrrelocs, stroffset, strsize, debugoffset, debugentries, dbgstroffset, dbgstrsize, entry, base }

/-- The section a symbol lies in (R352). -/
inductive Section where
  | text
  | data
  | bss
  deriving DecidableEq, Repr

/-- `s_section`: 0 text, 1 data, 2 bss; no other value is given (R352). -/
def sectionOf (b : Byte) : Option Section :=
  match b.toNat with
  | 0 => some .text
  | 1 => some .data
  | 2 => some .bss
  | _ => none

/-- A symbol table entry, 18 bytes (R352). -/
structure Symbol where
  s_offset : Word
  s_size : Word
  s_section : Byte
  s_global : Byte
  s_data : Word
  s_length : Word
  deriving DecidableEq, Repr

/-- Reads the symbol at a file offset (R352). -/
def readSymbol (file : List Byte) (off : Nat) : Option Symbol := do
  let s_offset ← int32At file off
  let s_size ← int32At file (off + 4)
  let s_section ← uint8At file (off + 8)
  let s_global ← uint8At file (off + 9)
  let s_data ← int32At file (off + 10)
  let s_length ← int32At file (off + 14)
  pure { s_offset, s_size, s_section, s_global, s_data, s_length }

/-- What a relocation patches: the field of Form 1, that of Form 8, or a full address (R114, R353). -/
inductive RelocationType where
  | field9
  | field25
  | address32
  deriving DecidableEq, Repr

/-- `r_type`: 1 is 9bit, 2 is 25bit, 3 is 32bit (R353). -/
def relocationTypeOf (b : Byte) : Option RelocationType :=
  match b.toNat with
  | 1 => some .field9
  | 2 => some .field25
  | 3 => some .address32
  | _ => none

/-- A relocation entry, 12 bytes (R353). -/
structure Relocation where
  r_offset : Word
  r_type : Byte
  r_solved : Byte
  r_data : Word
  r_length : Half
  deriving DecidableEq, Repr

/-- Reads the relocation at a file offset (R353). -/
def readRelocation (file : List Byte) (off : Nat) : Option Relocation := do
  let r_offset ← int32At file off
  let r_type ← uint8At file (off + 4)
  let r_solved ← uint8At file (off + 5)
  let r_data ← int32At file (off + 6)
  let r_length ← uint16At file (off + 10)
  pure { r_offset, r_type, r_solved, r_data, r_length }

/-- A debug entry, 12 bytes (R354); the numbers of `n_type` are not given. -/
structure DebugEntry where
  n_strx : Word
  n_type : Byte
  n_other : Byte
  n_desc : Half
  n_value : Word
  deriving DecidableEq, Repr

/-- Reads the debug entry at a file offset (R354). -/
def readDebugEntry (file : List Byte) (off : Nat) : Option DebugEntry := do
  let n_strx ← int32At file off
  let n_type ← uint8At file (off + 4)
  let n_other ← uint8At file (off + 5)
  let n_desc ← uint16At file (off + 6)
  let n_value ← int32At file (off + 8)
  pure { n_strx, n_type, n_other, n_desc, n_value }

/-- Reads `count` records of `size` bytes each. -/
def readTable {α : Type} (record : List Byte → Nat → Option α) (size : Nat) (file : List Byte) (off : Nat) :
    Nat → Option (List α)
  | 0 => some []
  | count + 1 =>
    match record file off, readTable record size file (off + size) count with
    | some x, some xs => some (x :: xs)
    | _, _ => none

/-- The symbol table (R352); offset 0 means there is none (R350). -/
def symbols (file : List Byte) (h : Header) : Option (List Symbol) :=
  if h.offsettosyms = 0#32 then some [] else readTable readSymbol 18 file h.offsettosyms.toNat h.nrsyms.toNat

/-- The relocation information (R353). -/
def relocations (file : List Byte) (h : Header) : Option (List Relocation) :=
  readTable readRelocation 12 file h.offsettorelocs.toNat h.nrrelocs.toNat

/-- The debug information (R354); offset 0 means there is none (R350). -/
def debugEntries (file : List Byte) (h : Header) : Option (List DebugEntry) :=
  if h.debugoffset = 0#32 then some [] else readTable readDebugEntry 12 file h.debugoffset.toNat h.debugentries.toNat

/-- The string table: `strsize` bytes (R355). That `stroffset` counts from the start of the file is DEDUCED from the
other tables: its comment says only "offset into string table" (log 23). -/
def stringTable (file : List Byte) (h : Header) : Option (List Byte) := bytesAt file h.stroffset.toNat h.strsize.toNat

/-- The debug string table, "located by `dbgstroffset` and `dbgstrsize`" (R355); the same of its offset (log 23). -/
def debugStringTable (file : List Byte) (h : Header) : Option (List Byte) :=
  bytesAt file h.dbgstroffset.toNat h.dbgstrsize.toNat

/-- A string of a table, by index and length: "strings need no terminator in the table" (R355). That an index counts
bytes from the start of the table is DEDUCED (log 23). -/
def stringIn (table : List Byte) (index length : Nat) : Option (List Byte) := bytesAt table index length

/-- A string of the string table (R355). -/
def stringAt (file : List Byte) (h : Header) (index length : Nat) : Option (List Byte) :=
  (stringTable file h).bind fun table => stringIn table index length

/-- A string of the debug string table (R355). -/
def debugStringAt (file : List Byte) (h : Header) (index length : Nat) : Option (List Byte) :=
  (debugStringTable file h).bind fun table => stringIn table index length

/-- The name of a symbol: `s_data` and `s_length` (R352, R355). -/
def Symbol.name (file : List Byte) (h : Header) (s : Symbol) : Option (List Byte) :=
  stringAt file h s.s_data.toNat s.s_length.toNat

/-- The name of what a relocation refers to: `r_data` and `r_length` (R353, R355). -/
def Relocation.name (file : List Byte) (h : Header) (r : Relocation) : Option (List Byte) :=
  stringAt file h r.r_data.toNat r.r_length.toNat

/-- The debug string table from a debug entry's `n_strx` on (R354, R355). That `n_strx` is an index into the debug
string table is DEDUCED, its comment being "index into string table"; where the string ends is not stated, an entry
having no length (log 23). -/
def DebugEntry.text (file : List Byte) (h : Header) (d : DebugEntry) : Option (List Byte) :=
  (debugStringTable file h).bind fun table =>
    if d.n_strx.toNat ≤ table.length then some (table.drop d.n_strx.toNat) else none

end Sys2Proof.Machine.FileFormat
end

