-- ==== Sys2Proof/Machine/Launch.lean ====
section
/-! DEFINITION. The launch of a process from an executable file (R340 to R345, R39): the host's action that makes
the first state of a run. What the spec leaves to the host, or leaves unspecified, is an argument (log 17). -/

namespace Sys2Proof.Machine

/-- What a launch is given besides what the file says (R340, R343, R344). That the file is an executable and not an
object file is a given of the launch (R350). -/
structure LaunchInput where
  /-- The executable file. -/
  file : List Byte
  /-- DATA_BASE (R344). -/
  dataBase : Nat
  /-- BSS_BASE (R344). -/
  bssBase : Nat
  /-- Where the host places argv's pointer array and strings (R340 step 6). -/
  hostBase : Nat
  /-- What it places there. -/
  hostBytes : List Byte
  /-- The argument count (R343). -/
  argc : Word
  /-- The address of the pointer array (R343). -/
  argv : Word
  /-- What R0 to R11, SP, FP, the flags and FP0 to FP15 happen to hold: unspecified but for R0 and R1 (R39). -/
  r : Vector Word 12
  sp : Word
  fp : Word
  flags : Flags
  f : Vector Double 16
  /-- Descriptors open beside 0, 1 and 2. -/
  openFds : List Nat
  uid : Nat
  libs : List Nat
  deriving DecidableEq, Repr

/-- DATA_BASE at its default: right after the code (R344, D32). -/
def Params.dataBase (h : FileFormat.Header) : Nat := Config.codeBase.toNat + h.codesize.toNat

/-- BSS_BASE at its default: right after the data (R344, D32). -/
def Params.bssBase (h : FileFormat.Header) : Nat := Params.dataBase h + h.datasize.toNat

/-- The launch with DATA_BASE and BSS_BASE at their defaults (R344). -/
def LaunchInput.atDefaultBases (inp : LaunchInput) (h : FileFormat.Header) : LaunchInput :=
  { inp with dataBase := Params.dataBase h, bssBase := Params.bssBase h }

/-- Why the host does not start a process (log 17). -/
inductive LaunchError where
  /-- The file is shorter than its header. -/
  | noHeader
  /-- `base` is not 0x01000000: "a model refuses a file with another value" (R342). -/
  | wrongBase
  /-- A size is negative as the `int32` it is. -/
  | negativeField
  /-- The code or the data section, its offset read as the `int32` it is, does not lie in the file. -/
  | sectionOutsideFile
  /-- The segments break the order code, data, bss of R344, leave the address space, or meet the host's region. -/
  | badLayout
  /-- argv is not as R343 says: an array of `argc` pointers to null-terminated strings, all of it valid memory. -/
  | badArguments
  deriving DecidableEq, Repr

/-- Writes a list of bytes from an address on. -/
def storeList (m : Memory) (a : Nat) : List Byte → Memory
  | [] => m
  | b :: bs => storeList (Memory.store m a b) (a + 1) bs

/-- The `n` addresses from `a` on and the `m` from `b` on have none in common. -/
def apart (a n b m : Nat) : Bool :=
  decide (n = 0) || decide (m = 0) || decide (a + n ≤ b) || decide (b + m ≤ a)

/-- The order code, data, bss (R344), all below 2^32, and the host's region wherever the host chooses, in a gap between
the segments too, so long as it meets none of them (R340 step 6, R343). -/
def layoutOk (h : FileFormat.Header) (inp : LaunchInput) : Bool :=
  decide (Config.codeBase.toNat + h.codesize.toNat ≤ inp.dataBase) &&
    decide (inp.dataBase + h.datasize.toNat ≤ inp.bssBase) &&
    decide (inp.bssBase + h.bsssize.toNat ≤ 4294967296) &&
    decide (inp.hostBase + inp.hostBytes.length ≤ 4294967296) &&
    apart inp.hostBase inp.hostBytes.length Config.codeBase.toNat h.codesize.toNat &&
    apart inp.hostBase inp.hostBytes.length inp.dataBase h.datasize.toNat &&
    apart inp.hostBase inp.hostBytes.length inp.bssBase h.bsssize.toNat

/-- The launch memory, Valid and Writable: the segments of the image and the host's region, of which the code segment
alone is not writable (R65). -/
def launchRegions (h : FileFormat.Header) (inp : LaunchInput) : List Region :=
  [{ segment := .code, base := Config.codeBase.toNat, size := h.codesize.toNat },
    { segment := .data, base := inp.dataBase, size := h.datasize.toNat },
    { segment := .bss, base := inp.bssBase, size := h.bsssize.toNat },
    { segment := .host, base := inp.hostBase, size := inp.hostBytes.length }]

/-- LAUNCH_MEMORY at its default: "image plus host-supplied regions; code not writable" (R7, D19). -/
def Params.launchMemory : FileFormat.Header → LaunchInput → List Region := launchRegions

/-- The state at process entry (R39, R340 steps 2 to 9). The bss keeps no written byte: it "is not zero-filled"
(R345). -/
def entryState (h : FileFormat.Header) (code data : List Byte) (inp : LaunchInput)
    (launchMemory : FileFormat.Header → LaunchInput → List Region := Params.launchMemory) : State :=
  { r := (inp.r.set 0 inp.argc).set 1 inp.argv
    sp := inp.sp
    fp := inp.fp
    pc := Config.codeBase + h.entry
    flags := inp.flags
    f := inp.f
    mem := storeList (storeList (storeList [] Config.codeBase.toNat code) inp.dataBase data) inp.hostBase inp.hostBytes
    regions := launchMemory h inp
    host := { vectors := [], openFds := withStandardFds inp.openFds, uid := inp.uid, libs := inp.libs }
    run := .running
    draws := 0 }

/-- What R343 asks of the host's placement: R1 addresses an array of R0 pointers to null-terminated strings. "Whether a
null pointer ends the array is not stated": nothing is asked after the last one. -/
def argvPlaced (s : State) : Bool := s.stringsPlaced (s.readReg (.r 1)) (s.readReg (.r 0)).toNat

/-- The exception of the first fetch that an entry gives: `entry` "must be even and less than `codesize`, or the first
fetch faults" (R342). R350 makes `entry` an int32, and R342 does not speak of a negative one: it is compared as an unsigned
number, so that it is not less than `codesize` and ends the run like any other excluded entry, even where the host's
region lies there, below the code (DESIGN CHOICE, log 17). -/
def entryFault (h : FileFormat.Header) : Option Exception :=
  if h.entry.getLsbD 0 then some (.illegalBusAccess (Config.codeBase + h.entry))
  else if h.codesize.toNat ≤ h.entry.toNat then some (.invalidMemoryAccess (Config.codeBase + h.entry))
  else none

/-- A state about to fetch its first instruction. An entry that R342 excludes ends the run at once, as its first fetch
would, even where the data, the bss or the host's region lies at that address (log 17). -/
def enterAt (h : FileFormat.Header) (s : State) : State :=
  match entryFault h with
  | none => s
  | some e => s.withRun (.aborted e e.abortStatus)

/-- The bytes of a section. Of a section of size 0, which is absent, the offset is not looked at: what it may hold then
R350 and R351 do not state (DESIGN CHOICE, log 17). -/
def sectionBytes (file : List Byte) (offset size : Word) : Option (List Byte) :=
  if size = 0#32 then some []
  else if offset.msb then none
  else FileFormat.bytesAt file offset.toNat size.toNat

/-- Starts a process (R340). What it refuses is in LaunchError (log 17). -/
def launch (inp : LaunchInput) (launchMemory : FileFormat.Header → LaunchInput → List Region := Params.launchMemory) :
    Except LaunchError State :=
  match FileFormat.readHeader inp.file with
  | none => .error .noHeader
  | some h =>
    if h.base ≠ Config.codeBase then .error .wrongBase
    else if h.codesize.msb || h.datasize.msb || h.bsssize.msb then .error .negativeField
    else
      match sectionBytes inp.file h.codeoffset h.codesize, sectionBytes inp.file h.dataoffset h.datasize with
      | some code, some data =>
        let s := entryState h code data inp launchMemory
        if !layoutOk h inp then .error .badLayout
        else if !argvPlaced s then .error .badArguments
        else .ok (enterAt h s)
      | _, _ => .error .sectionOutsideFile

end Sys2Proof.Machine
end

