-- ==== Sys2Proof/Machine/Under.lean ====
section
/-! DEFINITION. The machine with the open parameters of R7 as an argument: the dispatch and the step of Dispatch.lean
and Step.lean, whose types the host fixes, under any parameters. At the defaults the two are the same
(Laws/Under.lean). -/

namespace Sys2Proof.Machine

/-- `exec` under the given parameters; an arm without them depends on none. -/
def execUnder (p : Parameters) (i : Instr) (s : State) : Answer :=
  match i with
  | .beqs disp => execBeqs disp s
  | .bges disp => execBges disp s
  | .bgts disp => execBgts disp s
  | .bles disp => execBles disp s
  | .blts disp => execBlts disp s
  | .bnes disp => execBnes disp s
  | .bras disp => execBras disp s
  | .rets slots => execRets slots s p
  | .bccs disp => execBccs disp s
  | .bcss disp => execBcss disp s
  | .bvcs disp => execBvcs disp s
  | .bvss disp => execBvss disp s
  | .bbss disp => execBbss disp s p
  | .bass disp => execBass disp s p
  | .bats disp => execBats disp s p
  | .bbts disp => execBbts disp s p
  | .beql disp => execBeql disp s
  | .bgel disp => execBgel disp s
  | .bgtl disp => execBgtl disp s
  | .blel disp => execBlel disp s
  | .bltl disp => execBltl disp s
  | .bnel disp => execBnel disp s
  | .bral disp => execBral disp s
  | .bsrl disp => execBsrl disp s p
  | .bbsl disp => execBbsl disp s p
  | .basl disp => execBasl disp s p
  | .batl disp => execBatl disp s p
  | .bbtl disp => execBbtl disp s p
  | .add rx ry => execAdd rx ry s p
  | .addc rx ry => execAddc rx ry s p
  | .and rx ry => execAnd rx ry s p
  | .asr rx ry => execAsr rx ry s p
  | .lsl rx ry => execLsl rx ry s p
  | .lsr rx ry => execLsr rx ry s p
  | .cmp rx ry => execCmp rx ry s p
  | .sub rx ry => execSub rx ry s p
  | .subb rx ry => execSubb rx ry s p
  | .divs rx ry => execDivs rx ry s p
  | .divu rx ry => execDivu rx ry s p
  | .mod rx ry => execMod rx ry s p
  | .move rx ry => execMove rx ry s p
  | .muls rx ry => execMuls rx ry s p
  | .mulu rx ry => execMulu rx ry s p
  | .neg rx ry => execNeg rx ry s p
  | .not rx ry => execNot rx ry s p
  | .or rx ry => execOr rx ry s p
  | .xor rx ry => execXor rx ry s p
  | .fadd fx fy => execFadd fx fy s p
  | .fcmp fx fy => execFcmp fx fy s p
  | .fdiv fx fy => execFdiv fx fy s p
  | .fmove fx fy => execFmove fx fy s
  | .fmul fx fy => execFmul fx fy s p
  | .fneg fx fy => execFneg fx fy s p
  | .fsub fx fy => execFsub fx fy s p
  | .fldd disp rx fy => execFldd disp rx fy s p
  | .flds disp rx fy => execFlds disp rx fy s p
  | .lbzx disp rx ry => execLbzx disp rx ry s p
  | .lbsx disp rx ry => execLbsx disp rx ry s p
  | .llsx disp rx ry => execLlsx disp rx ry s p
  | .llzx disp rx ry => execLlzx disp rx ry s p
  | .lwsx disp rx ry => execLwsx disp rx ry s p
  | .lwzx disp rx ry => execLwzx disp rx ry s p
  | .fstd fx disp ry => execFstd fx disp ry s p
  | .fsts fx disp ry => execFsts fx disp ry s p
  | .stb rx disp ry => execStb rx disp ry s p
  | .stl rx disp ry => execStl rx disp ry s p
  | .stw rx disp ry => execStw rx disp ry s p
  | .syscall => execSyscall s p
  | .nop => execNop s
  | .lims imm ry => execLims imm ry s p
  | .orhi imm ry => execOrhi imm ry s p
  | .lilo imm ry => execLilo imm ry s p
  | .call rx => execCall rx s p
  | .popl rx => execPopl rx s p
  | .pushl rx => execPushl rx s p

/-- `step` under the given parameters. -/
def stepUnder (p : Parameters) (s : State) : Answer :=
  match s.run with
  | .running =>
    match s.fetch p with
    | .error e => takeException e s p
    | .ok i => execUnder p i s
  | .exited _ => .fault .processEnded
  | .aborted _ _ => .fault .processEnded

end Sys2Proof.Machine
end

