-- ==== Sys2Proof/Safety.lean ====
section
/-! DEFINITION. What claims speak of: the invariant of the machine, safe runs, the effect of an instruction on the
integer registers written out from R31 as record updates, independently of the accessors of Operands.lean, and the
numbers that floating-point patterns denote, read off their fields independently of IeeeFormat.lean. -/

namespace Sys2Proof.Machine

/-- The invariant: memory in its canonical form, and the standard descriptors open (R40, R277). -/
def StateInv (s : State) : Prop := Memory.wf s.mem ∧ ∀ d ∈ standardFds, d ∈ s.host.openFds

/-- The run has ended in an abort (R278 b). -/
def isAborted (s : State) : Bool :=
  match s.run with
  | .aborted _ _ => true
  | _ => false

/-- A safe run of up to `k` steps: no state on the way is aborted. A run that exits is safe (R278 a). -/
def safeFor : Nat → State → Prop
  | 0, s => isAborted s = false
  | k + 1, s => isAborted s = false ∧ (s.run = .running → ∀ t, step s = .next t → safeFor k t)

/-- The value of a register operand of an instruction of `len` bytes at the PC (R27, R30, R31 a). -/
def operandOf (s : State) (len : Nat) : IReg → Word
  | .r n => s.r[n]
  | .sp => s.sp
  | .fp => s.fp
  | .ccr => BitVec.ofNat 32 (s.flags.c.toNat + 2 * s.flags.ov.toNat + 4 * s.flags.n.toNat + 8 * s.flags.z.toNat)
  | .pc => s.pc + BitVec.ofNat 32 len

/-- The state after an instruction of `len` bytes whose one effect is to write `v` to a register (R28, R30, R31 b):
nothing but that register and the PC changes, and a write to register 15 is the jump. -/
def withResult (s : State) (len : Nat) (reg : IReg) (v : Word) : State :=
  match reg with
  | .r n => { s with pc := s.pc + BitVec.ofNat 32 len, r := s.r.set n v }
  | .sp => { s with pc := s.pc + BitVec.ofNat 32 len, sp := v }
  | .fp => { s with pc := s.pc + BitVec.ofNat 32 len, fp := v }
  | .ccr =>
    { s with
      pc := s.pc + BitVec.ofNat 32 len
      flags := { c := v.getLsbD 0, ov := v.getLsbD 1, n := v.getLsbD 2, z := v.getLsbD 3 } }
  | .pc => { s with pc := v }

/-- The state after a branch of `len` bytes (R120): only the PC changes. -/
def branched (s : State) (len : Nat) (disp : Int) (taken : Prop) [Decidable taken] : State :=
  { s with pc := if taken then s.pc + BitVec.ofNat 32 len + BitVec.ofInt 32 disp else s.pc + BitVec.ofNat 32 len }

/-- The integer register an instruction has as its destination (R100): none for branches, CMP, floating-point
operations, stores, CALL, RETS, PUSHL, SYSCALL and NOP. -/
def destOf : Instr → Option IReg
  | .add _ ry | .addc _ ry | .and _ ry | .asr _ ry | .lsl _ ry | .lsr _ ry | .sub _ ry | .subb _ ry | .divs _ ry
  | .divu _ ry | .mod _ ry | .move _ ry | .muls _ ry | .mulu _ ry | .neg _ ry | .not _ ry | .or _ ry | .xor _ ry =>
    some ry
  | .lbzx _ _ ry | .lbsx _ _ ry | .llsx _ _ ry | .llzx _ _ ry | .lwsx _ _ ry | .lwzx _ _ ry => some ry
  | .lims _ ry | .orhi _ ry | .lilo _ ry => some ry
  | .popl rx => some rx
  | .beqs _ | .bges _ | .bgts _ | .bles _ | .blts _ | .bnes _ | .bras _ | .rets _ | .bccs _ | .bcss _ | .bvcs _
  | .bvss _ | .bbss _ | .bass _ | .bats _ | .bbts _ | .beql _ | .bgel _ | .bgtl _ | .blel _ | .bltl _ | .bnel _
  | .bral _ | .bsrl _ | .bbsl _ | .basl _ | .batl _ | .bbtl _ | .cmp _ _ | .fadd _ _ | .fcmp _ _ | .fdiv _ _
  | .fmove _ _ | .fmul _ _ | .fneg _ _ | .fsub _ _ | .fldd _ _ _ | .flds _ _ _ | .fstd _ _ _ | .fsts _ _ _
  | .stb _ _ _ | .stl _ _ _ | .stw _ _ _ | .syscall | .nop | .call _ | .pushl _ => none

/-- The two bytes at `a` as a number, most significant first (R51). -/
def halfAt (s : State) (a : Word) : Half := s.byte a ++ s.byte (a + 1#32)

/-- The four bytes at `a` as a number, most significant first (R51). -/
def wordAt (s : State) (a : Word) : Word :=
  s.byte a ++ s.byte (a + 1#32) ++ s.byte (a + 2#32) ++ s.byte (a + 3#32)

/-- The eight bytes at `a` as a number, most significant first (R51). -/
def longAt (s : State) (a : Word) : BitVec 64 := wordAt s a ++ wordAt s (a + 4#32)

/-- No handler is installed for any exception (R39, R311). -/
def noHandlers (s : State) : Prop := s.host.vectors = []

/-- An access of `n` bytes at `a` passes every check of a read (R56, R60). -/
def readable (s : State) (n : Nat) (a : Word) : Prop :=
  a.toNat % n = 0 ∧ ∀ i, i < n → s.valid (a + BitVec.ofNat 32 i) = true

/-- An access of `n` bytes at `a` passes every check of a write (R56, R60, R66). -/
def storable (s : State) (n : Nat) (a : Word) : Prop :=
  a.toNat % n = 0 ∧ ∀ i, i < n → s.writable (a + BitVec.ofNat 32 i) = true

/-- A 16-bit access at `a` would find the bytes of `v`, most significant first (R51). -/
def holdsHalf (t : State) (a : Word) (v : Half) : Prop :=
  t.byte a = v.extractLsb' 8 8 ∧ t.byte (a + 1#32) = v.extractLsb' 0 8

/-- A 32-bit access at `a` would find the bytes of `v`, most significant first (R51). -/
def holdsWord (t : State) (a : Word) (v : Word) : Prop :=
  t.byte a = v.extractLsb' 24 8 ∧ t.byte (a + 1#32) = v.extractLsb' 16 8 ∧ t.byte (a + 2#32) = v.extractLsb' 8 8 ∧
    t.byte (a + 3#32) = v.extractLsb' 0 8

/-- A 64-bit access at `a` would find the bytes of `v`, most significant first (R51). -/
def holdsLong (t : State) (a : Word) (v : BitVec 64) : Prop :=
  holdsWord t a (v.extractLsb' 32 32) ∧ holdsWord t (a + 4#32) (v.extractLsb' 0 32)

/-- `t` holds in memory what `s` holds, but for the `n` bytes from `a` on. -/
def sameOutside (s t : State) (a : Word) (n : Nat) : Prop :=
  ∀ b, (∀ i, i < n → b ≠ a + BitVec.ofNat 32 i) → t.byte b = s.byte b

/-- The bytes from `a` on are a string of valid memory: `len` bytes that are not null, then a null byte (R276, R343). -/
def nullTerminated (s : State) (a : Word) (len : Nat) : Prop :=
  (∀ i, i ≤ len → s.valid (a + BitVec.ofNat 32 i) = true) ∧
    (∀ i, i < len → s.byte (a + BitVec.ofNat 32 i) ≠ 0#8) ∧ s.byte (a + BitVec.ofNat 32 len) = 0#8

/-- At `base` stands an array of `count` pointers, none of them null, each the address of a null-terminated string, and
a null pointer behind them, all of it valid memory (R276 c). -/
def namesAt (s : State) (base : Word) (count : Nat) : Prop :=
  (∀ i, i ≤ count → ∀ k, k < 4 → s.valid (base + BitVec.ofNat 32 (4 * i) + BitVec.ofNat 32 k) = true) ∧
    (∀ i, i < count → wordAt s (base + BitVec.ofNat 32 (4 * i)) ≠ 0#32 ∧
      ∃ len, nullTerminated s (wordAt s (base + BitVec.ofNat 32 (4 * i))) len) ∧
    wordAt s (base + BitVec.ofNat 32 (4 * count)) = 0#32

/-- The exponent field of a double is not all ones: it is neither an infinity nor a NaN. -/
def finiteDouble (a : Double) : Prop := a.extractLsb' 52 11 ≠ 0x7FF#11

/-- The number that a finite double denotes, read off its sign, exponent and fraction as IEEE 754 gives them. -/
def doubleValue (a : Double) : ℚ :=
  let exponent := (a.extractLsb' 52 11).toNat
  let fraction := (a.extractLsb' 0 52).toNat
  (if a.msb then (-1 : ℚ) else 1) *
    (if exponent = 0 then (fraction : ℚ) * 2 ^ (-1074 : Int) else (2 ^ 52 + (fraction : ℚ)) * 2 ^ ((exponent : Int) - 1075))

/-- The exponent field of a single is not all ones. -/
def finiteSingle (a : Single) : Prop := a.extractLsb' 23 8 ≠ 0xFF#8

/-- The number that a finite single denotes, read off its fields as IEEE 754 gives them. -/
def singleValue (a : Single) : ℚ :=
  let exponent := (a.extractLsb' 23 8).toNat
  let fraction := (a.extractLsb' 0 23).toNat
  (if a.msb then (-1 : ℚ) else 1) *
    (if exponent = 0 then (fraction : ℚ) * 2 ^ (-149 : Int) else (2 ^ 23 + (fraction : ℚ)) * 2 ^ ((exponent : Int) - 150))

/-- A single is a NaN: its exponent field is all ones and its fraction is not 0. -/
def nanSingle (w : Single) : Prop := w.extractLsb' 23 8 = 0xFF#8 ∧ w.extractLsb' 0 23 ≠ 0#23

/-- The state in which the host serves a system call made in `s`: the return address pushed (R260). -/
def calledFrom (s : State) : State := (s.advance 2).push (s.pc + 2#32)

end Sys2Proof.Machine
end

