-- ==== Sys2Proof/Certificates/Slice0/Obligations.lean ====
section
/-! DEFINITION. The statements for the provers. A rule R<n> or a decision D<n> of the spec that a statement speaks of
is named in its docstring; what rests on a decision of the spec or on a choice of the model says so there. -/

open Sys2Proof Sys2Proof.Machine

/-- Decoding an encoded well-formed instruction gives it back, with the bytes after it (R101; layout D1). -/
def Obligations.DecodeEncode : Prop :=
  ∀ (i : Instr) (rest : List Byte), i.wellFormed = true → decode (encode i ++ rest) = .ok (i, rest)

/-- Every byte string that decodes is the encoding of the well-formed instruction it decodes to: no two encodings of one
instruction, no bit ignored (R91, R101; layout D1, unused bits D2). -/
def Obligations.EncodeDecode : Prop :=
  ∀ (bytes rest : List Byte) (i : Instr), decode bytes = .ok (i, rest) → i.wellFormed = true ∧ bytes = encode i ++ rest

/-- A few words of the opcode table, one of each form, decode as the spec's encoding vectors say (layout D1). -/
def Obligations.SpecWordsDecode : Prop :=
  decodeTableWord 16 0x03F0 = some (.bges (-32)) ∧ decodeTableWord 16 0x4059 = some (.add (.r 5) (.r 9)) ∧
    decodeTableWord 16 0xE200 = some .nop ∧ decodeTableWord 16 0xF007 = some (.call (.r 7)) ∧
    decodeTableWord 16 0xE5D6 = some (.lims (-3) (.r 6)) ∧ decodeTableWord 32 0xB03A8000 = some (.stb (.r 3) (-32768) (.r 10)) ∧
    decodeTableWord 32 0xE60BBEEF = some (.orhi 0xBEEF#16 (.r 11)) ∧ decodeTableWord 32 0x23FFFFF0 = some (.bgel (-32)) ∧
    decodeTableWord 16 0xE3FF = none ∧ decodeTableWord 16 0x3800 = none

/-- The length is a function of the opcode value alone, four bytes for the listed values and two for the others, and the
decoder takes exactly that many bytes (R96). -/
def Obligations.LengthFromOpcode : Prop :=
  ∀ (b0 : Byte) (tail rest : List Byte) (i : Instr), decode (b0 :: tail) = .ok (i, rest) →
    let op := b0.toNat / 2
    tail.length + 1 = rest.length + i.size ∧
      (if (16 ≤ op ∧ op ≤ 27) ∨ (64 ≤ op ∧ op ≤ 65) ∨ (72 ≤ op ∧ op ≤ 77) ∨ (80 ≤ op ∧ op ≤ 81) ∨ (88 ≤ op ∧ op ≤ 90) ∨
          (115 ≤ op ∧ op ≤ 116) then i.size = 4
        else i.size = 2 ∧ (op ≤ 15 ∨ (32 ≤ op ∧ op ≤ 57) ∨ (112 ≤ op ∧ op ≤ 114) ∨ op = 120 ∨ op = 126 ∨ op = 127))

/-- The first halfword alone is illegal exactly if its opcode is one of the 53 unassigned values or a bit its form does
not use is 1 (R91, R97, R303; D1, D2, D4). -/
def Obligations.IllegalFirstHalfword : Prop :=
  ∀ h0 : Half,
    let op := h0.toNat / 512
    (∃ e, formOf h0 = .error e) ↔
      ((28 ≤ op ∧ op ≤ 31) ∨ (58 ≤ op ∧ op ≤ 63) ∨ (66 ≤ op ∧ op ≤ 71) ∨ (78 ≤ op ∧ op ≤ 79) ∨ (82 ≤ op ∧ op ≤ 87) ∨
        (91 ≤ op ∧ op ≤ 111) ∨ (117 ≤ op ∧ op ≤ 119) ∨ (121 ≤ op ∧ op ≤ 125)) ∨
      (((32 ≤ op ∧ op ≤ 57) ∨ (64 ≤ op ∧ op ≤ 90)) ∧ h0.getLsbD 8 = true) ∨
      ((op = 112 ∨ op = 113) ∧ h0.toNat % 512 ≠ 0) ∨
      ((op = 115 ∨ op = 116 ∨ op = 120 ∨ op = 126 ∨ op = 127) ∧ h0.toNat / 16 % 32 ≠ 0)

/-- When the bytes at the PC of a running process are valid memory and decode to a well-formed instruction, a step is
`exec` of that instruction on that very state; `exec` itself moves the PC (R28, R53, R370). -/
def Obligations.StepRunsDecoded : Prop :=
  ∀ (s : State) (i : Instr), s.run = .running → s.pc.toNat % 2 = 0 → i.wellFormed = true →
    (∀ k, k < i.size → s.valid (s.pc + BitVec.ofNat 32 k) = true) →
    decode ((List.range i.size).map fun k => s.byte (s.pc + BitVec.ofNat 32 k)) = .ok (i, []) →
    step s = exec i s

/-- The exceptions of a fetch in their order: odd address, first halfword not valid, illegal first halfword, second
halfword of a 32-bit form not valid (R320, decision D30; R61 D18, R56 D19, R303 D4). -/
def Obligations.FetchPriority : Prop :=
  ∀ s : State, s.run = .running →
    let h0 := halfAt s s.pc
    let firstValid := s.valid s.pc = true ∧ s.valid (s.pc + 1#32) = true
    let secondValid := s.valid (s.pc + 2#32) = true ∧ s.valid (s.pc + 3#32) = true
    (s.pc.toNat % 2 = 1 → step s = takeException (.illegalBusAccess s.pc) s) ∧
      (s.pc.toNat % 2 = 0 → ¬firstValid → step s = takeException (.invalidMemoryAccess s.pc) s) ∧
      (∀ e, s.pc.toNat % 2 = 0 → firstValid → formOf h0 = .error e → step s = takeException (.illegalInstruction h0) s) ∧
      (∀ fm, s.pc.toNat % 2 = 0 → firstValid → formOf h0 = .ok fm → formBytes fm = 4 → ¬secondValid →
        step s = takeException (.invalidMemoryAccess (s.pc + 2#32)) s)

/-- A process whose run has ended executes no further instruction (R278); that the model answers with a fault of its own
there is log 5. -/
def Obligations.EndedRunStops : Prop := ∀ s : State, s.run ≠ .running → step s = .fault .processEnded

/-- The values of State.reset that R39 gives to a process start: the PC at 0x01000000 plus an entry of 0, no handler, the
descriptors 0, 1 and 2 open, the run going on; and, as log 4 says, nothing loaded: nothing is valid and no byte is
written. -/
def Obligations.ResetState : Prop :=
  State.reset.pc = 0x01000000#32 ∧ State.reset.host.vectors = [] ∧ State.reset.host.openFds = [0, 1, 2] ∧
    State.reset.run = .running ∧ (∀ a, State.reset.valid a = false) ∧ (∀ a, State.reset.byte a = Config.unwrittenByte a)

/-- The invariant holds at reset. -/
def Obligations.ResetInv : Prop := StateInv State.reset

/-- The invariant is kept by every step from every state: memory stays in canonical form, and the descriptors 0, 1 and 2
"can never be closed" (R40, R277), whatever a system call answers. -/
def Obligations.StepKeepsInv : Prop := ∀ s t : State, StateInv s → step s = .next t → StateInv t

/-- No step, of any instruction, system call or exception, changes the launch map or a byte that is not writable; code is
not writable (R65, R66, R71 a; D19, D26; that the host too leaves such bytes is R274, D22, log 9 and 26). -/
def Obligations.StepKeepsCode : Prop :=
  ∀ s t : State, Memory.wf s.mem → step s = .next t →
    t.regions = s.regions ∧ (∀ a, s.writable a = false → t.byte a = s.byte a) ∧
      (∀ a, s.inCode a = true → s.writable a = false ∧ t.inCode a = true ∧ t.byte a = s.byte a)

/-- An odd PC is reached only through CALL, RETS or a write to register 15 (R61, D18): every other instruction takes an even
PC to an even PC. That an exception enters no handler is the default of HANDLERS (D20). -/
def Obligations.PcStaysEven : Prop :=
  ∀ (i : Instr) (s t : State), StateInv s → i.wellFormed = true → s.pc.toNat % 2 = 0 → exec i s = .next t →
    destOf i ≠ some .pc → (∀ rx, i ≠ .call rx) → (∀ n, i ≠ .rets n) → t.pc.toNat % 2 = 0

/-- Exceptions are precise (R315, D21): a step of a running process that ends in an abort has changed no register, no flag,
no byte of memory and nothing else; the PC is that of the instruction, and the status code is that of the exception (R311;
for FloatDivideByZero it is open, log 8). -/
def Obligations.ExceptionsArePrecise : Prop :=
  ∀ (s t : State) (e : Exception) (status : Nat), s.run = .running → step s = .next t → t.run = .aborted e status →
    t = { s with run := .aborted e status } ∧ status = e.abortStatus

/-- Which exceptions each instruction can raise of its own, besides those of its fetch (R308). -/
def Obligations.ExceptionsByInstruction : Prop :=
  ∀ (i : Instr) (s t : State) (e : Exception) (status : Nat), s.run = .running → exec i s = .next t →
    t.run = .aborted e status →
    match i with
    | .fdiv _ _ => e = .floatDivideByZero
    | .lbzx _ _ _ | .lbsx _ _ _ | .stb _ _ _ => ∃ a, e = .invalidMemoryAccess a
    | .lwzx _ _ _ | .lwsx _ _ _ | .stw _ _ _ | .llzx _ _ _ | .llsx _ _ _ | .stl _ _ _ | .fldd _ _ _ | .flds _ _ _
    | .fstd _ _ _ | .fsts _ _ _ | .pushl _ | .popl _ | .call _ | .bsrl _ | .rets _ | .syscall =>
      ∃ a, e = .illegalBusAccess a ∨ e = .invalidMemoryAccess a
    | _ => False

/-- Every instruction, on every state, answers a next state: none is refused and none faults. That an exception is a next
state, with the run aborted, is the model's choice of log 6; that a SYSCALL always comes to one, since every call but
SYS_EXIT returns, is log 9. -/
def Obligations.ExecAnswersNext : Prop := ∀ (i : Instr) (s : State), ∃ t, exec i s = .next t

/-- A run exits only by SYSCALL with 0 in R0, and the status is R1 (R278 a, D34). -/
def Obligations.ExitOnlyBySyscall : Prop :=
  ∀ (s t : State) (status : Word), s.run = .running → step s = .next t → t.run = .exited status →
    s.fetch = .ok .syscall ∧ s.r[0] = 0#32 ∧ status = s.r[1]

/-- Only SYSCALL changes the host-side state (R40, R73); even then descriptors 0, 1 and 2 stay open (R277), and the
interrupt vectors stay, since at the default of HANDLERS no handler can be installed (D20, log 7). -/
def Obligations.HostStateOnlyBySyscall : Prop :=
  ∀ (i : Instr) (s t : State), StateInv s → exec i s = .next t →
    (i ≠ .syscall → t.host = s.host) ∧ t.host.vectors = s.host.vectors ∧ ∀ d ∈ [0, 1, 2], d ∈ t.host.openFds

/-- At the default of HANDLERS, taking an exception ends the run and changes nothing else; so it does where HANDLERS is
modelled and no handler is installed; and the abort status is the signal number: 5, 10, 20, and for FloatDivideByZero,
which has no signal, the one that FDIV_ZERO_VECTOR gives (R310, R311, R223; D16, D20; log 7 and 8). -/
def Obligations.UnhandledExceptionAborts : Prop :=
  ∀ (zero : Config.FdivZero) (s : State),
    let ends (p : Parameters) : Prop :=
      (∀ h, takeException (.illegalInstruction h) s p = .next { s with run := .aborted (.illegalInstruction h) 5 }) ∧
        (∀ a, takeException (.invalidMemoryAccess a) s p =
          .next { s with run := .aborted (.invalidMemoryAccess a) 10 }) ∧
        (∀ a, takeException (.illegalBusAccess a) s p = .next { s with run := .aborted (.illegalBusAccess a) 20 }) ∧
        takeException .floatDivideByZero s p = .next { s with run := .aborted .floatDivideByZero zero.status }
    ends { fdivZeroVector := zero } ∧
      (∀ successor : BitVec 5 → State → State, noHandlers s →
        ends { handlers := .modelled successor, fdivZeroVector := zero }) ∧
      ∀ e : Exception, takeException e s = .next { s with run := .aborted e e.abortStatus }

/-- Where HANDLERS is modelled, as any function from vector and state to a successor state, an exception for whose vector a
handler is installed goes to that successor, and to no other state: vector 1 for IllegalInstruction, 2 for
InvalidMemoryAccess, 3 for IllegalBusAccess; FloatDivideByZero has the vector that FDIV_ZERO_VECTOR names, at the
default none, so that it ends the run. And a step that at the default ends the run by an exception takes that same
exception there, in the state before the step (R301, R310, R312, R315, R223; D16, D20, D21; log 7, 8 and 14). -/
def Obligations.HandlerEntry : Prop :=
  ∀ (successor : BitVec 5 → State → State) (zero : Config.FdivZero) (s : State),
    let p : Parameters := { handlers := .modelled successor, fdivZeroVector := zero }
    let goes (e : Exception) (v : BitVec 5) : Prop :=
      ((s.host.vectors.lookup v).isSome = true → takeException e s p = .next (successor v s)) ∧
        ((s.host.vectors.lookup v).isSome = false →
          takeException e s p = .next { s with run := .aborted e (e.abortStatus zero) })
    (∀ h, goes (.illegalInstruction h) 1#5) ∧ (∀ a, goes (.invalidMemoryAccess a) 2#5) ∧
      (∀ a, goes (.illegalBusAccess a) 3#5) ∧ (∀ v, zero.vector = some v → goes .floatDivideByZero v) ∧
      (zero.vector = none →
        takeException .floatDivideByZero s p = .next { s with run := .aborted .floatDivideByZero zero.status }) ∧
      ∀ (t : State) (e : Exception) (status : Nat), s.run = .running → step s = .next t → t.run = .aborted e status →
        stepUnder p s = takeException e s p

/-- A launch that succeeds leaves the process entry state (R340, R39, R65, R342, R343, R345): PC, R0, R1, the three
segments with their bytes and their permissions, nothing else valid but the host's region, argv's pointers and strings
in valid memory, the bss unwritten, no handler, the standard descriptors open. The run goes on exactly if the entry is
even and less than the code size, both read as unsigned numbers; else it has ended by the exception of the first fetch.
Rests on D19, D23 and D32; the arguments of `launch`, that the excluded entry ends the run at once, and that a negative
entry is an excluded one, are log 17. -/
def Obligations.LaunchEntryState : Prop :=
  ∀ (inp : LaunchInput) (s : State), launch inp = .ok s →
    ∃ h, FileFormat.readHeader inp.file = some h ∧ h.base = 0x01000000#32 ∧
      s.pc = 0x01000000#32 + h.entry ∧ s.r[0] = inp.argc ∧ s.r[1] = inp.argv ∧
      s.run = (if h.entry.toNat % 2 = 1 then .aborted (.illegalBusAccess s.pc) 20
        else if h.codesize.toNat ≤ h.entry.toNat then .aborted (.invalidMemoryAccess s.pc) 10 else .running) ∧
      s.host.vectors = [] ∧ StateInv s ∧
      (∀ a : Word, s.valid a = true ↔
        (0x01000000 ≤ a.toNat ∧ a.toNat < 0x01000000 + h.codesize.toNat) ∨
        (inp.dataBase ≤ a.toNat ∧ a.toNat < inp.dataBase + h.datasize.toNat) ∨
        (inp.bssBase ≤ a.toNat ∧ a.toNat < inp.bssBase + h.bsssize.toNat) ∨
        (inp.hostBase ≤ a.toNat ∧ a.toNat < inp.hostBase + inp.hostBytes.length)) ∧
      (∀ a : Word, s.writable a = true ↔
        s.valid a = true ∧ ¬(0x01000000 ≤ a.toNat ∧ a.toNat < 0x01000000 + h.codesize.toNat)) ∧
      (∀ i, i < inp.argc.toNat →
        let slot := inp.argv + BitVec.ofNat 32 (4 * i)
        (∀ k, k < 4 → s.valid (slot + BitVec.ofNat 32 k) = true) ∧ ∃ len, nullTerminated s (wordAt s slot) len) ∧
      (∀ k, k < h.codesize.toNat →
        inp.file[h.codeoffset.toNat + k]? = some (s.byte (0x01000000#32 + BitVec.ofNat 32 k))) ∧
      (∀ k, k < h.datasize.toNat →
        inp.file[h.dataoffset.toNat + k]? = some (s.byte (BitVec.ofNat 32 (inp.dataBase + k)))) ∧
      (∀ k, k < h.bsssize.toNat →
        s.byte (BitVec.ofNat 32 (inp.bssBase + k)) = Config.unwrittenByte (BitVec.ofNat 32 (inp.bssBase + k)))

/-- Reading and writing a register operand, by number, means what R31 says of each of the sixteen (D6, D7), and the
effective address is base plus displacement modulo 2^32 (R240). -/
def Obligations.RegisterOperands : Prop :=
  ∀ (s : State) (len : Nat) (reg : IReg) (v : Word) (disp : Int),
    (s.advance len).readReg reg = operandOf s len reg ∧ (s.advance len).writeReg reg v = withResult s len reg v ∧
      (s.advance len).ea reg disp = operandOf s len reg + BitVec.ofInt 32 disp

/-- The fifteen short branches: taken, the PC becomes `A + 2 + disp`; else `A + 2`; nothing else changes (R120, R125 to
R139; base D5, unsigned conditions D10). -/
def Obligations.ShortBranches : Prop :=
  ∀ (d : Int) (s : State),
    exec (.beqs d) s = .next (branched s 2 d (s.flags.z = true)) ∧
    exec (.bges d) s = .next (branched s 2 d (s.flags.n = s.flags.ov)) ∧
    exec (.bgts d) s = .next (branched s 2 d (s.flags.n = s.flags.ov ∧ s.flags.z = false)) ∧
    exec (.bles d) s = .next (branched s 2 d (s.flags.z = true ∨ s.flags.n ≠ s.flags.ov)) ∧
    exec (.blts d) s = .next (branched s 2 d (s.flags.n ≠ s.flags.ov)) ∧
    exec (.bnes d) s = .next (branched s 2 d (s.flags.z = false)) ∧
    exec (.bras d) s = .next (branched s 2 d True) ∧
    exec (.bccs d) s = .next (branched s 2 d (s.flags.c = false)) ∧
    exec (.bcss d) s = .next (branched s 2 d (s.flags.c = true)) ∧
    exec (.bvcs d) s = .next (branched s 2 d (s.flags.ov = false)) ∧
    exec (.bvss d) s = .next (branched s 2 d (s.flags.ov = true)) ∧
    exec (.bbss d) s = .next (branched s 2 d (s.flags.c = true ∨ s.flags.z = true)) ∧
    exec (.bass d) s = .next (branched s 2 d (s.flags.c = false)) ∧
    exec (.bats d) s = .next (branched s 2 d (s.flags.c = false ∧ s.flags.z = false)) ∧
    exec (.bbts d) s = .next (branched s 2 d (s.flags.c = true))

/-- The eleven long branches: taken, the PC becomes `A + 4 + disp`; else `A + 4`; nothing else changes (R120, R140 to R150;
base D5, unsigned conditions D10). -/
def Obligations.LongBranches : Prop :=
  ∀ (d : Int) (s : State),
    exec (.beql d) s = .next (branched s 4 d (s.flags.z = true)) ∧
    exec (.bgel d) s = .next (branched s 4 d (s.flags.n = s.flags.ov)) ∧
    exec (.bgtl d) s = .next (branched s 4 d (s.flags.n = s.flags.ov ∧ s.flags.z = false)) ∧
    exec (.blel d) s = .next (branched s 4 d (s.flags.z = true ∨ s.flags.n ≠ s.flags.ov)) ∧
    exec (.bltl d) s = .next (branched s 4 d (s.flags.n ≠ s.flags.ov)) ∧
    exec (.bnel d) s = .next (branched s 4 d (s.flags.z = false)) ∧
    exec (.bral d) s = .next (branched s 4 d True) ∧
    exec (.bbsl d) s = .next (branched s 4 d (s.flags.c = true ∨ s.flags.z = true)) ∧
    exec (.basl d) s = .next (branched s 4 d (s.flags.c = false)) ∧
    exec (.batl d) s = .next (branched s 4 d (s.flags.c = false ∧ s.flags.z = false)) ∧
    exec (.bbtl d) s = .next (branched s 4 d (s.flags.c = true))

/-- Each signed branch is taken exactly under the source's printed condition (R124); CMP and SUB leave OV; and after
`CMP Rx,Ry` the tests of BGE and BLT give the signed order of Ry against Rx exactly if OV holds the signed overflow of
`Ry - Rx`. That BGT and BLE give it too with a right OV, and with a wrong one only for equal operands, is inferred from
their printed conditions; operands 14 and 15 rest on D6 and D7 (log 14). "Taken" is said as: acts as the unconditional
branch of the same length with the same displacement, else with displacement 0. -/
def Obligations.SignedConditions : Prop :=
  (∀ (d : Int) (s : State),
    let n := s.flags.n; let ov := s.flags.ov; let z := s.flags.z
    let short (taken : Bool) := exec (.bras (if taken then d else 0)) s
    let long (taken : Bool) := exec (.bral (if taken then d else 0)) s
    exec (.beqs d) s = short z ∧ exec (.beql d) s = long z ∧
    exec (.bnes d) s = short (!z) ∧ exec (.bnel d) s = long (!z) ∧
    exec (.bges d) s = short ((n && ov) || (!n && !ov)) ∧ exec (.bgel d) s = long ((n && ov) || (!n && !ov)) ∧
    exec (.bgts d) s = short ((n && ov && !z) || (!n && !ov && !z)) ∧
    exec (.bgtl d) s = long ((n && ov && !z) || (!n && !ov && !z)) ∧
    exec (.bles d) s = short (z || (n && !ov) || (!n && ov)) ∧
    exec (.blel d) s = long (z || (n && !ov) || (!n && ov)) ∧
    exec (.blts d) s = short ((n && !ov) || (!n && ov)) ∧ exec (.bltl d) s = long ((n && !ov) || (!n && ov))) ∧
  (∀ (rx ry : IReg) (s : State),
    let a := operandOf s 2 rx; let b := operandOf s 2 ry
    let overflow : Bool := !(decide (-2147483648 ≤ b.toInt - a.toInt) && decide (b.toInt - a.toInt ≤ 2147483647))
    ∃ t, exec (.cmp rx ry) s = .next t ∧ t.flags.ov = s.flags.ov ∧
      (ry ≠ .ccr → ∃ u, exec (.sub rx ry) s = .next u ∧ u.flags.ov = s.flags.ov) ∧
      ((s.flags.ov = overflow) ↔ (condGe t.flags = true ↔ a.toInt ≤ b.toInt)) ∧
      ((s.flags.ov = overflow) ↔ (condLt t.flags = true ↔ b.toInt < a.toInt)) ∧
      ((s.flags.ov = overflow ∨ a = b) ↔ (condGt t.flags = true ↔ a.toInt < b.toInt)) ∧
      ((s.flags.ov = overflow ∨ a = b) ↔ (condLe t.flags = true ↔ b.toInt ≤ a.toInt)))

/-- After `CMP Rx,Ry` the eight unsigned branches decide the unsigned order of Ry against Rx (R123; decisions D9 and
D10). -/
def Obligations.CompareThenUnsignedBranch : Prop :=
  ∀ (rx ry : IReg) (d : Int) (s : State),
    let a := operandOf s 2 rx; let b := operandOf s 2 ry
    ∃ t, exec (.cmp rx ry) s = .next t ∧
      exec (.bbss d) t = .next (branched t 2 d (b.toNat ≤ a.toNat)) ∧
      exec (.bass d) t = .next (branched t 2 d (a.toNat ≤ b.toNat)) ∧
      exec (.bats d) t = .next (branched t 2 d (a.toNat < b.toNat)) ∧
      exec (.bbts d) t = .next (branched t 2 d (b.toNat < a.toNat)) ∧
      exec (.bbsl d) t = .next (branched t 4 d (b.toNat ≤ a.toNat)) ∧
      exec (.basl d) t = .next (branched t 4 d (a.toNat ≤ b.toNat)) ∧
      exec (.batl d) t = .next (branched t 4 d (a.toNat < b.toNat)) ∧
      exec (.bbtl d) t = .next (branched t 4 d (b.toNat < a.toNat))

/-- ADD: the sum modulo 2^32 goes to Ry; carry, overflow, N and Z as defined; nothing else changes, for every pair of
registers (R162, R161; D11, D7). -/
def Obligations.AddResult : Prop :=
  ∀ (rx ry : IReg) (s : State),
    let a := operandOf s 2 rx; let b := operandOf s 2 ry; let r := a + b
    exec (.add rx ry) s = .next { withResult s 2 ry r with
      flags := { c := decide (4294967296 ≤ a.toNat + b.toNat), ov := decide (a.msb = b.msb ∧ r.msb ≠ a.msb),
                 n := r.msb, z := decide (r = 0#32) } }

/-- ADDC: sum with carry in; OV is the signed overflow of the three-term sum; C is not written (R163, R161; D11, D33,
D7). -/
def Obligations.AddcResult : Prop :=
  ∀ (rx ry : IReg) (s : State),
    let a := operandOf s 2 rx; let b := operandOf s 2 ry
    let r := a + b + BitVec.ofNat 32 s.flags.c.toNat
    let exact : Int := a.toInt + b.toInt + s.flags.c.toNat
    let t := withResult s 2 ry r
    exec (.addc rx ry) s = .next { t with
      flags := { c := t.flags.c, ov := decide (exact < -2147483648 ∨ 2147483647 < exact),
                 n := r.msb, z := decide (r = 0#32) } }

/-- SUB: the difference Ry - Rx goes to Ry, C is the borrow, OV is not written (R165, R161; D11, D33, D7). -/
def Obligations.SubResult : Prop :=
  ∀ (rx ry : IReg) (s : State),
    let a := operandOf s 2 rx; let b := operandOf s 2 ry; let r := b - a
    let t := withResult s 2 ry r
    exec (.sub rx ry) s = .next { t with
      flags := { c := decide (b.toNat < a.toNat), ov := t.flags.ov, n := r.msb, z := decide (r = 0#32) } }

/-- SUBB: Ry - Rx - C, C is the borrow out, OV is not written (R166, R161; D11, D33, D7). -/
def Obligations.SubbResult : Prop :=
  ∀ (rx ry : IReg) (s : State),
    let a := operandOf s 2 rx; let b := operandOf s 2 ry
    let r := b - a - BitVec.ofNat 32 s.flags.c.toNat
    let t := withResult s 2 ry r
    exec (.subb rx ry) s = .next { t with
      flags := { c := decide (b.toNat < a.toNat + s.flags.c.toNat), ov := t.flags.ov, n := r.msb,
                 z := decide (r = 0#32) } }

/-- CMP: the flags of SUB, no register written (R164; D9, D11, D33). -/
def Obligations.CmpResult : Prop :=
  ∀ (rx ry : IReg) (s : State),
    let a := operandOf s 2 rx; let b := operandOf s 2 ry
    exec (.cmp rx ry) s = .next { s with
      pc := s.pc + 2#32
      flags := { c := decide (b.toNat < a.toNat), ov := s.flags.ov, n := (b - a).msb, z := decide (a = b) } }

/-- NEG: the negated source goes to Ry; C is set unless the result is 0; OV is a copy of N, as printed (R172; D33,
D7). -/
def Obligations.NegResult : Prop :=
  ∀ (rx ry : IReg) (s : State),
    let r := -(operandOf s 2 rx)
    exec (.neg rx ry) s = .next { withResult s 2 ry r with
      flags := { c := decide (r ≠ 0#32), ov := r.msb, n := r.msb, z := decide (r = 0#32) } }

/-- MULS and MULU: the low 32 bits of the product go to Ry, the same for both; OV says whether the exact product fits, and
only there they differ; C is not written (R170, R171; D8, D15, D7). -/
def Obligations.MultiplyResults : Prop :=
  ∀ (rx ry : IReg) (s : State),
    let a := operandOf s 2 rx; let b := operandOf s 2 ry; let r := a * b
    let t := withResult s 2 ry r
    exec (.muls rx ry) s = .next { t with
      flags := { c := t.flags.c, ov := decide (a.toInt * b.toInt < -2147483648 ∨ 2147483647 < a.toInt * b.toInt),
                 n := r.msb, z := decide (r = 0#32) } } ∧
    exec (.mulu rx ry) s = .next { t with
      flags := { c := t.flags.c, ov := decide (4294967296 ≤ a.toNat * b.toNat), n := r.msb, z := decide (r = 0#32) } }

/-- DIVS, DIVU and MOD by a divisor that is not 0: truncating signed quotient, unsigned floor, and remainder with the sign
of the dividend; OV cleared, C not written (R167, R168, R169, R173; D8, D12, D7). -/
def Obligations.DivisionResults : Prop :=
  ∀ (rx ry : IReg) (s : State),
    let a := operandOf s 2 rx; let b := operandOf s 2 ry
    let done (r : Word) : State :=
      let t := withResult s 2 ry r
      { t with flags := { c := t.flags.c, ov := false, n := r.msb, z := decide (r = 0#32) } }
    a ≠ 0#32 →
      exec (.divs rx ry) s = .next (done (b.sdiv a)) ∧ exec (.divu rx ry) s = .next (done (b / a)) ∧
        exec (.mod rx ry) s = .next (done (b.srem a))

/-- DIVS, DIVU and MOD by 0 raise nothing: Ry keeps its value, OV is set, C stays, and N and Z are whatever the free bits
are (R173; D13; the free bits and the model's count of draws are log 11). -/
def Obligations.DivisionByZero : Prop :=
  ∀ (rx ry : IReg) (s : State), operandOf s 2 rx = 0#32 →
    ∃ n z, let t := { s with
                      pc := s.pc + 2#32, flags := { c := s.flags.c, ov := true, n := n, z := z }, draws := s.draws + 1 }
      exec (.divs rx ry) s = .next t ∧ exec (.divu rx ry) s = .next t ∧ exec (.mod rx ry) s = .next t

/-- R372: ADDC reads C and does not write it, so a third word added by a second ADDC gets the carry of the ADD again; SUBB
does write C, so SUB, SUBB and a further SUBB chain: a 96-bit difference comes out right. The words lie in distinct
general registers. -/
def Obligations.CarryChains : Prop :=
  ∀ (x0 x1 x2 y0 y1 y2 : Fin 12) (s : State),
    y0 ≠ y1 → y0 ≠ y2 → y1 ≠ y2 → x1 ≠ y0 → x2 ≠ y0 → x2 ≠ y1 →
    (∃ t u v, exec (.add (.r x0) (.r y0)) s = .next t ∧ exec (.addc (.r x1) (.r y1)) t = .next u ∧
      exec (.addc (.r x2) (.r y2)) u = .next v ∧
      (u.r[y1] ++ u.r[y0] : BitVec 64) = (s.r[y1] ++ s.r[y0]) + (s.r[x1] ++ s.r[x0]) ∧
      u.flags.c = t.flags.c ∧ v.flags.c = t.flags.c ∧
      v.r[y2] = s.r[y2] + s.r[x2] + BitVec.ofNat 32 t.flags.c.toNat) ∧
    (∃ t u v, exec (.sub (.r x0) (.r y0)) s = .next t ∧ exec (.subb (.r x1) (.r y1)) t = .next u ∧
      exec (.subb (.r x2) (.r y2)) u = .next v ∧
      (v.r[y2] ++ v.r[y1] ++ v.r[y0] : BitVec 96) = (s.r[y2] ++ s.r[y1] ++ s.r[y0]) - (s.r[x2] ++ s.r[x1] ++ s.r[x0]) ∧
      v.flags.c = decide ((s.r[y2] ++ s.r[y1] ++ s.r[y0] : BitVec 96).toNat < (s.r[x2] ++ s.r[x1] ++ s.r[x0] : BitVec 96).toNat))

/-- AND, OR, XOR, NOT: the result goes to Ry, N and Z from it, OV cleared, C not written (R191, R196, R197, R198; D7). -/
def Obligations.LogicResults : Prop :=
  ∀ (rx ry : IReg) (s : State),
    let a := operandOf s 2 rx; let b := operandOf s 2 ry
    let done (r : Word) : State :=
      let t := withResult s 2 ry r
      { t with flags := { c := t.flags.c, ov := false, n := r.getLsbD 31, z := decide (r = 0#32) } }
    exec (.and rx ry) s = .next (done (a &&& b)) ∧ exec (.or rx ry) s = .next (done (a ||| b)) ∧
      exec (.xor rx ry) s = .next (done (a ^^^ b)) ∧ exec (.not rx ry) s = .next (done (~~~a))

/-- ASR, LSL, LSR by the source register modulo 32: floor division, product modulo 2^32, unsigned floor division; C from
the operand before the shift (bit 0, bit 31, bit 31), N cleared by LSR, OV = new N xor new C, all as printed (R192, R193,
R194, R199; D14, D33, D7). -/
def Obligations.ShiftResults : Prop :=
  ∀ (rx ry : IReg) (s : State),
    let b := operandOf s 2 ry
    let k := (operandOf s 2 rx).toNat % 32
    let done (r : Word) (c n : Bool) : State :=
      { withResult s 2 ry r with flags := { c := c, ov := decide (n ≠ c), n := n, z := decide (r = 0#32) } }
    let asr := BitVec.ofInt 32 (b.toInt / 2 ^ k)
    let lsl := BitVec.ofNat 32 (b.toNat * 2 ^ k)
    exec (.asr rx ry) s = .next (done asr (b.getLsbD 0) asr.msb) ∧
      exec (.lsl rx ry) s = .next (done lsl (b.getLsbD 31) lsl.msb) ∧
      exec (.lsr rx ry) s = .next (done (BitVec.ofNat 32 (b.toNat / 2 ^ k)) (b.getLsbD 31) false)

/-- MOVE: the source goes to Ry and nothing else changes, for every pair of the sixteen registers (R195; D5, D7). -/
def Obligations.MoveResult : Prop :=
  ∀ (rx ry : IReg) (s : State), exec (.move rx ry) s = .next (withResult s 2 ry (operandOf s 2 rx))

/-- The floating-point operations write their one register, N and Z of the result (FADD OV too), and nothing else; FCMP
writes no register, FMOVE no flag (R211 to R218; D8, D16; the NaN and the count of draws are log 11 and 12). -/
def Obligations.FloatResults : Prop :=
  ∀ (fx fy : FReg) (s : State),
    let a := s.f[fx]; let b := s.f[fy]; let nan := Ieee.quietNaN64 (Config.freeNaN64 s.draws)
    let flagged (r : Double) (ov : Bool) : Flags :=
      { c := s.flags.c, ov := ov, n := Ieee.isNeg r, z := Ieee.isZero r }
    let done (r : Double) (ov : Bool) : State :=
      { s with pc := s.pc + 2#32, f := s.f.set fy r, flags := flagged r ov, draws := s.draws + 1 }
    exec (.fadd fx fy) s =
        .next (done (Ieee.add nan a b) (Ieee.isFinite a && Ieee.isFinite b && Ieee.isInfinite (Ieee.add nan a b))) ∧
      exec (.fsub fx fy) s = .next (done (Ieee.sub nan b a) s.flags.ov) ∧
      exec (.fmul fx fy) s = .next (done (Ieee.mul nan a b) s.flags.ov) ∧
      exec (.fneg fx fy) s = .next (done (Ieee.sub nan 0#64 a) s.flags.ov) ∧
      exec (.fcmp fx fy) s =
        .next { s with pc := s.pc + 2#32, flags := flagged (Ieee.sub nan b a) s.flags.ov, draws := s.draws + 1 } ∧
      exec (.fmove fx fy) s = .next { s with pc := s.pc + 2#32, f := s.f.set fy a } ∧
      (Ieee.isZero a = false → exec (.fdiv fx fy) s = .next (done (Ieee.div nan b a) s.flags.ov))

/-- FDIV by +0.0 or -0.0 takes FloatDivideByZero in the state before it, whatever the dividend (R223, R306; D16). -/
def Obligations.FloatDivisionByZero : Prop :=
  ∀ (fx fy : FReg) (s : State), s.f[fx] = 0x0000000000000000#64 ∨ s.f[fx] = 0x8000000000000000#64 →
    exec (.fdiv fx fy) s = takeException .floatDivideByZero s

/-- FSUB of a register from itself gives +0.0 with Z set and N clear if it is finite, and a NaN with both clear if it is an
infinity or a NaN, whatever the free NaN is (R218, R224; D16, log 13). -/
def Obligations.FloatSubtractSelf : Prop :=
  ∀ (fx : FReg) (s : State), ∃ t, exec (.fsub fx fx) s = .next t ∧
    if Ieee.isFinite s.f[fx] = true then
      t.f[fx] = 0#64 ∧ t.flags = { s.flags with n := false, z := true }
    else Ieee.value64 t.f[fx] = .nan ∧ t.flags = { s.flags with n := false, z := false }

/-- FCMP of two values, one of them a NaN or both the same infinity, clears N and Z, whatever the free NaN is (R224; D16,
log 13). -/
def Obligations.FloatCompareUnordered : Prop :=
  ∀ (fx fy : FReg) (s : State),
    Ieee.value64 s.f[fx] = .nan ∨ Ieee.value64 s.f[fy] = .nan ∨ (Ieee.isInfinite s.f[fx] = true ∧ s.f[fx] = s.f[fy]) →
    ∃ t, exec (.fcmp fx fy) s = .next t ∧ t.flags = { s.flags with n := false, z := false } ∧ t.f = s.f

/-- The default addition and multiplication commute, as R210 asks of a record of numerics (D16, log 13). -/
def Obligations.FloatCommutes : Prop :=
  ∀ nan a b : Double, Ieee.add nan a b = Ieee.add nan b a ∧ Ieee.mul nan a b = Ieee.mul nan b a

/-- FLDD copies eight bytes unchanged and FLDS widens a single; no flag, no integer register and no memory changes (R219,
R220; D16, D17, D19). That FLDS counts a draw, and that a NaN comes out as the free quiet NaN of that draw, are the
model's choices of log 11 and log 12. -/
def Obligations.FloatLoads : Prop :=
  ∀ (disp : Int) (rx : IReg) (fy : FReg) (s : State),
    let ea := (s.advance 4).ea rx disp
    (readable s 8 ea → exec (.fldd disp rx fy) s =
      .next { s with pc := s.pc + 4#32, f := s.f.set fy (longAt s ea) }) ∧
    (readable s 4 ea → exec (.flds disp rx fy) s =
      .next { s with
        pc := s.pc + 4#32
        f := s.f.set fy (Ieee.widen (Ieee.quietNaN64 (Config.freeNaN64 s.draws)) (wordAt s ea))
        draws := s.draws + 1 })

/-- FSTD stores eight bytes unchanged and FSTS four of the register rounded to single; only the bytes stored, the PC and,
for FSTS, the count of draws change (R221, R222; D16, D17, D19). The count of draws, and that a NaN is stored as the
free quiet NaN of that draw, are the model's choices of log 11 and log 12. -/
def Obligations.FloatStores : Prop :=
  ∀ (fx : FReg) (disp : Int) (ry : IReg) (s : State), Memory.wf s.mem →
    let ea := (s.advance 4).ea ry disp
    (storable s 8 ea → ∃ t, exec (.fstd fx disp ry) s = .next t ∧ t = { s with pc := s.pc + 4#32, mem := t.mem } ∧
      holdsLong t ea s.f[fx] ∧ sameOutside s t ea 8) ∧
    (storable s 4 ea → ∃ t, exec (.fsts fx disp ry) s = .next t ∧
      t = { s with pc := s.pc + 4#32, mem := t.mem, draws := s.draws + 1 } ∧
      holdsWord t ea (Ieee.narrow (Ieee.quietNaN32 (Config.freeNaN32 s.draws)) s.f[fx]) ∧ sameOutside s t ea 4)

/-- R57: LBZX and LWZX clear the upper bits of the destination, LBSX and LWSX fill them with the most significant bit of the
byte or word loaded, and LLSX and LLZX do the same thing: both load 32 bits unchanged. Said of R0 to R11 as destination
and as base, where nothing else changes; the other registers are in MixedWidthView. That the access is aligned and
valid is a hypothesis. -/
def Obligations.NarrowLoadsWiden : Prop :=
  ∀ (disp : Int) (x y : Fin 12) (s : State),
    let ea := s.r[x] + BitVec.ofInt 32 disp
    let byte := s.byte ea
    let word := halfAt s ea
    let loads (i : Instr) (v : Word) : Prop := exec i s = .next { s with pc := s.pc + 4#32, r := s.r.set y v }
    (readable s 1 ea →
      loads (.lbzx disp (.r x) (.r y)) (0#24 ++ byte) ∧
      loads (.lbsx disp (.r x) (.r y)) ((if byte.msb then 0xFFFFFF#24 else 0#24) ++ byte)) ∧
    (readable s 2 ea →
      loads (.lwzx disp (.r x) (.r y)) (0#16 ++ word) ∧
      loads (.lwsx disp (.r x) (.r y)) ((if word.msb then 0xFFFF#16 else 0#16) ++ word)) ∧
    (readable s 4 ea → loads (.llzx disp (.r x) (.r y)) (wordAt s ea)) ∧
    exec (.llsx disp (.r x) (.r y)) s = exec (.llzx disp (.r x) (.r y)) s

/-- STB, STW and STL store the low 8, the low 16 and all 32 bits of the source, most significant byte at the lowest address;
only those bytes and the PC change (R247, R248, R249, R250, R52; D17, D19, D7). -/
def Obligations.IntegerStores : Prop :=
  ∀ (rx : IReg) (disp : Int) (ry : IReg) (s : State), Memory.wf s.mem →
    let ea := (s.advance 4).ea ry disp
    let v := operandOf s 4 rx
    (storable s 1 ea → ∃ t, exec (.stb rx disp ry) s = .next t ∧ t = { s with pc := s.pc + 4#32, mem := t.mem } ∧
      t.byte ea = v.extractLsb' 0 8 ∧ sameOutside s t ea 1) ∧
    (storable s 2 ea → ∃ t, exec (.stw rx disp ry) s = .next t ∧ t = { s with pc := s.pc + 4#32, mem := t.mem } ∧
      holdsHalf t ea (v.extractLsb' 0 16) ∧ sameOutside s t ea 2) ∧
    (storable s 4 ea → ∃ t, exec (.stl rx disp ry) s = .next t ∧ t = { s with pc := s.pc + 4#32, mem := t.mem } ∧
      holdsWord t ea v ∧ sameOutside s t ea 4)

/-- Every load and store traps on an address that is not a multiple of its width, and otherwise on a byte that is not valid
or, for a store, not writable; the exception is taken in the state before the instruction (R56, R60, R66, R250, R320;
D17, D19, D30). -/
def Obligations.DataAccessTraps : Prop :=
  ∀ (disp : Int) (rx ry : IReg) (fr : FReg) (s : State),
    let la := (s.advance 4).ea rx disp
    let sa := (s.advance 4).ea ry disp
    let traps (i : Instr) (n : Nat) (a : Word) (may : Word → Bool) : Prop :=
      (a.toNat % n ≠ 0 → exec i s = takeException (.illegalBusAccess a) s) ∧
        (a.toNat % n = 0 → (∃ k, k < n ∧ may (a + BitVec.ofNat 32 k) = false) →
          exec i s = takeException (.invalidMemoryAccess a) s)
    traps (.lbzx disp rx ry) 1 la s.valid ∧ traps (.lbsx disp rx ry) 1 la s.valid ∧
      traps (.lwzx disp rx ry) 2 la s.valid ∧ traps (.lwsx disp rx ry) 2 la s.valid ∧
      traps (.llzx disp rx ry) 4 la s.valid ∧ traps (.llsx disp rx ry) 4 la s.valid ∧
      traps (.flds disp rx fr) 4 la s.valid ∧ traps (.fldd disp rx fr) 8 la s.valid ∧
      traps (.stb rx disp ry) 1 sa s.writable ∧ traps (.stw rx disp ry) 2 sa s.writable ∧
      traps (.stl rx disp ry) 4 sa s.writable ∧ traps (.fsts fr disp ry) 4 sa s.writable ∧
      traps (.fstd fr disp ry) 8 sa s.writable

/-- The mixed-width view of memory. Every load, with any of the sixteen registers as base and destination, answers the
bytes at its address, most significant first, extended as it says, and changes nothing else; and after a 32-bit store
the narrower reads at the four addresses see its bytes in that order, and a read of the same width gives the value back
(R52, R54, R57; D7, D17, D19, log 14). -/
def Obligations.MixedWidthView : Prop :=
  (∀ (disp : Int) (rx ry : IReg) (s : State),
    let ea := (s.advance 4).ea rx disp
    let byte := s.byte ea
    let word := halfAt s ea
    (readable s 1 ea →
      exec (.lbzx disp rx ry) s = .next (withResult s 4 ry (0#24 ++ byte)) ∧
      exec (.lbsx disp rx ry) s = .next (withResult s 4 ry ((if byte.msb then 0xFFFFFF#24 else 0#24) ++ byte))) ∧
    (readable s 2 ea →
      exec (.lwzx disp rx ry) s = .next (withResult s 4 ry (0#16 ++ word)) ∧
      exec (.lwsx disp rx ry) s = .next (withResult s 4 ry ((if word.msb then 0xFFFF#16 else 0#16) ++ word))) ∧
    (readable s 4 ea →
      exec (.llzx disp rx ry) s = .next (withResult s 4 ry (wordAt s ea)) ∧
      exec (.llsx disp rx ry) s = .next (withResult s 4 ry (wordAt s ea))) ∧
    exec (.llsx disp rx ry) s = exec (.llzx disp rx ry) s) ∧
  ∀ (v : Word) (s : State) (disp : Int) (rx ry : IReg), Memory.wf s.mem →
    let ea := (s.advance 4).ea ry disp
    operandOf s 4 rx = v → storable s 4 ea →
    ∃ t, exec (.stl rx disp ry) s = .next t ∧ t.load32 ea = v ∧ t.load16 ea = v.extractLsb' 16 16 ∧
      t.load16 (ea + 2#32) = v.extractLsb' 0 16 ∧ t.load8 ea = v.extractLsb' 24 8 ∧
      t.load8 (ea + 1#32) = v.extractLsb' 16 8 ∧ t.load8 (ea + 2#32) = v.extractLsb' 8 8 ∧
      t.load8 (ea + 3#32) = v.extractLsb' 0 8

/-- LIMS, LILO, ORHI and NOP: the sign-extended constant, the zero-extended constant, the constant or-ed into the upper
half, nothing; for every register as destination, and no flag changes unless it is the CCR (R261 to R264; D7, D31). -/
def Obligations.ImmediateLoads : Prop :=
  ∀ (imm5 : BitVec 5) (imm16 : BitVec 16) (ry : IReg) (s : State),
    exec (.lims imm5.toInt ry) s = .next (withResult s 2 ry (imm5.signExtend 32)) ∧
      exec (.lilo imm16 ry) s = .next (withResult s 4 ry (0#16 ++ imm16)) ∧
      exec (.orhi imm16 ry) s = .next (withResult s 4 ry (operandOf s 4 ry ||| (imm16 ++ 0#16))) ∧
      exec .nop s = .next { s with pc := s.pc + 2#32 }

/-- LEAA and LIMM, the two instructions they expand to, put the 32-bit constant in the register and change nothing else,
for every destination but the PC (R112, R270, R271 by R264 and R263; SP, FP and CCR as destinations, 12 to 14, are D6 and
D7, log 14). -/
def Obligations.LoadConstantPair : Prop :=
  ∀ (imm : Word) (ry : IReg) (s : State), ry ≠ .pc →
    limm imm.toInt ry = leaa imm ry ∧
      ∃ i j t, leaa imm ry = [i, j] ∧ i.size = 4 ∧ j.size = 4 ∧ exec i s = .next t ∧
        exec j t = .next (withResult s 8 ry imm)

/-- SYSCALL with 0 in R0 ends the run with the status in R1: the return address has been pushed, and nothing else has
changed (R260, R278; D22, D34; that the PC stays is log 10). -/
def Obligations.SyscallExit : Prop :=
  ∀ s : State, Memory.wf s.mem → storable s 4 s.pushSp → s.r[0] = 0#32 →
    ∃ t, exec .syscall s = .next t ∧ t = { s with sp := s.pushSp, mem := t.mem, run := .exited s.r[1] } ∧
      holdsWord t s.pushSp (s.pc + 2#32) ∧ sameOutside s t s.pushSp 4

/-- SYSCALL with any other number returns: PC at `A + 2`, SP, FP and flags as before, the pushed word left below SP, the
map, the run and the vectors as before, and beside the slot no byte changed but those that the host may write, all of
them writable, in the host's region or where the parameters lead. SYS_FILES answers 0, with a pointer in the variable at
R1 that leads to an array of names, one for each open descriptor and a null pointer behind them, or it answers EACCES;
SYS_LIBCALL answers 0 or EACCES where its parameters are as described, and may write its name, its structure and its
array; a library that SYS_LIBOPEN opened is among the libraries under the handle in R0 (R260, R273, R274, R276; D20,
D22; that every call returns is log 9, the bytes are log 26, the answers log 27). -/
def Obligations.SyscallReturns : Prop :=
  ∀ s : State, StateInv s → storable s 4 s.pushSp → s.r[0] ≠ 0#32 →
    let p := calledFrom s
    let o := Params.syscallOracle
    let reply := o.reply p
    ∃ t, exec .syscall s = .next t ∧ t.pc = s.pc + 2#32 ∧ t.sp = s.sp ∧ t.fp = s.fp ∧ t.flags = s.flags ∧
      t.regions = s.regions ∧ t.run = s.run ∧ holdsWord t s.pushSp (s.pc + 2#32) ∧ StateInv t ∧
      (∀ a, s.writable a = false → t.byte a = s.byte a) ∧ t.host.vectors = s.host.vectors ∧
      (∀ a, p.hostMayWrite o a = false → inRange s.pushSp 4 a = false → t.byte a = s.byte a) ∧
      (∀ a, p.hostMayWrite o a = true → s.writable a = true ∧ inRange s.pushSp 4 a = false ∧
        (p.inHostMemory a = true ∨ ∃ d ∈ p.designated o, inRange d.1 d.2 a = true)) ∧
      (s.r[0] = 0x85#32 → p.designated o = (s.r[1], 4) :: o.filesStorage p ∧
        ((∀ i, i < 4 → p.hostMayWrite o (s.r[1] + BitVec.ofNat 32 i) = true) →
          (t.r[0] = 0#32 ∧ holdsWord t s.r[1] reply.files ∧ namesAt t reply.files t.host.openFds.length) ∨
            (t.r[0] = o.eacces ∧ o.eacces ≠ 0#32))) ∧
      (s.r[0] = 0x82#32 → (s.r[2], p.stringSize p.validSize s.r[2]) ∈ p.designated o ∧ (s.r[3], 8) ∈ p.designated o ∧
        (wordAt p (s.r[3] + 4#32), p.libcallArraySize o) ∈ p.designated o ∧
        if p.libcallDescribed o then t.r[0] = 0#32 ∨ (t.r[0] = o.eacces ∧ o.eacces ≠ 0#32) else t.r[0] = reply.r[0]) ∧
      (s.r[0] = 0x80#32 → t.r[0] = reply.r[0] ∧
        if reply.opened then t.r[0].toNat ∈ t.host.libs else t.host.libs = reply.host.libs)

/-- Every stack access is one slot of four bytes, big-endian, at the address in SP after a push or before a pop, and RETS
releases its further slots by moving SP alone, without touching memory (R58). Said of all six instructions; a push
changes the bytes of its slot and no other, a pop changes no memory. That a SYSCALL always returns and pops is D22 and
log 9, SP at an exit is log 10, and operands 14 and 15 are D7. What SP itself as the operand means is StackOperands. -/
def Obligations.StackSlots : Prop :=
  (∀ s : State, Memory.wf s.mem → storable s 4 s.pushSp →
    s.pushSp = s.sp - 4#32 ∧
    (∀ rx, ∃ t v, exec (.pushl rx) s = .next t ∧ t.sp = s.pushSp ∧ holdsWord t s.pushSp v ∧
      (rx ≠ .sp → v = operandOf s 2 rx) ∧ sameOutside s t s.pushSp 4) ∧
    (∀ rx, ∃ t, exec (.call rx) s = .next t ∧ t.sp = s.pushSp ∧ holdsWord t s.pushSp (s.pc + 2#32) ∧
      sameOutside s t s.pushSp 4) ∧
    (∀ d, ∃ t, exec (.bsrl d) s = .next t ∧ t.sp = s.pushSp ∧ holdsWord t s.pushSp (s.pc + 4#32) ∧
      sameOutside s t s.pushSp 4) ∧
    (s.r[0] = 0#32 → ∃ t, exec .syscall s = .next t ∧ t.sp = s.pushSp ∧ holdsWord t s.pushSp (s.pc + 2#32) ∧
      sameOutside s t s.pushSp 4) ∧
    (s.r[0] ≠ 0#32 → ∃ t, exec .syscall s = .next t ∧ holdsWord t s.pushSp (s.pc + 2#32) ∧
      t.pc = wordAt t s.pushSp ∧ t.sp = s.pushSp + 4#32)) ∧
  (∀ s : State, readable s 4 s.sp →
    (∀ rx, ∃ t, exec (.popl rx) s = .next t ∧ t.mem = s.mem ∧
      (rx ≠ .sp → t = { withResult s 2 rx (wordAt s s.sp) with sp := s.sp + 4#32 })) ∧
    (∀ slots, exec (.rets slots) s =
      .next { s with pc := wordAt s s.sp, sp := s.sp + 4#32 + 4#32 * BitVec.ofInt 32 slots }))

/-- PUSHL, CALL, BSRL and POPL for every register, SP among them: PUSHL SP stores the decremented SP, CALL (SP) goes to it,
and POPL SP adds 4 to the loaded value; nothing changes but the registers named, the slot and the PC (R281, R283 to R286;
the order of the steps is decision D29). -/
def Obligations.StackOperands : Prop :=
  (∀ s : State, Memory.wf s.mem → storable s 4 s.pushSp →
    (∀ rx, ∃ t, exec (.pushl rx) s = .next t ∧ t = { s with pc := s.pc + 2#32, sp := s.pushSp, mem := t.mem } ∧
      holdsWord t s.pushSp (if rx = .sp then s.pushSp else operandOf s 2 rx) ∧ sameOutside s t s.pushSp 4) ∧
    (∀ rx, ∃ t, exec (.call rx) s = .next t ∧
      t = { s with pc := if rx = .sp then s.pushSp else operandOf s 2 rx, sp := s.pushSp, mem := t.mem } ∧
      holdsWord t s.pushSp (s.pc + 2#32) ∧ sameOutside s t s.pushSp 4) ∧
    (∀ d, ∃ t, exec (.bsrl d) s = .next t ∧
      t = { s with pc := s.pc + 4#32 + BitVec.ofInt 32 d, sp := s.pushSp, mem := t.mem } ∧
      holdsWord t s.pushSp (s.pc + 4#32) ∧ sameOutside s t s.pushSp 4)) ∧
  (∀ (s : State) (rx : IReg), readable s 4 s.sp → exec (.popl rx) s =
    .next { withResult s 2 rx (wordAt s s.sp) with sp := (if rx = .sp then wordAt s s.sp else s.sp) + 4#32 })

/-- Every stack instruction traps on a slot that is misaligned, and otherwise on one that is not valid or, for a push, not
writable; SP and everything else stay, and the host is not called (R56, R60, R280, R320; D17, D19, D21, D30). -/
def Obligations.StackTraps : Prop :=
  ∀ s : State,
    let traps (i : Instr) (a : Word) (may : Word → Bool) : Prop :=
      (a.toNat % 4 ≠ 0 → exec i s = takeException (.illegalBusAccess a) s) ∧
        (a.toNat % 4 = 0 → (∃ k, k < 4 ∧ may (a + BitVec.ofNat 32 k) = false) →
          exec i s = takeException (.invalidMemoryAccess a) s)
    (∀ rx, traps (.pushl rx) (s.sp - 4#32) s.writable) ∧ (∀ rx, traps (.call rx) (s.sp - 4#32) s.writable) ∧
      (∀ d, traps (.bsrl d) (s.sp - 4#32) s.writable) ∧ traps .syscall (s.sp - 4#32) s.writable ∧
      (∀ rx, traps (.popl rx) s.sp s.valid) ∧ (∀ n, traps (.rets n) s.sp s.valid)

/-- A call and the plain return come back: after CALL or BSRL, RETS #0 and POPL PC lead to the instruction after the call
with SP as before (R281, R282, R283, R286). -/
def Obligations.CallThenReturn : Prop :=
  ∀ s : State, Memory.wf s.mem → storable s 4 s.pushSp →
    ∀ i : Instr, (∃ rx, i = .call rx) ∨ (∃ d, i = .bsrl d) →
      ∃ t u, exec i s = .next t ∧ exec (.rets 0) t = .next u ∧ exec (.popl .pc) t = .next u ∧
        u = { s with pc := s.pc + BitVec.ofNat 32 i.size, mem := u.mem } ∧ sameOutside s u s.pushSp 4

/-- A register pushed and popped again comes back, with SP as before, for R0 to R11, FP and the CCR (R284, R285, R286;
D6). -/
def Obligations.PushThenPop : Prop :=
  ∀ (s : State) (rx : IReg), Memory.wf s.mem → storable s 4 s.pushSp → rx ≠ .sp → rx ≠ .pc →
    ∃ t u, exec (.pushl rx) s = .next t ∧ exec (.popl rx) t = .next u ∧
      u = { s with pc := s.pc + 4#32, mem := u.mem } ∧ sameOutside s u s.pushSp 4

/-- The numbers that floating-point results are, said of the bit fields and not of the model's arithmetic. For finite
operands FCMP sets Z exactly if the two denote equal numbers (so +0.0 and -0.0 compare equal) and N exactly if FPy is
below FPx (R224); a sum, difference, product, negation or quotient that a double holds is the result, with N and Z its
sign (R211 to R218); FLDS is exact, sign of zero included, for every single that is not a NaN, and FSTS of the loaded
value stores the same four bytes (R220, R222). Rests on D16 and log 13; the count of draws is log 11. -/
def Obligations.FloatValues : Prop :=
  (∀ (fx fy : FReg) (s : State), finiteDouble s.f[fx] → finiteDouble s.f[fy] →
    let a := doubleValue s.f[fx]; let b := doubleValue s.f[fy]
    exec (.fcmp fx fy) s = .next { s with
      pc := s.pc + 2#32
      flags := { c := s.flags.c, ov := s.flags.ov, n := decide (b < a), z := decide (b = a) }
      draws := s.draws + 1 }) ∧
  (∀ (fx fy : FReg) (s : State) (d : Double), finiteDouble s.f[fx] → finiteDouble s.f[fy] → finiteDouble d →
    let a := doubleValue s.f[fx]; let b := doubleValue s.f[fy]; let r := doubleValue d
    let gives (i : Instr) : Prop := ∃ t, exec i s = .next t ∧ finiteDouble t.f[fy] ∧ doubleValue t.f[fy] = r ∧
      t.flags.n = decide (r < 0) ∧ t.flags.z = decide (r = 0)
    (r = b + a → gives (.fadd fx fy)) ∧ (r = b - a → gives (.fsub fx fy)) ∧ (r = b * a → gives (.fmul fx fy)) ∧
      (r = -a → gives (.fneg fx fy)) ∧ (a ≠ 0 → r = b / a → gives (.fdiv fx fy))) ∧
  (∀ (disp : Int) (rx : IReg) (fy : FReg) (s : State),
    let ea := (s.advance 4).ea rx disp
    let w := wordAt s ea
    readable s 4 ea → ¬nanSingle w → ∃ t, exec (.flds disp rx fy) s = .next t ∧
      (finiteSingle w →
        finiteDouble t.f[fy] ∧ doubleValue t.f[fy] = singleValue w ∧ t.f[fy].msb = w.msb) ∧
      (w = 0x7F800000#32 → t.f[fy] = 0x7FF0000000000000#64) ∧
      (w = 0xFF800000#32 → t.f[fy] = 0xFFF0000000000000#64) ∧
      ∀ (fx : FReg) (disp' : Int) (ry : IReg) (u : State), Memory.wf u.mem → u.f[fx] = t.f[fy] →
        let ea' := (u.advance 4).ea ry disp'
        storable u 4 ea' → ∃ v, exec (.fsts fx disp' ry) u = .next v ∧ holdsWord v ea' w)
end

