-- ==== Sys2Proof/Laws/State.lean ====
section
/-! SUPPORT. One lemma for each field after each update of State, all true by rfl, so that no proof unfolds a record
update. -/

namespace Sys2Proof.Machine.State

@[simp] theorem withR_r (s : State) (v : Vector Word 12) : (s.withR v).r = v := rfl
@[simp] theorem withR_sp (s : State) (v : Vector Word 12) : (s.withR v).sp = s.sp := rfl
@[simp] theorem withR_fp (s : State) (v : Vector Word 12) : (s.withR v).fp = s.fp := rfl
@[simp] theorem withR_pc (s : State) (v : Vector Word 12) : (s.withR v).pc = s.pc := rfl
@[simp] theorem withR_flags (s : State) (v : Vector Word 12) : (s.withR v).flags = s.flags := rfl
@[simp] theorem withR_f (s : State) (v : Vector Word 12) : (s.withR v).f = s.f := rfl
@[simp] theorem withR_mem (s : State) (v : Vector Word 12) : (s.withR v).mem = s.mem := rfl
@[simp] theorem withR_regions (s : State) (v : Vector Word 12) : (s.withR v).regions = s.regions := rfl
@[simp] theorem withR_host (s : State) (v : Vector Word 12) : (s.withR v).host = s.host := rfl
@[simp] theorem withR_run (s : State) (v : Vector Word 12) : (s.withR v).run = s.run := rfl
@[simp] theorem withR_draws (s : State) (v : Vector Word 12) : (s.withR v).draws = s.draws := rfl

@[simp] theorem withSp_r (s : State) (v : Word) : (s.withSp v).r = s.r := rfl
@[simp] theorem withSp_sp (s : State) (v : Word) : (s.withSp v).sp = v := rfl
@[simp] theorem withSp_fp (s : State) (v : Word) : (s.withSp v).fp = s.fp := rfl
@[simp] theorem withSp_pc (s : State) (v : Word) : (s.withSp v).pc = s.pc := rfl
@[simp] theorem withSp_flags (s : State) (v : Word) : (s.withSp v).flags = s.flags := rfl
@[simp] theorem withSp_f (s : State) (v : Word) : (s.withSp v).f = s.f := rfl
@[simp] theorem withSp_mem (s : State) (v : Word) : (s.withSp v).mem = s.mem := rfl
@[simp] theorem withSp_regions (s : State) (v : Word) : (s.withSp v).regions = s.regions := rfl
@[simp] theorem withSp_host (s : State) (v : Word) : (s.withSp v).host = s.host := rfl
@[simp] theorem withSp_run (s : State) (v : Word) : (s.withSp v).run = s.run := rfl
@[simp] theorem withSp_draws (s : State) (v : Word) : (s.withSp v).draws = s.draws := rfl

@[simp] theorem withFp_r (s : State) (v : Word) : (s.withFp v).r = s.r := rfl
@[simp] theorem withFp_sp (s : State) (v : Word) : (s.withFp v).sp = s.sp := rfl
@[simp] theorem withFp_fp (s : State) (v : Word) : (s.withFp v).fp = v := rfl
@[simp] theorem withFp_pc (s : State) (v : Word) : (s.withFp v).pc = s.pc := rfl
@[simp] theorem withFp_flags (s : State) (v : Word) : (s.withFp v).flags = s.flags := rfl
@[simp] theorem withFp_f (s : State) (v : Word) : (s.withFp v).f = s.f := rfl
@[simp] theorem withFp_mem (s : State) (v : Word) : (s.withFp v).mem = s.mem := rfl
@[simp] theorem withFp_regions (s : State) (v : Word) : (s.withFp v).regions = s.regions := rfl
@[simp] theorem withFp_host (s : State) (v : Word) : (s.withFp v).host = s.host := rfl
@[simp] theorem withFp_run (s : State) (v : Word) : (s.withFp v).run = s.run := rfl
@[simp] theorem withFp_draws (s : State) (v : Word) : (s.withFp v).draws = s.draws := rfl

@[simp] theorem withPc_r (s : State) (v : Word) : (s.withPc v).r = s.r := rfl
@[simp] theorem withPc_sp (s : State) (v : Word) : (s.withPc v).sp = s.sp := rfl
@[simp] theorem withPc_fp (s : State) (v : Word) : (s.withPc v).fp = s.fp := rfl
@[simp] theorem withPc_pc (s : State) (v : Word) : (s.withPc v).pc = v := rfl
@[simp] theorem withPc_flags (s : State) (v : Word) : (s.withPc v).flags = s.flags := rfl
@[simp] theorem withPc_f (s : State) (v : Word) : (s.withPc v).f = s.f := rfl
@[simp] theorem withPc_mem (s : State) (v : Word) : (s.withPc v).mem = s.mem := rfl
@[simp] theorem withPc_regions (s : State) (v : Word) : (s.withPc v).regions = s.regions := rfl
@[simp] theorem withPc_host (s : State) (v : Word) : (s.withPc v).host = s.host := rfl
@[simp] theorem withPc_run (s : State) (v : Word) : (s.withPc v).run = s.run := rfl
@[simp] theorem withPc_draws (s : State) (v : Word) : (s.withPc v).draws = s.draws := rfl

@[simp] theorem withFlags_r (s : State) (v : Flags) : (s.withFlags v).r = s.r := rfl
@[simp] theorem withFlags_sp (s : State) (v : Flags) : (s.withFlags v).sp = s.sp := rfl
@[simp] theorem withFlags_fp (s : State) (v : Flags) : (s.withFlags v).fp = s.fp := rfl
@[simp] theorem withFlags_pc (s : State) (v : Flags) : (s.withFlags v).pc = s.pc := rfl
@[simp] theorem withFlags_flags (s : State) (v : Flags) : (s.withFlags v).flags = v := rfl
@[simp] theorem withFlags_f (s : State) (v : Flags) : (s.withFlags v).f = s.f := rfl
@[simp] theorem withFlags_mem (s : State) (v : Flags) : (s.withFlags v).mem = s.mem := rfl
@[simp] theorem withFlags_regions (s : State) (v : Flags) : (s.withFlags v).regions = s.regions := rfl
@[simp] theorem withFlags_host (s : State) (v : Flags) : (s.withFlags v).host = s.host := rfl
@[simp] theorem withFlags_run (s : State) (v : Flags) : (s.withFlags v).run = s.run := rfl
@[simp] theorem withFlags_draws (s : State) (v : Flags) : (s.withFlags v).draws = s.draws := rfl

@[simp] theorem withF_r (s : State) (v : Vector Double 16) : (s.withF v).r = s.r := rfl
@[simp] theorem withF_sp (s : State) (v : Vector Double 16) : (s.withF v).sp = s.sp := rfl
@[simp] theorem withF_fp (s : State) (v : Vector Double 16) : (s.withF v).fp = s.fp := rfl
@[simp] theorem withF_pc (s : State) (v : Vector Double 16) : (s.withF v).pc = s.pc := rfl
@[simp] theorem withF_flags (s : State) (v : Vector Double 16) : (s.withF v).flags = s.flags := rfl
@[simp] theorem withF_f (s : State) (v : Vector Double 16) : (s.withF v).f = v := rfl
@[simp] theorem withF_mem (s : State) (v : Vector Double 16) : (s.withF v).mem = s.mem := rfl
@[simp] theorem withF_regions (s : State) (v : Vector Double 16) : (s.withF v).regions = s.regions := rfl
@[simp] theorem withF_host (s : State) (v : Vector Double 16) : (s.withF v).host = s.host := rfl
@[simp] theorem withF_run (s : State) (v : Vector Double 16) : (s.withF v).run = s.run := rfl
@[simp] theorem withF_draws (s : State) (v : Vector Double 16) : (s.withF v).draws = s.draws := rfl

@[simp] theorem withMem_r (s : State) (v : Memory) : (s.withMem v).r = s.r := rfl
@[simp] theorem withMem_sp (s : State) (v : Memory) : (s.withMem v).sp = s.sp := rfl
@[simp] theorem withMem_fp (s : State) (v : Memory) : (s.withMem v).fp = s.fp := rfl
@[simp] theorem withMem_pc (s : State) (v : Memory) : (s.withMem v).pc = s.pc := rfl
@[simp] theorem withMem_flags (s : State) (v : Memory) : (s.withMem v).flags = s.flags := rfl
@[simp] theorem withMem_f (s : State) (v : Memory) : (s.withMem v).f = s.f := rfl
@[simp] theorem withMem_mem (s : State) (v : Memory) : (s.withMem v).mem = v := rfl
@[simp] theorem withMem_regions (s : State) (v : Memory) : (s.withMem v).regions = s.regions := rfl
@[simp] theorem withMem_host (s : State) (v : Memory) : (s.withMem v).host = s.host := rfl
@[simp] theorem withMem_run (s : State) (v : Memory) : (s.withMem v).run = s.run := rfl
@[simp] theorem withMem_draws (s : State) (v : Memory) : (s.withMem v).draws = s.draws := rfl

@[simp] theorem withRegions_r (s : State) (v : List Region) : (s.withRegions v).r = s.r := rfl
@[simp] theorem withRegions_sp (s : State) (v : List Region) : (s.withRegions v).sp = s.sp := rfl
@[simp] theorem withRegions_fp (s : State) (v : List Region) : (s.withRegions v).fp = s.fp := rfl
@[simp] theorem withRegions_pc (s : State) (v : List Region) : (s.withRegions v).pc = s.pc := rfl
@[simp] theorem withRegions_flags (s : State) (v : List Region) : (s.withRegions v).flags = s.flags := rfl
@[simp] theorem withRegions_f (s : State) (v : List Region) : (s.withRegions v).f = s.f := rfl
@[simp] theorem withRegions_mem (s : State) (v : List Region) : (s.withRegions v).mem = s.mem := rfl
@[simp] theorem withRegions_regions (s : State) (v : List Region) : (s.withRegions v).regions = v := rfl
@[simp] theorem withRegions_host (s : State) (v : List Region) : (s.withRegions v).host = s.host := rfl
@[simp] theorem withRegions_run (s : State) (v : List Region) : (s.withRegions v).run = s.run := rfl
@[simp] theorem withRegions_draws (s : State) (v : List Region) : (s.withRegions v).draws = s.draws := rfl

@[simp] theorem withHost_r (s : State) (v : HostState) : (s.withHost v).r = s.r := rfl
@[simp] theorem withHost_sp (s : State) (v : HostState) : (s.withHost v).sp = s.sp := rfl
@[simp] theorem withHost_fp (s : State) (v : HostState) : (s.withHost v).fp = s.fp := rfl
@[simp] theorem withHost_pc (s : State) (v : HostState) : (s.withHost v).pc = s.pc := rfl
@[simp] theorem withHost_flags (s : State) (v : HostState) : (s.withHost v).flags = s.flags := rfl
@[simp] theorem withHost_f (s : State) (v : HostState) : (s.withHost v).f = s.f := rfl
@[simp] theorem withHost_mem (s : State) (v : HostState) : (s.withHost v).mem = s.mem := rfl
@[simp] theorem withHost_regions (s : State) (v : HostState) : (s.withHost v).regions = s.regions := rfl
@[simp] theorem withHost_host (s : State) (v : HostState) : (s.withHost v).host = v := rfl
@[simp] theorem withHost_run (s : State) (v : HostState) : (s.withHost v).run = s.run := rfl
@[simp] theorem withHost_draws (s : State) (v : HostState) : (s.withHost v).draws = s.draws := rfl

@[simp] theorem withRun_r (s : State) (v : RunStatus) : (s.withRun v).r = s.r := rfl
@[simp] theorem withRun_sp (s : State) (v : RunStatus) : (s.withRun v).sp = s.sp := rfl
@[simp] theorem withRun_fp (s : State) (v : RunStatus) : (s.withRun v).fp = s.fp := rfl
@[simp] theorem withRun_pc (s : State) (v : RunStatus) : (s.withRun v).pc = s.pc := rfl
@[simp] theorem withRun_flags (s : State) (v : RunStatus) : (s.withRun v).flags = s.flags := rfl
@[simp] theorem withRun_f (s : State) (v : RunStatus) : (s.withRun v).f = s.f := rfl
@[simp] theorem withRun_mem (s : State) (v : RunStatus) : (s.withRun v).mem = s.mem := rfl
@[simp] theorem withRun_regions (s : State) (v : RunStatus) : (s.withRun v).regions = s.regions := rfl
@[simp] theorem withRun_host (s : State) (v : RunStatus) : (s.withRun v).host = s.host := rfl
@[simp] theorem withRun_run (s : State) (v : RunStatus) : (s.withRun v).run = v := rfl
@[simp] theorem withRun_draws (s : State) (v : RunStatus) : (s.withRun v).draws = s.draws := rfl

@[simp] theorem withDraws_r (s : State) (v : Nat) : (s.withDraws v).r = s.r := rfl
@[simp] theorem withDraws_sp (s : State) (v : Nat) : (s.withDraws v).sp = s.sp := rfl
@[simp] theorem withDraws_fp (s : State) (v : Nat) : (s.withDraws v).fp = s.fp := rfl
@[simp] theorem withDraws_pc (s : State) (v : Nat) : (s.withDraws v).pc = s.pc := rfl
@[simp] theorem withDraws_flags (s : State) (v : Nat) : (s.withDraws v).flags = s.flags := rfl
@[simp] theorem withDraws_f (s : State) (v : Nat) : (s.withDraws v).f = s.f := rfl
@[simp] theorem withDraws_mem (s : State) (v : Nat) : (s.withDraws v).mem = s.mem := rfl
@[simp] theorem withDraws_regions (s : State) (v : Nat) : (s.withDraws v).regions = s.regions := rfl
@[simp] theorem withDraws_host (s : State) (v : Nat) : (s.withDraws v).host = s.host := rfl
@[simp] theorem withDraws_run (s : State) (v : Nat) : (s.withDraws v).run = s.run := rfl
@[simp] theorem withDraws_draws (s : State) (v : Nat) : (s.withDraws v).draws = v := rfl

/-- The last write of a field stands. -/
@[simp] theorem withR_withR (s : State) (v w : Vector Word 12) : (s.withR v).withR w = s.withR w := rfl
/-- The last write of a field stands. -/
@[simp] theorem withSp_withSp (s : State) (v w : Word) : (s.withSp v).withSp w = s.withSp w := rfl
/-- The last write of a field stands. -/
@[simp] theorem withFp_withFp (s : State) (v w : Word) : (s.withFp v).withFp w = s.withFp w := rfl
/-- The last write of a field stands. -/
@[simp] theorem withPc_withPc (s : State) (v w : Word) : (s.withPc v).withPc w = s.withPc w := rfl
/-- The last write of a field stands. -/
@[simp] theorem withFlags_withFlags (s : State) (v w : Flags) : (s.withFlags v).withFlags w = s.withFlags w := rfl
/-- The last write of a field stands. -/
@[simp] theorem withF_withF (s : State) (v w : Vector Double 16) : (s.withF v).withF w = s.withF w := rfl
/-- The last write of a field stands. -/
@[simp] theorem withMem_withMem (s : State) (v w : Memory) : (s.withMem v).withMem w = s.withMem w := rfl
/-- The last write of a field stands. -/
@[simp] theorem withRegions_withRegions (s : State) (v w : List Region) : (s.withRegions v).withRegions w = s.withRegions w := rfl
/-- The last write of a field stands. -/
@[simp] theorem withHost_withHost (s : State) (v w : HostState) : (s.withHost v).withHost w = s.withHost w := rfl
/-- The last write of a field stands. -/
@[simp] theorem withRun_withRun (s : State) (v w : RunStatus) : (s.withRun v).withRun w = s.withRun w := rfl
/-- The last write of a field stands. -/
@[simp] theorem withDraws_withDraws (s : State) (v w : Nat) : (s.withDraws v).withDraws w = s.withDraws w := rfl

end Sys2Proof.Machine.State
end

