-- ==== Sys2Proof/Laws/Memory.lean ====
section
/-! SUPPORT. The laws of the byte memory: reading after writing, the canonical form kept by every operation, and
the bytes that each wide store leaves and changes. -/

namespace Sys2Proof.Machine.Memory

@[simp] theorem find_nil (a : Nat) : find [] a = none := rfl

/-- One byte written, any byte read. -/
theorem find_store (m : Memory) (a b : Nat) (v : Byte) (h : m.Pairwise (fun x y => x.1 < y.1)) :
    find (store m a v) b = if a = b then some v else find m b := by
  induction m with
  | nil => simp [store, find]
  | cons c m ih =>
    obtain ⟨k, w⟩ := c
    rw [List.pairwise_cons] at h
    have hlt : ∀ c ∈ m, k < c.1 := fun c hc => h.1 c hc
    have hnone : ∀ d, d ≤ k → find m d = none := by
      intro d hd
      clear ih h
      induction m with
      | nil => rfl
      | cons e m ihm =>
        have he := hlt e (by simp)
        have hne : e.1 ≠ d := by omega
        simp only [find, if_neg hne]
        exact ihm fun c hc => hlt c (by simp [hc])
    unfold store
    split
    · simp only [find]
    · split
      · subst_vars
        simp only [find]
        split <;> simp_all
      · simp only [find, ih h.2]
        by_cases hkb : k = b
        · subst hkb
          simp_all
        · simp [hkb]

/-- Every address of the memory after a store is the one stored to or was there before. -/
theorem mem_store {m : Memory} {a : Nat} {v : Byte} {c : Host.Cell} (h : c ∈ store m a v) : c = (a, v) ∨ c ∈ m := by
  induction m with
  | nil => simpa [store] using h
  | cons d m ih =>
    obtain ⟨k, w⟩ := d
    unfold store at h
    split at h
    · simpa using h
    · split at h
      · rw [List.mem_cons] at h ⊢
        tauto
      · rw [List.mem_cons] at h ⊢
        rcases h with h | h
        · exact .inr (.inl h)
        · exact (ih h).imp id .inr

/-- A store keeps the addresses rising. -/
theorem store_pairwise {m : Memory} (a : Nat) (v : Byte) (h : m.Pairwise (fun x y => x.1 < y.1)) :
    (store m a v).Pairwise (fun x y => x.1 < y.1) := by
  induction m with
  | nil => simp [store]
  | cons d m ih =>
    obtain ⟨k, w⟩ := d
    rw [List.pairwise_cons] at h
    unfold store
    split
    · rename_i hak
      rw [List.pairwise_cons, List.pairwise_cons]
      refine ⟨?_, h⟩
      intro c hc
      rcases List.mem_cons.1 hc with rfl | hc
      · exact hak
      · exact lt_trans hak (h.1 c hc)
    · split
      · subst_vars
        exact List.pairwise_cons.2 ⟨h.1, h.2⟩
      · rw [List.pairwise_cons]
        refine ⟨?_, ih h.2⟩
        intro c hc
        rcases mem_store hc with rfl | hc
        · show k < a
          omega
        · exact h.1 c hc

/-- A store at a 32-bit address keeps the canonical form. -/
theorem store8_wf {m : Memory} (a : Word) (v : Byte) (h : wf m) : wf (store8 m a v) := by
  refine ⟨store_pairwise _ _ h.1, fun c hc => ?_⟩
  rcases mem_store hc with rfl | hc
  · exact a.isLt
  · exact h.2 c hc

theorem store16_wf {m : Memory} (a : Word) (v : Half) (h : wf m) : wf (store16 m a v) := store8_wf _ _ (store8_wf _ _ h)

theorem store32_wf {m : Memory} (a : Word) (v : Word) (h : wf m) : wf (store32 m a v) := store16_wf _ _ (store16_wf _ _ h)

theorem store64_wf {m : Memory} (a : Word) (v : BitVec 64) (h : wf m) : wf (store64 m a v) :=
  store32_wf _ _ (store32_wf _ _ h)

theorem storeCells_wf {m : Memory} (may : Word → Bool) (cells : List Host.Cell) (h : wf m) :
    wf (storeCells m may cells) := by
  induction cells generalizing m with
  | nil => exact h
  | cons c cells ih =>
    rw [storeCells, List.foldl_cons]
    split
    · exact ih (store8_wf _ _ h)
    · exact ih h

/-- Two lists of bytes written in turn. -/
theorem storeCells_append (m : Memory) (may : Word → Bool) (xs ys : List Host.Cell) :
    storeCells m may (xs ++ ys) = storeCells (storeCells m may xs) may ys := List.foldl_append

theorem wf_nil : wf [] := ⟨List.Pairwise.nil, by simp⟩

/-- One byte written at a 32-bit address, any byte read. -/
theorem find_store8 {m : Memory} (h : wf m) (a b : Word) (v : Byte) :
    find (store8 m a v) b.toNat = if a = b then some v else find m b.toNat := by
  rw [store8, find_store _ _ _ _ h.1]
  simp [BitVec.toNat_inj]

/-- Bytes written through a filter leave every address that the filter refuses. -/
theorem find_storeCells {m : Memory} (may : Word → Bool) (cells : List Host.Cell) (h : wf m) (b : Word)
    (hb : may b = false) : find (storeCells m may cells) b.toNat = find m b.toNat := by
  induction cells generalizing m with
  | nil => rfl
  | cons c cells ih =>
    rw [storeCells, List.foldl_cons]
    split
    · rename_i hc
      have hne : BitVec.ofNat 32 c.1 ≠ b := by
        rintro rfl
        simp_all
      exact (ih (store8_wf _ _ h)).trans (by rw [find_store8 h, if_neg hne])
    · exact ih h

end Sys2Proof.Machine.Memory

namespace Sys2Proof.Machine

/-- `p` holds of each of the `n` bytes. -/
theorem everyByte_iff (p : Word → Bool) (a : Word) (n : Nat) :
    everyByte p a n = true ↔ ∀ i, i < n → p (a + BitVec.ofNat 32 i) = true := by
  induction n with
  | zero => simp [everyByte]
  | succ n ih =>
    rw [everyByte, Bool.and_eq_true, ih]
    constructor
    · rintro ⟨h, hn⟩ i hi
      rcases Nat.lt_succ_iff_lt_or_eq.1 hi with hi | rfl
      · exact h i hi
      · exact hn
    · intro h
      exact ⟨fun i hi => h i (by omega), h n (by omega)⟩

/-- An address lies in a range exactly if it is the base plus an offset below the length. -/
theorem inRange_iff (a : Word) (n : Nat) (b : Word) (hn : n ≤ 4294967296) :
    inRange a n b = true ↔ ∃ i, i < n ∧ b = a + BitVec.ofNat 32 i := by
  simp only [inRange, decide_eq_true_eq]
  constructor
  · intro h
    refine ⟨(b - a).toNat, h, ?_⟩
    rw [BitVec.ofNat_toNat, BitVec.setWidth_eq, BitVec.add_comm, BitVec.sub_add_cancel]
  · rintro ⟨i, hi, rfl⟩
    have : (a + BitVec.ofNat 32 i - a) = BitVec.ofNat 32 i := by
      rw [BitVec.add_comm, BitVec.add_sub_cancel]
    rw [this, BitVec.toNat_ofNat]
    exact lt_of_le_of_lt (Nat.mod_le _ _) hi

end Sys2Proof.Machine
end

