-- ==== Sys2Proof/Laws/Bytes.lean ====
section
/-! SUPPORT. What the wide stores do to each byte, and that a load of the same width reads back what a store wrote
(R52, R54). -/

namespace Sys2Proof.Machine.Memory

/-- An address outside a range is none of its bytes. -/
theorem ne_of_outside {a b : Word} {n i : Nat} (hn : n ≤ 4294967296) (h : inRange a n b = false) (hi : i < n) :
    a + BitVec.ofNat 32 i ≠ b := by
  rintro rfl
  rw [(inRange_iff a n _ hn).2 ⟨i, hi, rfl⟩] at h
  cases h

theorem find_store16 {m : Memory} (h : wf m) (a b : Word) (v : Half) :
    find (store16 m a v) b.toNat =
      if a + 1#32 = b then some (v.extractLsb' 0 8) else if a = b then some (v.extractLsb' 8 8) else find m b.toNat := by
  rw [store16, find_store8 (store8_wf _ _ h), find_store8 h]

theorem find_store32 {m : Memory} (h : wf m) (a b : Word) (v : Word) :
    find (store32 m a v) b.toNat =
      if a + 3#32 = b then some (v.extractLsb' 0 8)
      else if a + 2#32 = b then some (v.extractLsb' 8 8)
      else if a + 1#32 = b then some (v.extractLsb' 16 8)
      else if a = b then some (v.extractLsb' 24 8)
      else find m b.toNat := by
  have cut : ∀ i j : Nat, j + 8 ≤ 16 → (v.extractLsb' i 16).extractLsb' j 8 = v.extractLsb' (i + j) 8 := by
    intro i j hj
    apply BitVec.eq_of_getLsbD_eq
    intro k hk
    have : j + k < 16 := by omega
    simp [this, Nat.add_assoc, hk]
  rw [store32, find_store16 (store16_wf _ _ h), find_store16 h, BitVec.add_assoc, cut 0 0 (by omega),
    cut 0 8 (by omega), cut 16 0 (by omega), cut 16 8 (by omega)]
  rfl

/-- The bytes of a word written one by one, where all four may be, are a 32-bit store. -/
theorem storeCells_cellsOf {m : Memory} {may : Word → Bool} {a v : Word}
    (h : ∀ i, i < 4 → may (a + BitVec.ofNat 32 i) = true) : storeCells m may (cellsOf a v) = store32 m a v := by
  have cut : ∀ i j : Nat, j + 8 ≤ 16 → (v.extractLsb' i 16).extractLsb' j 8 = v.extractLsb' (i + j) 8 := by
    intro i j hj
    apply BitVec.eq_of_getLsbD_eq
    intro k hk
    have : j + k < 16 := by omega
    simp [this, Nat.add_assoc, hk]
  have h0 := h 0 (by omega)
  rw [BitVec.add_zero] at h0
  have h1 : may (a + 1#32) = true := h 1 (by omega)
  have h2 : may (a + 2#32) = true := h 2 (by omega)
  have h3 : may (a + 3#32) = true := h 3 (by omega)
  have e : a + 2#32 + 1#32 = a + 3#32 := by rw [BitVec.add_assoc]; rfl
  rw [store32, store16, store16, e, cut 0 0 (by omega), cut 0 8 (by omega), cut 16 0 (by omega), cut 16 8 (by omega)]
  simp only [storeCells, cellsOf, List.foldl_cons, List.foldl_nil, BitVec.ofNat_toNat, BitVec.setWidth_eq, h0, h1, h2,
    h3, if_true]

/-- The four bytes of a 32-bit store and no other. -/
theorem find_store32_outside {m : Memory} (h : wf m) (a b : Word) (v : Word) (hb : inRange a 4 b = false) :
    find (store32 m a v) b.toNat = find m b.toNat := by
  have h0 := ne_of_outside (i := 0) (by omega) hb (by omega)
  have h1 := ne_of_outside (i := 1) (by omega) hb (by omega)
  have h2 := ne_of_outside (i := 2) (by omega) hb (by omega)
  have h3 := ne_of_outside (i := 3) (by omega) hb (by omega)
  simp only [BitVec.add_zero] at h0 h1 h2 h3
  rw [find_store32 h, if_neg h3, if_neg h2, if_neg h1, if_neg h0]

/-- The two bytes of a 16-bit store and no other. -/
theorem find_store16_outside {m : Memory} (h : wf m) (a b : Word) (v : Half) (hb : inRange a 2 b = false) :
    find (store16 m a v) b.toNat = find m b.toNat := by
  have h0 := ne_of_outside (i := 0) (by omega) hb (by omega)
  have h1 := ne_of_outside (i := 1) (by omega) hb (by omega)
  simp only [BitVec.add_zero] at h0 h1
  rw [find_store16 h, if_neg h1, if_neg h0]

/-- The byte of an 8-bit store and no other. -/
theorem find_store8_outside {m : Memory} (h : wf m) (a b : Word) (v : Byte) (hb : inRange a 1 b = false) :
    find (store8 m a v) b.toNat = find m b.toNat := by
  have h0 := ne_of_outside (i := 0) (by omega) hb (by omega)
  simp only [BitVec.add_zero] at h0
  rw [find_store8 h, if_neg h0]

/-- A range of eight is two ranges of four. -/
theorem outside_halves {a b : Word} (hb : inRange a 8 b = false) :
    inRange a 4 b = false ∧ inRange (a + 4#32) 4 b = false := by
  simp only [inRange, decide_eq_false_iff_not, not_lt] at hb ⊢
  constructor
  · omega
  · bv_omega

/-- The eight bytes of a 64-bit store and no other. -/
theorem find_store64_outside {m : Memory} (h : wf m) (a b : Word) (v : BitVec 64) (hb : inRange a 8 b = false) :
    find (store64 m a v) b.toNat = find m b.toNat := by
  rw [store64, find_store32_outside (store32_wf _ _ h) _ _ _ (outside_halves hb).2,
    find_store32_outside h _ _ _ (outside_halves hb).1]

end Sys2Proof.Machine.Memory

namespace Sys2Proof.Machine.State

/-- What a byte reads as depends on the memory alone. -/
theorem byte_eq_of_find {s t : State} {a : Word}
    (h : Memory.find t.mem a.toNat = Memory.find s.mem a.toNat) : t.byte a = s.byte a := by
  rw [byte, byte, h]

/-- The byte read back after a byte store. -/
theorem byte_store8 {s : State} (h : Memory.wf s.mem) (a b : Word) (v : Byte) :
    (s.withMem (Memory.store8 s.mem a v)).byte b = if a = b then v else s.byte b := by
  rw [byte, withMem_mem, Memory.find_store8 h]
  split <;> rfl

/-- The four bytes of a 32-bit store, most significant first (R51, R52). -/
theorem byte_store32 {s : State} (h : Memory.wf s.mem) (a b : Word) (v : Word) :
    (s.withMem (Memory.store32 s.mem a v)).byte b =
      if a + 3#32 = b then v.extractLsb' 0 8
      else if a + 2#32 = b then v.extractLsb' 8 8
      else if a + 1#32 = b then v.extractLsb' 16 8
      else if a = b then v.extractLsb' 24 8
      else s.byte b := by
  rw [byte, withMem_mem, Memory.find_store32 h]
  repeat' split
  all_goals rfl

/-- A 32-bit load depends on four bytes. -/
theorem load32_congr {s t : State} {a : Word} (h : ∀ b, inRange a 4 b = true → t.byte b = s.byte b) :
    t.load32 a = s.load32 a := by
  have key : ∀ i, i < 4 → t.byte (a + BitVec.ofNat 32 i) = s.byte (a + BitVec.ofNat 32 i) :=
    fun i hi => h _ ((inRange_iff a 4 _ (by omega)).2 ⟨i, hi, rfl⟩)
  have h0 := key 0 (by omega)
  have h1 := key 1 (by omega)
  have h2 := key 2 (by omega)
  have h3 := key 3 (by omega)
  have e : a + 2#32 + 1#32 = a + 3#32 := by rw [BitVec.add_assoc]; rfl
  simp only [BitVec.add_zero] at h0 h1 h2 h3
  simp only [load32, load16, load8, e, h0, h1, h2, h3]

/-- The four bytes of a word put together again. -/
theorem word_of_bytes (v : Word) :
    (v.extractLsb' 24 8 ++ v.extractLsb' 16 8) ++ (v.extractLsb' 8 8 ++ v.extractLsb' 0 8) = v := by
  apply BitVec.eq_of_toNat_eq
  simp only [BitVec.toNat_append, BitVec.extractLsb'_toNat, Nat.shiftRight_eq_div_pow]
  rw [Nat.shiftLeft_eq, Nat.shiftLeft_eq, Nat.shiftLeft_eq]
  have hv := v.isLt
  have e1 : ∀ x y : Nat, y < 2 ^ 8 → x * 2 ^ 8 ||| y = x * 2 ^ 8 + y := fun x y hy => by
    rw [← Nat.shiftLeft_eq, ← Nat.shiftLeft_add_eq_or_of_lt hy]
  have e2 : ∀ x y : Nat, y < 2 ^ (8 + 8) → x * 2 ^ (8 + 8) ||| y = x * 2 ^ (8 + 8) + y := fun x y hy => by
    rw [← Nat.shiftLeft_eq, ← Nat.shiftLeft_add_eq_or_of_lt hy]
  rw [e1 _ _ (by omega), e1 _ _ (by omega), e2 _ _ (by omega)]
  omega

/-- A 32-bit load reads back a 32-bit store. -/
theorem load32_store32 {s : State} (h : Memory.wf s.mem) (a : Word) (v : Word) :
    (s.withMem (Memory.store32 s.mem a v)).load32 a = v := by
  have e : a + 2#32 + 1#32 = a + 3#32 := by rw [BitVec.add_assoc]; rfl
  have n1 : a + 3#32 ≠ a := by bv_omega
  have n2 : a + 2#32 ≠ a := by bv_omega
  have n3 : a + 1#32 ≠ a := by bv_omega
  have n4 : a + 3#32 ≠ a + 1#32 := by bv_omega
  have n5 : a + 2#32 ≠ a + 1#32 := by bv_omega
  have n6 : a + 3#32 ≠ a + 2#32 := by bv_omega
  simp only [load32, load16, load8, e, byte_store32 h, if_neg n1, if_neg n2, if_neg n3, if_neg n4, if_neg n5,
    if_neg n6, if_true]
  exact word_of_bytes v

end Sys2Proof.Machine.State
end

