-- ==== Sys2Proof/Laws/Ieee.lean ====
section
/-! SUPPORT. What a free quiet NaN is, whatever its free bits are, and the symmetries of the default numerics (R210,
R224). -/

namespace Sys2Proof.Machine.Ieee

/-- A free quiet NaN of double width is a NaN. -/
@[simp] theorem value64_quietNaN64 (free : BitVec 52) : value64 (quietNaN64 free) = .nan := by
  have h1 := (free.extractLsb' 51 1).isLt
  have h2 := (free.extractLsb' 0 51).isLt
  have e : (quietNaN64 free).toNat =
      (free.extractLsb' 51 1).toNat * 2 ^ 63 + (4095 * 2 ^ 51 + (free.extractLsb' 0 51).toNat) := by
    rw [quietNaN64, BitVec.toNat_append, BitVec.toNat_append, ← Nat.shiftLeft_add_eq_or_of_lt h2,
      ← Nat.shiftLeft_add_eq_or_of_lt (by decide), Nat.shiftLeft_eq, Nat.shiftLeft_eq]
    show (_ * 2 ^ 12 + 4095) * 2 ^ 51 + _ = _
    omega
  have hm : infMagnitude binary64 < (quietNaN64 free).toNat % signWeight binary64 := by
    rw [e]
    show 2047 * 2 ^ 52 < _ % 2 ^ 63
    omega
  rw [value64, unpack, if_pos hm]

/-- A free quiet NaN of single width is a NaN. -/
@[simp] theorem value32_quietNaN32 (free : BitVec 23) : value32 (quietNaN32 free) = .nan := by
  have h1 := (free.extractLsb' 22 1).isLt
  have h2 := (free.extractLsb' 0 22).isLt
  have e : (quietNaN32 free).toNat =
      (free.extractLsb' 22 1).toNat * 2 ^ 31 + (511 * 2 ^ 22 + (free.extractLsb' 0 22).toNat) := by
    rw [quietNaN32, BitVec.toNat_append, BitVec.toNat_append, ← Nat.shiftLeft_add_eq_or_of_lt h2,
      ← Nat.shiftLeft_add_eq_or_of_lt (by decide), Nat.shiftLeft_eq, Nat.shiftLeft_eq]
    show (_ * 2 ^ 9 + 511) * 2 ^ 22 + _ = _
    omega
  have hm : infMagnitude binary32 < (quietNaN32 free).toNat % signWeight binary32 := by
    rw [e]
    show 255 * 2 ^ 23 < _ % 2 ^ 31
    omega
  rw [value32, unpack, if_pos hm]

/-- A NaN is neither negative nor zero (R224). -/
theorem isNeg_of_nan {a : Double} (h : value64 a = .nan) : isNeg a = false := by rw [isNeg, h]

/-- A NaN is neither negative nor zero (R224). -/
theorem isZero_of_nan {a : Double} (h : value64 a = .nan) : isZero a = false := by rw [isZero, h]

/-- A change of sign turns the sign of what a double denotes. -/
theorem value64_flipSign (a : Double) :
    value64 (flipSign a) =
      match value64 a with
      | .finite neg m e => .finite (!neg) m e
      | .infinite neg => .infinite (!neg)
      | .nan => .nan := by
  have ha := a.isLt
  have split : (flipSign a).toNat % 2 ^ 63 = a.toNat % 2 ^ 63 ∧
      (2 ^ 63 ≤ (flipSign a).toNat ↔ ¬ 2 ^ 63 ≤ a.toNat) := by
    have hx : (flipSign a).toNat = a.toNat ^^^ 2 ^ 63 := by rw [flipSign, BitVec.toNat_xor]; rfl
    have low : (flipSign a).toNat % 2 ^ 63 = a.toNat % 2 ^ 63 := by
      rw [hx, Nat.xor_mod_two_pow]
      simp
    have high : (flipSign a).toNat / 2 ^ 63 = (a.toNat / 2 ^ 63) ^^^ 1 := by
      rw [hx, Nat.xor_div_two_pow]
      rfl
    refine ⟨low, ?_⟩
    have h2 : a.toNat / 2 ^ 63 = 0 ∨ a.toNat / 2 ^ 63 = 1 := by omega
    rcases h2 with h2 | h2 <;> rw [h2] at high <;> simp at high <;> omega
  have hs : signWeight binary64 = 2 ^ 63 := rfl
  simp only [value64, unpack, hs, split.1]
  have hd : decide (2 ^ 63 ≤ (flipSign a).toNat) = !decide (2 ^ 63 ≤ a.toNat) := by
    rw [← decide_not]
    exact decide_eq_decide.2 split.2
  rw [hd]
  repeat' split
  all_goals simp_all

end Sys2Proof.Machine.Ieee
end

