-- ==== Sys2Proof/Laws/IeeeValue.lean ====
section
/-! SUPPORT. The default numerics against the numbers that bit patterns denote (R210, R220, R222, R224): a pattern and
its canonical form, rounding of what a format holds, exact sums, products and quotients, comparison, and the way of
a single through a double and back. -/

namespace Sys2Proof.Machine.Ieee

/-- `K * 2^q` is a finite number of the format in its canonical form. -/
structure Canon (fm : Format) (k : Nat) (q : Int) : Prop where
  lt : k < 2 ^ fm.p
  low : fm.qmin ≤ q
  norm : q = fm.qmin ∨ 2 ^ (fm.p - 1) ≤ k
  high : (q - fm.qmin).toNat + 2 < 2 ^ fm.expBits

/-- The pattern, without its sign, of a canonical number. -/
def magnitude (fm : Format) (k : Nat) (q : Int) : Nat := (q - fm.qmin).toNat * 2 ^ (fm.p - 1) + k

/-- A canonical pattern lies below that of infinity. -/
theorem magnitude_lt {fm : Format} {k : Nat} {q : Int} (hp : 0 < fm.p) (h : Canon fm k q) :
    magnitude fm k q < infMagnitude fm := by
  obtain ⟨p, hp'⟩ : ∃ p, fm.p = p + 1 := ⟨fm.p - 1, by omega⟩
  have hk := h.lt
  have hh := h.high
  simp only [magnitude, infMagnitude, hp', Nat.add_sub_cancel] at *
  generalize (q - fm.qmin).toNat = d at *
  have : (d + 2) * 2 ^ p ≤ (2 ^ fm.expBits - 1) * 2 ^ p := Nat.mul_le_mul_right _ (by omega)
  rw [pow_succ] at hk
  nlinarith

/-- The exponent of the leading bit. -/
theorem log2_bounds {m : Nat} (hm : m ≠ 0) : 2 ^ Nat.log2 m ≤ m ∧ m < 2 ^ (Nat.log2 m + 1) :=
  ⟨Nat.log2_self_le hm, Nat.lt_log2_self⟩

theorem two_zpow_lt {a b : Int} (h : (2 : ℚ) ^ a < 2 ^ b) : a < b := by
  exact (zpow_lt_zpow_iff_right₀ (by norm_num : (1 : ℚ) < 2)).1 h

theorem two_zpow_le {a b : Int} (h : a ≤ b) : (2 : ℚ) ^ a ≤ 2 ^ b :=
  zpow_le_zpow_right₀ (by norm_num) h

/-- Rounding what the format holds gives its canonical pattern. -/
theorem roundMagnitude_canon {fm : Format} {m k : Nat} {e q : Int} (hp : 0 < fm.p) (h : Canon fm k q)
    (hv : (m : ℚ) * 2 ^ e = k * 2 ^ q) (hm : m ≠ 0) : roundMagnitude fm m e = magnitude fm k q := by
  have two : (0 : ℚ) < 2 := by norm_num
  obtain ⟨l1, l2⟩ := log2_bounds hm
  have l1' : (2 : ℚ) ^ (Nat.log2 m : Int) ≤ m := by exact_mod_cast l1
  have l2' : (m : ℚ) < 2 ^ ((Nat.log2 m : Int) + 1) := by exact_mod_cast l2
  have vlow : (2 : ℚ) ^ (Nat.log2 m + e) ≤ k * 2 ^ q := by
    rw [← hv, zpow_add₀ two.ne']
    exact mul_le_mul_of_nonneg_right l1' (by positivity)
  have vhigh : (k : ℚ) * 2 ^ q < 2 ^ (Nat.log2 m + 1 + e) := by
    rw [← hv, zpow_add₀ two.ne']
    exact mul_lt_mul_of_pos_right l2' (by positivity)
  have khigh : (k : ℚ) * 2 ^ q < 2 ^ ((fm.p : Int) + q) := by
    rw [zpow_add₀ two.ne']
    refine mul_lt_mul_of_pos_right ?_ (by positivity)
    exact_mod_cast h.lt
  have up : (Nat.log2 m : Int) + e < fm.p + q := two_zpow_lt (vlow.trans_lt khigh)
  have hq : max (e + (Nat.log2 m + 1 : Nat) - fm.p) fm.qmin = q := by
    push_cast
    rcases h.norm with hn | hn
    · rw [max_eq_right (by omega), hn]
    · have klow : (2 : ℚ) ^ (((fm.p - 1 : Nat) : Int) + q) ≤ k * 2 ^ q := by
        rw [zpow_add₀ two.ne']
        refine mul_le_mul_of_nonneg_right ?_ (by positivity)
        exact_mod_cast hn
      have dn := two_zpow_lt (klow.trans_lt vhigh)
      have hl := h.low
      rw [max_eq_left (by omega)]
      omega
  have mant : (if q ≤ e then m * 2 ^ (e - q).toNat else shiftRound m (q - e).toNat) = k := by
    split
    · rename_i hqe
      obtain ⟨n, hn⟩ : ∃ n : Nat, e = q + n := ⟨(e - q).toNat, by omega⟩
      subst hn
      rw [zpow_add₀ two.ne', mul_comm ((2 : ℚ) ^ q), ← mul_assoc] at hv
      have := mul_right_cancel₀ (by positivity) hv
      rw [zpow_natCast] at this
      have e2 : (q + (n : Int) - q).toNat = n := by omega
      rw [e2]
      exact_mod_cast this
    · rename_i hqe
      obtain ⟨n, hn⟩ : ∃ n : Nat, q = e + n := ⟨(q - e).toNat, by omega⟩
      subst hn
      rw [zpow_add₀ two.ne', mul_comm ((2 : ℚ) ^ e), ← mul_assoc] at hv
      have := mul_right_cancel₀ (by positivity) hv
      rw [zpow_natCast] at this
      have hk : m = k * 2 ^ n := by exact_mod_cast this
      have e2 : (e + (n : Int) - e).toNat = n := by omega
      rw [e2, shiftRound, hk, Nat.mul_mod_left, Nat.mul_div_cancel _ (Nat.two_pow_pos n)]
      have hpos := Nat.two_pow_pos n
      rw [if_neg]
      simp
      omega
  have hlt := magnitude_lt hp h
  rw [roundMagnitude, if_neg hm]
  simp only [hq, mant]
  rw [Nat.min_eq_left]
  · rfl
  · exact hlt.le


/-- A canonical pattern with a sign denotes its number. -/
theorem unpack_magnitude {fm : Format} {k : Nat} {q : Int} (hp : 1 < fm.p) (h : Canon fm k q) (neg : Bool) :
    unpack fm (withSign fm neg (magnitude fm k q)) = .finite neg k q := by
  have hlt := magnitude_lt (by omega) h
  have hinf : infMagnitude fm < signWeight fm := by
    rw [infMagnitude, signWeight, pow_add, Nat.mul_comm]
    exact Nat.mul_lt_mul_of_pos_left (Nat.sub_lt (Nat.two_pow_pos _) (by omega)) (Nat.two_pow_pos _)
  have hmod : withSign fm neg (magnitude fm k q) % signWeight fm = magnitude fm k q := by
    cases neg
    · rw [withSign, if_neg (by decide)]
      exact Nat.mod_eq_of_lt (by omega)
    · rw [withSign, if_pos rfl, Nat.add_mod_left, Nat.mod_eq_of_lt (by omega)]
  have hneg : decide (signWeight fm ≤ withSign fm neg (magnitude fm k q)) = neg := by
    cases neg
    · simp [withSign]
      omega
    · simp [withSign]
  simp only [unpack, hmod, hneg]
  rw [if_neg (by omega), if_neg (by omega)]
  obtain ⟨p, hp'⟩ : ∃ p, fm.p = p + 1 := ⟨fm.p - 1, by omega⟩
  have hk := h.lt
  have hl := h.low
  have hn := h.norm
  simp only [magnitude, hp', Nat.add_sub_cancel] at *
  rw [pow_succ] at hk
  have hpos := Nat.two_pow_pos p
  by_cases hb : 2 ^ p ≤ k
  · have e1 : ((q - fm.qmin).toNat * 2 ^ p + k) / 2 ^ p = (q - fm.qmin).toNat + 1 := by
      rw [Nat.mul_comm, Nat.mul_add_div hpos, show k / 2 ^ p = 1 from Nat.div_eq_of_lt_le (by omega) (by omega)]
    have e2 : ((q - fm.qmin).toNat * 2 ^ p + k) % 2 ^ p = k - 2 ^ p := by
      rw [Nat.mul_comm, Nat.mul_add_mod, Nat.mod_eq_sub_mod hb, Nat.mod_eq_of_lt (by omega)]
    rw [e1, e2, if_neg (by omega), Nat.add_sub_cancel' hb]
    congr 1
    push_cast
    omega
  · have hq : q = fm.qmin := hn.resolve_right hb
    subst hq
    simp [Nat.div_eq_of_lt (Nat.lt_of_not_le hb), Nat.mod_eq_of_lt (Nat.lt_of_not_le hb)]

/-- A pattern that denotes a finite number is the canonical pattern of it. -/
theorem canon_of_unpack {fm : Format} {bits k : Nat} {q : Int} {neg : Bool} (hp : 1 < fm.p) (he : 1 < fm.expBits)
    (hb : bits < 2 * signWeight fm) (h : unpack fm bits = .finite neg k q) :
    Canon fm k q ∧ bits = withSign fm neg (magnitude fm k q) := by
  obtain ⟨p, hp'⟩ : ∃ p, fm.p = p + 1 := ⟨fm.p - 1, by omega⟩
  have hpos := Nat.two_pow_pos p
  have hsw : signWeight fm = 2 ^ p * 2 ^ fm.expBits := by rw [signWeight, hp', Nat.add_sub_cancel, pow_add]
  have hexp : 4 ≤ 2 ^ fm.expBits := by
    calc 4 = 2 ^ 2 := rfl
      _ ≤ 2 ^ fm.expBits := Nat.pow_le_pow_right (by omega) he
  have hsign : ∀ n : Bool, decide (signWeight fm ≤ bits) = n → bits = withSign fm n (bits % signWeight fm) := by
    intro n hn
    cases n <;> simp at hn <;> simp only [withSign]
    · exact (Nat.mod_eq_of_lt hn).symm
    · rw [if_pos trivial, Nat.mod_eq_sub_mod hn, Nat.mod_eq_of_lt (by omega)]
      omega
  simp only [unpack] at h
  split at h
  · cases h
  · split at h
    · cases h
    · rename_i h1 h2
      have hm : bits % signWeight fm < infMagnitude fm := by omega
      have hdm := Nat.div_add_mod (bits % signWeight fm) (2 ^ (fm.p - 1))
      have hml := Nat.mod_lt (bits % signWeight fm) (Nat.two_pow_pos (fm.p - 1))
      have hf : bits % signWeight fm / 2 ^ (fm.p - 1) < 2 ^ fm.expBits - 1 := by
        rw [infMagnitude] at hm
        exact Nat.div_lt_of_lt_mul (by rw [Nat.mul_comm]; exact hm)
      have hs := hsign neg
      have hp1 : fm.p - 1 = p := by omega
      simp only [hp1] at h hdm hml hf
      split at h
      · rename_i h3
        injection h with hn hk hq
        subst hk hq
        rw [h3, Nat.mul_zero, Nat.zero_add] at hdm
        refine ⟨⟨by rw [hp', pow_succ]; omega, le_refl _, .inl rfl, by simp; omega⟩, ?_⟩
        rw [magnitude, hp1, sub_self, Int.toNat_zero, Nat.zero_mul, Nat.zero_add, hdm]
        exact hs hn
      · rename_i h3
        injection h with hn hk hq
        subst hk hq
        generalize hfe : bits % signWeight fm / 2 ^ p = field at *
        have ht : (fm.qmin + (field : Int) - 1 - fm.qmin).toNat = field - 1 := by omega
        refine ⟨⟨by rw [hp', pow_succ]; omega, by omega, .inr (by rw [hp1]; omega), by omega⟩, ?_⟩
        rw [magnitude, hp1, ht]
        have e : (field - 1) * 2 ^ p + (2 ^ p + bits % signWeight fm % 2 ^ p) = bits % signWeight fm := by
          obtain ⟨g, hg⟩ : ∃ g, field = g + 1 := ⟨field - 1, by omega⟩
          subst hg
          rw [Nat.add_sub_cancel, ← Nat.add_assoc, ← Nat.succ_mul, Nat.mul_comm]
          exact hdm
        rw [e]
        exact hs hn

/-- A sign as a factor. -/
def signOf (neg : Bool) : ℚ := if neg then -1 else 1

theorem signed_cast (neg : Bool) (m : Nat) : ((signed neg m : Int) : ℚ) = signOf neg * m := by
  cases neg <;> simp [signed, signOf]

/-- Rounding into binary64 what binary64 holds. -/
theorem value64_round64 {m k : Nat} {e q : Int} {neg : Bool} (h : Canon binary64 k q)
    (hv : (m : ℚ) * 2 ^ e = k * 2 ^ q) (hm : m ≠ 0) : value64 (round64 neg m e) = .finite neg k q := by
  have hlt := magnitude_lt (by decide) h
  rw [value64, round64, roundMagnitude_canon (by decide) h hv hm, BitVec.toNat_ofNat, Nat.mod_eq_of_lt,
    unpack_magnitude (by decide) h]
  have : infMagnitude binary64 = 2047 * 2 ^ 52 := rfl
  have hs : signWeight binary64 = 2 ^ 63 := rfl
  cases neg <;> simp only [withSign, hs] <;> simp <;> omega

theorem value64_round64_zero (neg : Bool) (e : Int) : value64 (round64 neg 0 e) = .finite neg 0 (-1074) := by
  have hc : Canon binary64 0 (-1074) := ⟨by decide, by decide, .inl rfl, by decide⟩
  rw [value64, round64, roundMagnitude, if_pos rfl, BitVec.toNat_ofNat, Nat.mod_eq_of_lt]
  · exact unpack_magnitude (by decide) hc neg
  · cases neg <;> decide

theorem canon_of_value64 {a : Double} {neg : Bool} {k : Nat} {q : Int} (h : value64 a = .finite neg k q) :
    Canon binary64 k q :=
  (canon_of_unpack (by decide) (by decide) a.isLt h).1

theorem canon_of_value32 {a : Single} {neg : Bool} {k : Nat} {q : Int} (h : value32 a = .finite neg k q) :
    Canon binary32 k q :=
  (canon_of_unpack (by decide) (by decide) a.isLt h).1

/-- What a finite double denotes to the model is what its fields denote. -/
theorem value64_finite {a : Double} (h : finiteDouble a) :
    ∃ neg k q, value64 a = .finite neg k q ∧ neg = a.msb ∧ doubleValue a = signOf neg * (k * 2 ^ q) := by
  have ha := a.isLt
  have hx : (a.extractLsb' 52 11).toNat = a.toNat / 2 ^ 52 % 2 ^ 11 := by
    rw [BitVec.extractLsb'_toNat, Nat.shiftRight_eq_div_pow]
  have hf : (a.extractLsb' 0 52).toNat = a.toNat % 2 ^ 52 := by
    rw [BitVec.extractLsb'_toNat, Nat.shiftRight_zero]
  have hne : a.toNat / 2 ^ 52 % 2 ^ 11 ≠ 2047 := by
    rw [← hx]
    intro hc
    exact h (BitVec.eq_of_toNat_eq hc)
  have hm : a.msb = decide (2 ^ 63 ≤ a.toNat) := BitVec.msb_eq_decide a
  have e1 : a.toNat % 2 ^ 63 / 2 ^ 52 = a.toNat / 2 ^ 52 % 2 ^ 11 := by omega
  have e2 : a.toNat % 2 ^ 63 % 2 ^ 52 = a.toNat % 2 ^ 52 := by omega
  have hs : signWeight binary64 = 2 ^ 63 := rfl
  have hi : infMagnitude binary64 = 2047 * 2 ^ 52 := rfl
  simp only [value64, unpack, doubleValue, hx, hf, hs, hi, hm, signOf, show binary64.p - 1 = 52 from rfl, e1, e2,
    show binary64.qmin = -1074 from rfl]
  rw [if_neg (by omega), if_neg (by omega)]
  split
  · exact ⟨_, _, _, rfl, rfl, rfl⟩
  · refine ⟨_, _, _, rfl, rfl, ?_⟩
    push_cast
    congr 3
    omega

theorem value64_not_finite {a : Double} (h : ¬finiteDouble a) : ∀ neg k q, value64 a ≠ .finite neg k q := by
  intro neg k q hc
  have hx : (a.extractLsb' 52 11).toNat = a.toNat / 2 ^ 52 % 2 ^ 11 := by
    rw [BitVec.extractLsb'_toNat, Nat.shiftRight_eq_div_pow]
  have ha := a.isLt
  have he : a.toNat / 2 ^ 52 % 2 ^ 11 = 2047 := by
    rw [← hx, not_not.1 h]
    rfl
  have hi : infMagnitude binary64 = 2047 * 2 ^ 52 := rfl
  have hs : signWeight binary64 = 2 ^ 63 := rfl
  simp only [value64, unpack, hi, hs] at hc
  split at hc
  · cases hc
  · split at hc
    · cases hc
    · omega

/-- What a finite single denotes to the model is what its fields denote. -/
theorem value32_finite {a : Single} (h : finiteSingle a) :
    ∃ neg k q, value32 a = .finite neg k q ∧ neg = a.msb ∧ singleValue a = signOf neg * (k * 2 ^ q) := by
  have ha := a.isLt
  have hx : (a.extractLsb' 23 8).toNat = a.toNat / 2 ^ 23 % 2 ^ 8 := by
    rw [BitVec.extractLsb'_toNat, Nat.shiftRight_eq_div_pow]
  have hf : (a.extractLsb' 0 23).toNat = a.toNat % 2 ^ 23 := by
    rw [BitVec.extractLsb'_toNat, Nat.shiftRight_zero]
  have hne : a.toNat / 2 ^ 23 % 2 ^ 8 ≠ 255 := by
    rw [← hx]
    intro hc
    exact h (BitVec.eq_of_toNat_eq hc)
  have hm : a.msb = decide (2 ^ 31 ≤ a.toNat) := BitVec.msb_eq_decide a
  have e1 : a.toNat % 2 ^ 31 / 2 ^ 23 = a.toNat / 2 ^ 23 % 2 ^ 8 := by omega
  have e2 : a.toNat % 2 ^ 31 % 2 ^ 23 = a.toNat % 2 ^ 23 := by omega
  have hs : signWeight binary32 = 2 ^ 31 := rfl
  have hi : infMagnitude binary32 = 255 * 2 ^ 23 := rfl
  simp only [value32, unpack, singleValue, hx, hf, hs, hi, hm, signOf, show binary32.p - 1 = 23 from rfl, e1, e2,
    show binary32.qmin = -149 from rfl]
  rw [if_neg (by omega), if_neg (by omega)]
  split
  · exact ⟨_, _, _, rfl, rfl, rfl⟩
  · refine ⟨_, _, _, rfl, rfl, ?_⟩
    push_cast
    congr 3
    omega

/-- A double that denotes a finite number to the model is finite, and its fields denote that number. -/
theorem doubleValue_of_finite {x : Double} {n : Bool} {j : Nat} {r : Int} (hx : value64 x = .finite n j r) :
    finiteDouble x ∧ doubleValue x = signOf n * (j * 2 ^ r) := by
  have hfx : finiteDouble x := by
    by_contra hc
    exact value64_not_finite hc n j r hx
  obtain ⟨n', j', r', hx', -, hy⟩ := value64_finite hfx
  rw [hx] at hx'
  injection hx' with a b c
  subst a b c
  exact ⟨hfx, hy⟩

/-- An exact result that a double denotes is the result after rounding. -/
theorem round64_exact {d : Double} {neg : Bool} {m : Nat} {e : Int} (hd : finiteDouble d)
    (hv : signOf neg * (m * 2 ^ e) = doubleValue d) :
    finiteDouble (round64 neg m e) ∧ doubleValue (round64 neg m e) = doubleValue d := by
  obtain ⟨nd, k, q, h1, -, h3⟩ := value64_finite hd
  by_cases hm : m = 0
  · subst hm
    obtain ⟨f1, f2⟩ := doubleValue_of_finite (value64_round64_zero neg e)
    refine ⟨f1, ?_⟩
    rw [f2, ← hv]
    simp
  · have hk : (m : ℚ) * 2 ^ e = k * 2 ^ q := by
      have h := hv.trans h3
      have p1 : (0 : ℚ) ≤ m * 2 ^ e := by positivity
      have p2 : (0 : ℚ) ≤ k * 2 ^ q := by positivity
      cases neg <;> cases nd <;> simp [signOf] at h <;> linarith
    obtain ⟨f1, f2⟩ := doubleValue_of_finite (value64_round64 (neg := neg) (canon_of_value64 h1) hk hm)
    refine ⟨f1, ?_⟩
    rw [f2, ← hv, hk]

/-- The sum of two finite doubles is their exact sum rounded once. -/
theorem add_eq_round64 (nan : Double) {a b : Double} (ha : finiteDouble a) (hb : finiteDouble b) :
    ∃ neg m e, add nan a b = round64 neg m e ∧ -1074 ≤ e ∧ signOf neg * (m * 2 ^ e) = doubleValue a + doubleValue b := by
  obtain ⟨na, ma, ea, va, -, da⟩ := value64_finite ha
  obtain ⟨nb, mb, eb, vb, -, db⟩ := value64_finite hb
  have la : (-1074 : Int) ≤ ea := (canon_of_value64 va).low
  have lb : (-1074 : Int) ≤ eb := (canon_of_value64 vb).low
  have hadd : add nan a b = addFinite na ma ea nb mb eb := by rw [add, va, vb]
  rw [hadd, addFinite]
  refine ⟨_, _, _, rfl, le_min la lb, ?_⟩
  set e := min ea eb with he
  obtain ⟨x, hx⟩ : ∃ x : Nat, ea = e + x := ⟨(ea - e).toNat, by omega⟩
  obtain ⟨y, hy⟩ : ∃ y : Nat, eb = e + y := ⟨(eb - e).toNat, by omega⟩
  have ex : (ea - e).toNat = x := by omega
  have ey : (eb - e).toNat = y := by omega
  rw [ex, ey]
  have two : (2 : ℚ) ≠ 0 := by norm_num
  have value : doubleValue a + doubleValue b =
      ((signed na (ma * 2 ^ x) + signed nb (mb * 2 ^ y) : Int) : ℚ) * 2 ^ e := by
    rw [da, db, hx, hy, zpow_add₀ two, zpow_add₀ two, Int.cast_add, signed_cast, signed_cast, zpow_natCast, zpow_natCast]
    push_cast
    ring
  rw [value]
  generalize signed na (ma * 2 ^ x) + signed nb (mb * 2 ^ y) = t
  rcases lt_trichotomy t 0 with ht | ht | ht
  · rw [if_neg (by omega), decide_eq_true ht, signOf, if_pos rfl, Nat.cast_natAbs, abs_of_neg ht]
    push_cast
    ring
  · subst ht
    simp
  · rw [if_neg (by omega), decide_eq_false (by omega), signOf, if_neg (by decide), Nat.cast_natAbs, abs_of_pos ht]
    ring

/-- A change of sign changes the sign of the number. -/
theorem doubleValue_flipSign {a : Double} (ha : finiteDouble a) :
    finiteDouble (flipSign a) ∧ doubleValue (flipSign a) = -doubleValue a := by
  obtain ⟨na, ma, ea, va, -, da⟩ := value64_finite ha
  have h := value64_flipSign a
  rw [va] at h
  obtain ⟨f1, f2⟩ := doubleValue_of_finite h
  refine ⟨f1, ?_⟩
  rw [f2, da]
  cases na <;> simp [signOf]

/-- The difference of two finite doubles is their exact difference rounded once. -/
theorem sub_eq_round64 (nan : Double) {a b : Double} (ha : finiteDouble a) (hb : finiteDouble b) :
    ∃ neg m e, sub nan a b = round64 neg m e ∧ -1074 ≤ e ∧ signOf neg * (m * 2 ^ e) = doubleValue a - doubleValue b := by
  obtain ⟨f1, f2⟩ := doubleValue_flipSign hb
  obtain ⟨neg, m, e, h1, h2, h3⟩ := add_eq_round64 nan ha f1
  exact ⟨neg, m, e, h1, h2, by rw [h3, f2, sub_eq_add_neg]⟩

/-- The product of two finite doubles is their exact product rounded once. -/
theorem mul_eq_round64 (nan : Double) {a b : Double} (ha : finiteDouble a) (hb : finiteDouble b) :
    ∃ neg m e, mul nan a b = round64 neg m e ∧ signOf neg * (m * 2 ^ e) = doubleValue a * doubleValue b := by
  obtain ⟨na, ma, ea, va, -, da⟩ := value64_finite ha
  obtain ⟨nb, mb, eb, vb, -, db⟩ := value64_finite hb
  refine ⟨na ^^ nb, ma * mb, ea + eb, by rw [mul, va, vb], ?_⟩
  rw [da, db, zpow_add₀ (by norm_num)]
  cases na <;> cases nb <;> simp [signOf] <;> ring

/-- What divides a number times a power of two divides it times a large enough one. -/
theorem dvd_two_pow {a b n : Nat} (hb : b < 2 ^ 53) (h0 : b ≠ 0) (h : b ∣ a * 2 ^ n) : b ∣ a * 2 ^ 120 := by
  obtain ⟨k, o, ho, rfl⟩ := Nat.exists_eq_two_pow_mul_odd h0
  have hk : k < 53 := by
    by_contra hc
    have : 2 ^ 53 ≤ 2 ^ k := Nat.pow_le_pow_right (by omega) (by omega)
    have : 1 ≤ o := Nat.pos_of_ne_zero (by rintro rfl; simp at h0)
    nlinarith
  have hoa : o ∣ a := by
    have : o ∣ a * 2 ^ n := (Dvd.intro_left _ rfl).trans h
    exact (Nat.Coprime.pow_right n (Nat.coprime_two_right.2 ho)).dvd_of_dvd_mul_right this
  rw [Nat.mul_comm]
  exact Nat.mul_dvd_mul hoa (pow_dvd_pow 2 (by omega))

/-- The quotient of two finite doubles, where a double denotes it, is that number. -/
theorem div_exact (nan : Double) {a b d : Double} (ha : finiteDouble a) (hb : finiteDouble b) (hd : finiteDouble d)
    (h0 : doubleValue b ≠ 0) (hv : doubleValue d = doubleValue a / doubleValue b) :
    finiteDouble (div nan a b) ∧ doubleValue (div nan a b) = doubleValue d := by
  obtain ⟨na, ma, ea, va, -, da⟩ := value64_finite ha
  obtain ⟨nb, mb, eb, vb, -, db⟩ := value64_finite hb
  obtain ⟨nd, k, q, vd, -, dd⟩ := value64_finite hd
  have two : (2 : ℚ) ≠ 0 := by norm_num
  have hmb : mb ≠ 0 := by
    rintro rfl
    simp [db] at h0
  have hmbq : (mb : ℚ) ≠ 0 := by exact_mod_cast hmb
  have hdiv : div nan a b = divFinite (na ^^ nb) ma ea mb eb := by rw [div, va, vb]; simp [hmb]
  have mag : (ma : ℚ) * 2 ^ ea = k * 2 ^ q * (mb * 2 ^ eb) := by
    have h := hv
    rw [dd, da, db, eq_div_iff (by rw [← db]; exact h0)] at h
    have p1 : (0 : ℚ) ≤ ma * 2 ^ ea := by positivity
    have p2 : (0 : ℚ) ≤ k * 2 ^ q * (mb * 2 ^ eb) := by positivity
    cases na <;> cases nb <;> cases nd <;> simp [signOf] at h <;> linarith
  have dvd : mb ∣ ma * 2 ^ 120 := by
    have lt : mb < 2 ^ 53 := (canon_of_value64 vb).lt
    rcases Int.le_total ea (q + eb) with hle | hle
    · obtain ⟨n, hn⟩ : ∃ n : Nat, q + eb = ea + n := ⟨(q + eb - ea).toNat, by omega⟩
      have e1 : (ma : ℚ) = k * mb * 2 ^ n := by
        have : (k : ℚ) * 2 ^ q * (mb * 2 ^ eb) = k * mb * 2 ^ n * 2 ^ ea := by
          rw [show (k : ℚ) * 2 ^ q * (mb * 2 ^ eb) = k * mb * (2 ^ q * 2 ^ eb) by ring, ← zpow_add₀ two, hn,
            zpow_add₀ two, zpow_natCast]
          ring
        exact mul_right_cancel₀ (zpow_ne_zero _ two) (mag.trans this)
      have e2 : ma = k * mb * 2 ^ n := by exact_mod_cast e1
      exact Dvd.dvd.mul_right ⟨k * 2 ^ n, by rw [e2]; ring⟩ _
    · obtain ⟨n, hn⟩ : ∃ n : Nat, ea = q + eb + n := ⟨(ea - (q + eb)).toNat, by omega⟩
      have e1 : (ma : ℚ) * 2 ^ n = k * mb := by
        have : (ma : ℚ) * 2 ^ n * (2 ^ q * 2 ^ eb) = k * mb * (2 ^ q * 2 ^ eb) := by
          rw [← zpow_add₀ two, mul_assoc, ← zpow_natCast, ← zpow_add₀ two, add_comm (n : Int), ← hn, mag,
            zpow_add₀ two]
          ring
        exact mul_right_cancel₀ (by positivity) this
      have e2 : ma * 2 ^ n = k * mb := by exact_mod_cast e1
      exact dvd_two_pow lt hmb ⟨k, by rw [e2, Nat.mul_comm]⟩
  rw [hdiv, divFinite, Nat.mod_eq_zero_of_dvd dvd, if_pos rfl, Nat.add_zero]
  refine round64_exact hd ?_
  obtain ⟨c, hc⟩ := dvd
  have hcq : (ma : ℚ) * 2 ^ 120 = mb * c := by exact_mod_cast hc
  rw [hc, Nat.mul_div_cancel_left c (Nat.pos_of_ne_zero hmb), hv, da, db, zpow_sub₀ two, zpow_sub₀ two]
  have : (c : ℚ) = ma * 2 ^ 120 / mb := by
    rw [hcq]
    field_simp
  push_cast
  rw [this]
  cases na <;> cases nb <;> simp [signOf] <;> field_simp <;> ring

/-- Rounding a number that is not 0 and no finer than the smallest subnormal keeps it from 0. -/
theorem roundMagnitude_pos {fm : Format} {m : Nat} {e : Int} (hp : 1 < fm.p) (he : 1 < fm.expBits) (hm : m ≠ 0)
    (hq : fm.qmin ≤ e) : 0 < roundMagnitude fm m e := by
  have hi : 0 < infMagnitude fm :=
    Nat.mul_pos (Nat.sub_pos_of_lt (Nat.one_lt_two_pow (by omega))) (Nat.two_pow_pos _)
  obtain ⟨l1, -⟩ := log2_bounds hm
  rw [roundMagnitude, if_neg hm]
  simp only
  refine Nat.lt_min.2 ⟨Nat.add_pos_right _ ?_, hi⟩
  split
  · exact Nat.mul_pos (Nat.pos_of_ne_zero hm) (Nat.two_pow_pos _)
  · rename_i hc
    set q := max (e + (Nat.log2 m + 1 : Nat) - fm.p) fm.qmin with hqd
    have hk : (q - e).toNat ≤ Nat.log2 m := by omega
    have hle : 2 ^ (q - e).toNat ≤ m := (Nat.pow_le_pow_right (by omega) hk).trans l1
    have hquo : 0 < m / 2 ^ (q - e).toNat := Nat.div_pos hle (Nat.two_pow_pos _)
    rw [shiftRound]
    split <;> omega

/-- The sign of a rounded number. -/
theorem isNeg_round64 {neg : Bool} {m : Nat} {e : Int} (he : -1074 ≤ e) :
    isNeg (round64 neg m e) = (neg && decide (m ≠ 0)) ∧ isZero (round64 neg m e) = decide (m = 0) := by
  by_cases hm : m = 0
  · subst hm
    rw [isNeg, isZero, value64_round64_zero]
    simp
  · have hpos := roundMagnitude_pos (fm := binary64) (by decide) (by decide) hm he
    have hle : roundMagnitude binary64 m e ≤ 2047 * 2 ^ 52 := by
      rw [roundMagnitude, if_neg hm]
      exact Nat.min_le_right _ _
    have hi : infMagnitude binary64 = 2047 * 2 ^ 52 := rfl
    have hs : signWeight binary64 = 2 ^ 63 := rfl
    have hn : (round64 neg m e).toNat = withSign binary64 neg (roundMagnitude binary64 m e) := by
      rw [round64, BitVec.toNat_ofNat, Nat.mod_eq_of_lt]
      cases neg <;> simp only [withSign, hs] <;> simp <;> omega
    generalize roundMagnitude binary64 m e = p at *
    have hmod : withSign binary64 neg p % 2 ^ 63 = p := by cases neg <;> simp [withSign, hs] <;> omega
    have hneg : decide (2 ^ 63 ≤ withSign binary64 neg p) = neg := by
      cases neg
      · simp [withSign]
        omega
      · simp [withSign, hs]
    have hv : (∃ k q, k ≠ 0 ∧ value64 (round64 neg m e) = .finite neg k q) ∨ value64 (round64 neg m e) = .infinite neg := by
      rw [value64, hn, unpack]
      simp only [hs, hi, hmod, hneg, show binary64.p - 1 = 52 from rfl]
      rw [if_neg (by omega)]
      split
      · exact .inr rfl
      · split
        · exact .inl ⟨_, _, by omega, rfl⟩
        · exact .inl ⟨_, _, by omega, rfl⟩
    rcases hv with ⟨k, q, hk, hv⟩ | hv <;> simp [isNeg, isZero, *]

/-- The flags of a comparison of finite doubles: N if `b` is below `a`, Z if they are equal (R224). -/
theorem compare_finite (nan : Double) {a b : Double} (ha : finiteDouble a) (hb : finiteDouble b) :
    isNeg (sub nan b a) = decide (doubleValue b < doubleValue a) ∧
      isZero (sub nan b a) = decide (doubleValue b = doubleValue a) := by
  obtain ⟨neg, m, e, h1, h2, h3⟩ := sub_eq_round64 nan hb ha
  obtain ⟨s1, s2⟩ := isNeg_round64 (neg := neg) (m := m) h2
  rw [h1, s1, s2]
  by_cases hm : m = 0
  · subst hm
    simp at h3
    have h : doubleValue b = doubleValue a := by linarith
    simp [h]
  · have hp : (0 : ℚ) < m * 2 ^ e := by
      have : (0 : ℚ) < m := by exact_mod_cast Nat.pos_of_ne_zero hm
      positivity
    cases neg
    · simp [signOf] at h3
      have h : doubleValue a < doubleValue b := by linarith
      simp [hm, h.le, h.ne']
    · simp [signOf] at h3
      have h : doubleValue b < doubleValue a := by linarith
      simp [hm, h, h.ne]

/-- What a single holds, a double holds. -/
theorem canon64_of_canon32 {k : Nat} {q : Int} (h : Canon binary32 k q) (hk : k ≠ 0) :
    ∃ j r, Canon binary64 j r ∧ (k : ℚ) * 2 ^ q = j * 2 ^ r := by
  obtain ⟨l1, l2⟩ := log2_bounds hk
  have lt : k < 2 ^ 24 := h.lt
  have low : (-149 : Int) ≤ q := h.low
  have high : (q - -149).toNat + 2 < 2 ^ 8 := h.high
  have hl : Nat.log2 k < 24 := (Nat.pow_lt_pow_iff_right (by omega : 1 < 2)).1 (l1.trans_lt lt)
  obtain ⟨n, hn⟩ : ∃ n, Nat.log2 k + n = 52 := ⟨52 - Nat.log2 k, by omega⟩
  have hlow : 2 ^ 52 ≤ k * 2 ^ n := by
    rw [← hn, pow_add]
    exact Nat.mul_le_mul_right _ l1
  have hhigh : k * 2 ^ n < 2 ^ 53 := by
    rw [show 53 = Nat.log2 k + 1 + n by omega, pow_add]
    exact Nat.mul_lt_mul_of_pos_right l2 (Nat.two_pow_pos n)
  refine ⟨k * 2 ^ n, q - n, ⟨hhigh, ?_, .inr hlow, ?_⟩, ?_⟩
  · show (-1074 : Int) ≤ q - n
    omega
  · show (q - n - -1074).toNat + 2 < 2 ^ 11
    omega
  · rw [zpow_sub₀ (by norm_num), zpow_natCast]
    push_cast
    field_simp

/-- Widening a finite single is exact, and keeps the sign of a zero too (R220). -/
theorem value64_widen (nan : Double) {w : Single} {neg : Bool} {k : Nat} {q : Int}
    (hw : value32 w = .finite neg k q) :
    ∃ j r, value64 (widen nan w) = .finite neg j r ∧ (k : ℚ) * 2 ^ q = j * 2 ^ r := by
  rw [widen, hw]
  by_cases hk : k = 0
  · subst hk
    exact ⟨0, -1074, value64_round64_zero neg q, by simp⟩
  · obtain ⟨j, r, hc, hv⟩ := canon64_of_canon32 (canon_of_value32 hw) hk
    exact ⟨j, r, value64_round64 hc hv hk, hv⟩

theorem signWeight64 : signWeight binary64 = 2 ^ 63 := rfl
theorem signWeight32 : signWeight binary32 = 2 ^ 31 := rfl

/-- The pattern of a finite single from what it denotes. -/
theorem single_eq_of_value32 {w : Single} {neg : Bool} {k : Nat} {q : Int} (hw : value32 w = .finite neg k q) :
    w = BitVec.ofNat 32 (withSign binary32 neg (magnitude binary32 k q)) := by
  rw [← (canon_of_unpack (by decide) (by decide) w.isLt hw).2, BitVec.ofNat_toNat, BitVec.setWidth_eq]

/-- An infinite single is the infinity of its sign. -/
theorem single_of_infinite {w : Single} {neg : Bool} (hw : value32 w = .infinite neg) :
    w = BitVec.ofNat 32 (withSign binary32 neg (infMagnitude binary32)) := by
  have hb := w.isLt
  have hi : infMagnitude binary32 = 255 * 2 ^ 23 := rfl
  apply BitVec.eq_of_toNat_eq
  simp only [value32, unpack, signWeight32, hi, show binary32.p - 1 = 23 from rfl] at hw
  rw [BitVec.toNat_ofNat, hi]
  split at hw
  · cases hw
  · split at hw
    · rename_i h1 h2
      injection hw with hn
      rw [withSign, signWeight32]
      have hb' : w.toNat < 2 ^ 32 := hb
      cases neg
      · replace hn : ¬2 ^ 31 ≤ w.toNat := of_decide_eq_false hn
        rw [if_neg (by decide)]
        omega
      · replace hn : 2 ^ 31 ≤ w.toNat := of_decide_eq_true hn
        rw [if_pos rfl]
        omega
    · split at hw <;> cases hw

theorem value64_inf64 (neg : Bool) : value64 (inf64 neg) = .infinite neg := by cases neg <;> decide

/-- A single widened and narrowed again comes back, if it is not a NaN (R220, R222). -/
theorem narrow_widen (nan32 : Single) (nan64 : Double) {w : Single} (hw : value32 w ≠ .nan) :
    narrow nan32 (widen nan64 w) = w := by
  cases hv : value32 w with
  | nan => exact absurd hv hw
  | infinite neg =>
    rw [widen, hv, narrow, value64_inf64]
    exact (single_of_infinite hv).symm
  | finite neg k q =>
    obtain ⟨j, r, h1, h2⟩ := value64_widen nan64 hv
    rw [narrow, h1]
    conv_rhs => rw [single_eq_of_value32 hv]
    by_cases hj : j = 0
    · subst hj
      have hk : k = 0 := by
        simp only [Nat.cast_zero, zero_mul] at h2
        have := (mul_eq_zero.1 h2).resolve_right (by positivity)
        exact_mod_cast this
      subst hk
      have hq : q = -149 := by
        rcases (canon_of_value32 hv).norm with h | h
        · exact h
        · simp [binary32] at h
      subst hq
      rfl
    · dsimp only
      rw [roundMagnitude_canon (by decide) (canon_of_value32 hv) h2.symm hj]

/-- A single is a NaN exactly if its exponent field is all ones and its fraction is not 0. -/
theorem value32_eq_nan_iff (w : Single) :
    value32 w = .nan ↔ w.extractLsb' 23 8 = 0xFF#8 ∧ w.extractLsb' 0 23 ≠ 0#23 := by
  have hb := w.isLt
  have hx : (w.extractLsb' 23 8).toNat = w.toNat / 2 ^ 23 % 2 ^ 8 := by
    rw [BitVec.extractLsb'_toNat, Nat.shiftRight_eq_div_pow]
  have hf : (w.extractLsb' 0 23).toNat = w.toNat % 2 ^ 23 := by
    rw [BitVec.extractLsb'_toNat, Nat.shiftRight_zero]
  have hi : infMagnitude binary32 = 255 * 2 ^ 23 := rfl
  rw [← BitVec.toNat_inj, ne_eq, ← BitVec.toNat_inj, hx, hf]
  simp only [value32, unpack, signWeight32, hi, BitVec.toNat_ofNat, show binary32.p - 1 = 23 from rfl]
  repeat' split
  all_goals
    simp
    omega

end Sys2Proof.Machine.Ieee
end

