-- ==== Sys2Proof/Laws/Ops.lean ====
section
/-! SUPPORT. One lemma for each shared operation that says what it can do: operands, checks, exceptions, the stack,
the host's part of a system call, and the shared meanings of the families. -/

namespace Sys2Proof.Machine

namespace State

@[simp] theorem readReg_r (s : State) (n : Fin 12) (layout : Config.CcrLayout) : s.readReg (.r n) layout = s.r[n] := rfl
@[simp] theorem readReg_sp (s : State) (layout : Config.CcrLayout) : s.readReg .sp layout = s.sp := rfl
@[simp] theorem readReg_fp (s : State) (layout : Config.CcrLayout) : s.readReg .fp layout = s.fp := rfl
@[simp] theorem readReg_ccr (s : State) (layout : Config.CcrLayout) : s.readReg .ccr layout = packCcr s.flags layout := rfl
@[simp] theorem readReg_pc (s : State) (layout : Config.CcrLayout) : s.readReg .pc layout = s.pc := rfl
@[simp] theorem writeReg_r (s : State) (n : Fin 12) (v : Word) (layout : Config.CcrLayout) :
    s.writeReg (.r n) v layout = s.withR (s.r.set n v) := rfl
@[simp] theorem writeReg_sp (s : State) (v : Word) (layout : Config.CcrLayout) :
    s.writeReg .sp v layout = s.withSp v := rfl
@[simp] theorem writeReg_fp (s : State) (v : Word) (layout : Config.CcrLayout) :
    s.writeReg .fp v layout = s.withFp v := rfl
@[simp] theorem writeReg_ccr (s : State) (v : Word) (layout : Config.CcrLayout) :
    s.writeReg .ccr v layout = s.withFlags (unpackCcr v layout) := rfl
@[simp] theorem writeReg_pc (s : State) (v : Word) (layout : Config.CcrLayout) :
    s.writeReg .pc v layout = s.withPc v := rfl

@[simp] theorem advance_r (s : State) (n : Nat) : (s.advance n).r = s.r := rfl
@[simp] theorem advance_sp (s : State) (n : Nat) : (s.advance n).sp = s.sp := rfl
@[simp] theorem advance_fp (s : State) (n : Nat) : (s.advance n).fp = s.fp := rfl
@[simp] theorem advance_pc (s : State) (n : Nat) : (s.advance n).pc = s.pc + BitVec.ofNat 32 n := rfl
@[simp] theorem advance_flags (s : State) (n : Nat) : (s.advance n).flags = s.flags := rfl
@[simp] theorem advance_f (s : State) (n : Nat) : (s.advance n).f = s.f := rfl
@[simp] theorem advance_mem (s : State) (n : Nat) : (s.advance n).mem = s.mem := rfl
@[simp] theorem advance_regions (s : State) (n : Nat) : (s.advance n).regions = s.regions := rfl
@[simp] theorem advance_host (s : State) (n : Nat) : (s.advance n).host = s.host := rfl
@[simp] theorem advance_run (s : State) (n : Nat) : (s.advance n).run = s.run := rfl
@[simp] theorem advance_draws (s : State) (n : Nat) : (s.advance n).draws = s.draws := rfl

/-- A register write leaves everything that is no integer register. -/
theorem writeReg_frame (s : State) (reg : IReg) (v : Word) (layout : Config.CcrLayout) :
    (s.writeReg reg v layout).f = s.f ∧ (s.writeReg reg v layout).mem = s.mem ∧ (s.writeReg reg v layout).regions = s.regions ∧
      (s.writeReg reg v layout).host = s.host ∧ (s.writeReg reg v layout).run = s.run ∧ (s.writeReg reg v layout).draws = s.draws := by
  cases reg <;> exact ⟨rfl, rfl, rfl, rfl, rfl, rfl⟩

@[simp] theorem writeReg_f (s : State) (reg : IReg) (v : Word) (layout : Config.CcrLayout) :
    (s.writeReg reg v layout).f = s.f := (s.writeReg_frame reg v layout).1
@[simp] theorem writeReg_mem (s : State) (reg : IReg) (v : Word) (layout : Config.CcrLayout) :
    (s.writeReg reg v layout).mem = s.mem := (s.writeReg_frame reg v layout).2.1
@[simp] theorem writeReg_regions (s : State) (reg : IReg) (v : Word) (layout : Config.CcrLayout) :
    (s.writeReg reg v layout).regions = s.regions := (s.writeReg_frame reg v layout).2.2.1
@[simp] theorem writeReg_host (s : State) (reg : IReg) (v : Word) (layout : Config.CcrLayout) :
    (s.writeReg reg v layout).host = s.host := (s.writeReg_frame reg v layout).2.2.2.1
@[simp] theorem writeReg_run (s : State) (reg : IReg) (v : Word) (layout : Config.CcrLayout) :
    (s.writeReg reg v layout).run = s.run := (s.writeReg_frame reg v layout).2.2.2.2.1
@[simp] theorem writeReg_draws (s : State) (reg : IReg) (v : Word) (layout : Config.CcrLayout) :
    (s.writeReg reg v layout).draws = s.draws := (s.writeReg_frame reg v layout).2.2.2.2.2

/-- A register reads back what was written to it, but for the bits the CCR discards (R30, R31). -/
theorem readReg_writeReg_same (s : State) (reg : IReg) (v : Word) :
    (s.writeReg reg v).readReg reg = if reg = .ccr then packCcr (unpackCcr v) else v := by
  cases reg <;> simp

/-- A write to one register leaves the others (R31). -/
theorem readReg_writeReg_ne (s : State) {reg other : IReg} (v : Word) (h : reg ≠ other) :
    (s.writeReg reg v).readReg other = s.readReg other := by
  cases reg <;> cases other <;> simp_all [Vector.getElem_set]
  intro hc
  exact absurd (Fin.ext hc) h

@[simp] theorem mapFlags_flags (s : State) (line : Flags → Flags) : (s.mapFlags line).flags = line s.flags := rfl
@[simp] theorem mapFlags_r (s : State) (line : Flags → Flags) : (s.mapFlags line).r = s.r := rfl
@[simp] theorem mapFlags_sp (s : State) (line : Flags → Flags) : (s.mapFlags line).sp = s.sp := rfl
@[simp] theorem mapFlags_fp (s : State) (line : Flags → Flags) : (s.mapFlags line).fp = s.fp := rfl
@[simp] theorem mapFlags_pc (s : State) (line : Flags → Flags) : (s.mapFlags line).pc = s.pc := rfl
@[simp] theorem mapFlags_f (s : State) (line : Flags → Flags) : (s.mapFlags line).f = s.f := rfl
@[simp] theorem mapFlags_mem (s : State) (line : Flags → Flags) : (s.mapFlags line).mem = s.mem := rfl
@[simp] theorem mapFlags_regions (s : State) (line : Flags → Flags) : (s.mapFlags line).regions = s.regions := rfl
@[simp] theorem mapFlags_host (s : State) (line : Flags → Flags) : (s.mapFlags line).host = s.host := rfl
@[simp] theorem mapFlags_run (s : State) (line : Flags → Flags) : (s.mapFlags line).run = s.run := rfl
@[simp] theorem mapFlags_draws (s : State) (line : Flags → Flags) : (s.mapFlags line).draws = s.draws := rfl

@[simp] theorem draw_draws (s : State) : s.draw.draws = s.draws + 1 := rfl
@[simp] theorem draw_r (s : State) : s.draw.r = s.r := rfl
@[simp] theorem draw_sp (s : State) : s.draw.sp = s.sp := rfl
@[simp] theorem draw_fp (s : State) : s.draw.fp = s.fp := rfl
@[simp] theorem draw_pc (s : State) : s.draw.pc = s.pc := rfl
@[simp] theorem draw_flags (s : State) : s.draw.flags = s.flags := rfl
@[simp] theorem draw_f (s : State) : s.draw.f = s.f := rfl
@[simp] theorem draw_mem (s : State) : s.draw.mem = s.mem := rfl
@[simp] theorem draw_regions (s : State) : s.draw.regions = s.regions := rfl
@[simp] theorem draw_host (s : State) : s.draw.host = s.host := rfl
@[simp] theorem draw_run (s : State) : s.draw.run = s.run := rfl

@[simp] theorem writeF_r (s : State) (reg : FReg) (v : Double) : (s.writeF reg v).r = s.r := rfl
@[simp] theorem writeF_sp (s : State) (reg : FReg) (v : Double) : (s.writeF reg v).sp = s.sp := rfl
@[simp] theorem writeF_fp (s : State) (reg : FReg) (v : Double) : (s.writeF reg v).fp = s.fp := rfl
@[simp] theorem writeF_pc (s : State) (reg : FReg) (v : Double) : (s.writeF reg v).pc = s.pc := rfl
@[simp] theorem writeF_flags (s : State) (reg : FReg) (v : Double) : (s.writeF reg v).flags = s.flags := rfl
@[simp] theorem writeF_mem (s : State) (reg : FReg) (v : Double) : (s.writeF reg v).mem = s.mem := rfl
@[simp] theorem writeF_regions (s : State) (reg : FReg) (v : Double) : (s.writeF reg v).regions = s.regions := rfl
@[simp] theorem writeF_host (s : State) (reg : FReg) (v : Double) : (s.writeF reg v).host = s.host := rfl
@[simp] theorem writeF_run (s : State) (reg : FReg) (v : Double) : (s.writeF reg v).run = s.run := rfl
@[simp] theorem writeF_draws (s : State) (reg : FReg) (v : Double) : (s.writeF reg v).draws = s.draws := rfl
@[simp] theorem writeF_f (s : State) (reg : FReg) (v : Double) : (s.writeF reg v).f = s.f.set reg v := rfl

@[simp] theorem drop_r (s : State) (bytes : Int) : (s.drop bytes).r = s.r := rfl
@[simp] theorem drop_fp (s : State) (bytes : Int) : (s.drop bytes).fp = s.fp := rfl
@[simp] theorem drop_pc (s : State) (bytes : Int) : (s.drop bytes).pc = s.pc := rfl
@[simp] theorem drop_flags (s : State) (bytes : Int) : (s.drop bytes).flags = s.flags := rfl
@[simp] theorem drop_f (s : State) (bytes : Int) : (s.drop bytes).f = s.f := rfl
@[simp] theorem drop_mem (s : State) (bytes : Int) : (s.drop bytes).mem = s.mem := rfl
@[simp] theorem drop_regions (s : State) (bytes : Int) : (s.drop bytes).regions = s.regions := rfl
@[simp] theorem drop_host (s : State) (bytes : Int) : (s.drop bytes).host = s.host := rfl
@[simp] theorem drop_run (s : State) (bytes : Int) : (s.drop bytes).run = s.run := rfl
@[simp] theorem drop_draws (s : State) (bytes : Int) : (s.drop bytes).draws = s.draws := rfl
@[simp] theorem drop_sp (s : State) (bytes : Int) : (s.drop bytes).sp = s.sp + BitVec.ofInt 32 bytes := rfl

@[simp] theorem push_sp (s : State) (v : Word) : (s.push v).sp = s.pushSp := rfl
@[simp] theorem push_mem (s : State) (v : Word) : (s.push v).mem = Memory.store32 s.mem s.pushSp v := rfl
@[simp] theorem push_r (s : State) (v : Word) : (s.push v).r = s.r := rfl
@[simp] theorem push_fp (s : State) (v : Word) : (s.push v).fp = s.fp := rfl
@[simp] theorem push_pc (s : State) (v : Word) : (s.push v).pc = s.pc := rfl
@[simp] theorem push_flags (s : State) (v : Word) : (s.push v).flags = s.flags := rfl
@[simp] theorem push_f (s : State) (v : Word) : (s.push v).f = s.f := rfl
@[simp] theorem push_regions (s : State) (v : Word) : (s.push v).regions = s.regions := rfl
@[simp] theorem push_host (s : State) (v : Word) : (s.push v).host = s.host := rfl
@[simp] theorem push_run (s : State) (v : Word) : (s.push v).run = s.run := rfl
@[simp] theorem push_draws (s : State) (v : Word) : (s.push v).draws = s.draws := rfl

/-- After a push, the pushed value is on top of the stack (R280). -/
theorem top_push {s : State} (h : Memory.wf s.mem) (v : Word) : (s.push v).top = v := by
  rw [top]
  exact (load32_congr (s := s.withMem (Memory.store32 s.mem s.pushSp v)) fun b _ => byte_eq_of_find rfl).trans
    (load32_store32 h s.pushSp v)

/-- A push changes the bytes of its slot and no other (R280). -/
theorem byte_push {s : State} (h : Memory.wf s.mem) (v a : Word) (ha : inRange s.pushSp 4 a = false) :
    (s.push v).byte a = s.byte a :=
  byte_eq_of_find (Memory.find_store32_outside h s.pushSp a v ha)

/-- A check answers no exception exactly if the address is aligned and every byte is admitted (R56, R60). -/
theorem accessFault_none (p : Word → Bool) (n : Nat) (a : Word) :
    accessFault p n a = none ↔ a.toNat % n = 0 ∧ ∀ i, i < n → p (a + BitVec.ofNat 32 i) = true := by
  rw [← everyByte_iff]
  by_cases ha : a.toNat % n = 0 <;> cases he : everyByte p a n <;>
    simp [accessFault, Params.dataAlignNatural, ha, he]

/-- The exception a check answers: misalignment first, then validity (R320). -/
theorem accessFault_some (p : Word → Bool) (n : Nat) (a : Word) (e : Exception) :
    accessFault p n a = some e ↔
      (a.toNat % n ≠ 0 ∧ e = .illegalBusAccess a) ∨
        (a.toNat % n = 0 ∧ everyByte p a n = false ∧ e = .invalidMemoryAccess a) := by
  by_cases ha : a.toNat % n = 0 <;> cases he : everyByte p a n <;>
    simp [accessFault, Params.dataAlignNatural, ha, he, @eq_comm _ e]

end State

/-- Taking an exception at the default of HANDLERS ends the run and nothing else (R310, R311). -/
@[simp] theorem takeException_default (e : Exception) (s : State) :
    takeException e s = .next (s.withRun (.aborted e e.abortStatus)) := rfl

/-- Taking an exception for which a handler is installed, where HANDLERS is modelled (R312). -/
theorem takeException_handled {s : State} {e : Exception} {v : BitVec 5} {successor : BitVec 5 → State → State}
    {p : Parameters} (hp : p.handlers = .modelled successor) (h : s.handlerVector e p.fdivZeroVector = some v) :
    takeException e s p = .next (successor v s) := by
  simp only [takeException, hp, h]

/-- Taking an exception for which no handler is installed ends the run, whatever HANDLERS is (R310, R311). -/
theorem takeException_unhandled {s : State} {e : Exception} {p : Parameters}
    (h : s.handlerVector e p.fdivZeroVector = none) :
    takeException e s p = .next (s.withRun (.aborted e (e.abortStatus p.fdivZeroVector))) := by
  cases hp : p.handlers <;> simp only [takeException, hp, h]

/-- The vector of a handler that an exception goes to is the exception's and has a handler (R310). -/
theorem handlerVector_eq_some {s : State} {e : Exception} {v : BitVec 5} {zero : Config.FdivZero} :
    s.handlerVector e zero = some v ↔ e.vector zero = some v ∧ s.installed v = true := by
  rw [State.handlerVector, Option.filter_eq_some_iff]

/-- Everything `takeException` can do at the default of HANDLERS. -/
theorem takeException_next {s t : State} {e : Exception} (h : takeException e s = .next t) :
    t = s.withRun (.aborted e e.abortStatus) := by
  injection h with h
  exact h.symm

@[simp] theorem unlessFault_none (s t : State) (p : Parameters) : unlessFault s none t p = .next t := rfl
@[simp] theorem unlessFault_some (s t : State) (e : Exception) (p : Parameters) :
    unlessFault s (some e) t p = takeException e s p := rfl

/-- Everything `unlessFault` can do. -/
theorem unlessFault_next {s t u : State} {fault : Option Exception} {p : Parameters}
    (h : unlessFault s fault t p = .next u) :
    (fault = none ∧ u = t) ∨ ∃ e, fault = some e ∧ takeException e s p = .next u := by
  cases fault with
  | none => exact .inl ⟨rfl, by injection h with h; exact h.symm⟩
  | some e => exact .inr ⟨e, rfl, h⟩

/-- What an operation may do to memory and map: the map and the canonical form stay, and so does every byte that is
not writable (R65, R66). -/
structure Keeps (s t : State) : Prop where
  regions : t.regions = s.regions
  wf : Memory.wf s.mem → Memory.wf t.mem
  bytes : Memory.wf s.mem → ∀ a, s.writable a = false → t.byte a = s.byte a

/-- An operation that leaves the memory and the map keeps them. -/
theorem Keeps.of_eq {s t : State} (hr : t.regions = s.regions) (hm : t.mem = s.mem) : Keeps s t :=
  ⟨hr, fun h => hm ▸ h, fun _ _ _ => State.byte_eq_of_find (by rw [hm])⟩

/-- What is writable depends on the map alone. -/
theorem writable_congr {s t : State} (h : t.regions = s.regions) (a : Word) : t.writable a = s.writable a := by
  simp only [State.writable, State.valid, State.inCode, h]

theorem Keeps.trans {s t u : State} (h : Keeps s t) (k : Keeps t u) : Keeps s u :=
  ⟨k.regions.trans h.regions, fun w => k.wf (h.wf w), fun w a ha =>
    (k.bytes (h.wf w) a ((writable_congr h.regions a).trans ha)).trans (h.bytes w a ha)⟩

/-- An address that is not writable lies outside every range whose write raises nothing. -/
theorem outside_of_writeFault {s : State} {n : Nat} {a b : Word} (hn : n ≤ 4294967296) (h : s.writeFault n a = none)
    (hb : s.writable b = false) : inRange a n b = false := by
  rw [State.writeFault, State.accessFault_none] at h
  cases hr : inRange a n b
  · rfl
  · obtain ⟨i, hi, rfl⟩ := (inRange_iff a n b hn).1 hr
    rw [h.2 i hi] at hb
    cases hb

/-- A filtered write keeps the map and what is not writable. -/
theorem Keeps.storeCells {s t : State} (may : Word → Bool) (cells : List Host.Cell) (hr : t.regions = s.regions)
    (hm : t.mem = Memory.storeCells s.mem may cells) (hmay : ∀ a, s.writable a = false → may a = false) : Keeps s t :=
  ⟨hr, fun h => hm ▸ Memory.storeCells_wf may cells h, fun h a ha =>
    State.byte_eq_of_find (by rw [hm]; exact Memory.find_storeCells may cells h a (hmay a ha))⟩

theorem keeps_takeException {s t : State} {e : Exception} (h : takeException e s = .next t) : Keeps s t := by
  obtain rfl := takeException_next h
  exact Keeps.of_eq rfl rfl

theorem keeps_push {s : State} (v : Word) (h : s.pushFault = none) : Keeps s (s.push v) :=
  ⟨rfl, fun w => Memory.store32_wf _ _ w, fun w a ha =>
    State.byte_push w v a (outside_of_writeFault (by omega) h ha)⟩

/-- What the host may write is writable, and lies outside the return slot (R274). -/
theorem hostMayWrite_iff (s : State) (o : SyscallOracle) (a : Word) :
    s.hostMayWrite o a = true ↔ s.writable a = true ∧ inRange s.sp 4 a = false ∧
      (s.inHostMemory a = true ∨ ∃ d ∈ s.designated o, inRange d.1 d.2 a = true) := by
  simp [State.hostMayWrite, and_assoc]

/-- Everything the host's service can do to memory: write bytes where the host may (R274). -/
theorem hostService_mem (s : State) (p : Parameters) :
    ∃ cells, (s.hostService p).mem = Memory.storeCells s.mem (s.hostMayWrite p.syscallOracle) cells := by
  show ∃ cells, s.callMem p.syscallOracle = _
  rw [State.callMem]
  split
  · exact ⟨_, rfl⟩
  · exact ⟨_, rfl⟩

theorem keeps_hostService (s : State) (p : Parameters) : Keeps s (s.hostService p) := by
  obtain ⟨cells, h⟩ := hostService_mem s p
  exact Keeps.storeCells _ cells rfl h fun a h => by simp [State.hostMayWrite, h]

/-- The host's service leaves every byte that the host may not write (R274). -/
theorem byte_hostService {s : State} (p : Parameters) (h : Memory.wf s.mem) {a : Word}
    (ha : s.hostMayWrite p.syscallOracle a = false) : (s.hostService p).byte a = s.byte a := by
  obtain ⟨cells, hc⟩ := hostService_mem s p
  exact State.byte_eq_of_find (hc ▸ Memory.find_storeCells _ cells h a ha)

/-- R0 after a call that returns (R273, R276). -/
theorem hostService_r0 (s : State) (p : Parameters) : (s.hostService p).r[0] = s.callResult p.syscallOracle := by
  simp [State.hostService, State.callRegisters]

/-- SYS_FILES with a pointer variable that the host may write answers 0 if it succeeds, else EACCES (R276 c). -/
theorem callResult_files {s : State} {o : SyscallOracle} (hc : s.calls .files = true)
    (hd : s.filesDescribed o = true) : s.callResult o = if s.filesSucceeds o then 0#32 else o.eacces := by
  rw [State.callResult, hc, hd]
  rfl

/-- The memory that a SYS_FILES which succeeds leaves: the oracle's bytes, and over them its pointer in the variable at
R1 (R276 c, C24). -/
theorem callMem_files {s : State} {o : SyscallOracle} (hc : s.calls .files = true) (hd : s.filesDescribed o = true)
    (hs : s.filesSucceeds o = true) :
    s.callMem o =
      Memory.store32 (Memory.storeCells s.mem (s.hostMayWrite o) (o.reply s).writes) (s.callParameter 1)
        (o.reply s).files := by
  rw [State.callMem, hc, hd, hs, Bool.and_self, Bool.and_self, if_pos rfl, State.filesMem, Memory.storeCells_append,
    Memory.storeCells_cellsOf ((everyByte_iff _ _ _).1 hd)]

/-- In that memory the pointer leads to one name for each open descriptor (R276 c). -/
theorem stringArray_files {s : State} {p : Parameters} (hc : s.calls .files = true)
    (hd : s.filesDescribed p.syscallOracle = true) (hs : s.filesSucceeds p.syscallOracle = true) :
    (s.withMem (s.hostService p).mem).stringArray (p.syscallOracle.reply s).files
      (s.hostService p).host.openFds.length = true := by
  have h := (Bool.and_eq_true _ _ ▸ hs : s.permitted p.syscallOracle = true ∧ _).2
  show (s.withMem (s.callMem _)).stringArray _ _ = true
  rw [State.callMem, hc, hd, hs]
  exact h

/-- EACCES is not 0 (R273, R276). -/
theorem eacces_ne_zero (o : SyscallOracle) : o.eacces ≠ 0#32 := by
  intro h
  have h := congrArg BitVec.toNat h
  simp only [SyscallOracle.eacces, BitVec.toNat_ofNat] at h
  have := o.eaccesLessOne.isLt
  omega

/-- At the default of SYSCALL_ORACLE a call ends the run only with SYS_EXIT's number in R0 (R278, log 9). -/
theorem exitStatus_default (s : State) :
    exitStatus s Params.syscallOracle = if s.r[0] = 0#32 then some s.r[1] else none := by
  by_cases h : s.r[0] = 0#32
  · rw [if_pos h]
    exact if_pos (decide_eq_true h)
  · rw [if_neg h]
    exact if_neg fun hc => h (of_decide_eq_true hc)

/-- Everything SYSCALL can do at the defaults (R260, R278). -/
theorem execSyscall_eq (s : State) :
    execSyscall s =
      unlessFault s s.pushFault
        (if s.r[0] = 0#32 then exitRun s ((s.advance 2).push (s.advance 2).pc) s.r[1]
          else ((s.advance 2).push (s.advance 2).pc).hostService.hostReturn) := by
  show unlessFault s _ (match exitStatus _ Params.syscallOracle with | some w => exitRun s _ w | none => _) = _
  rw [exitStatus_default]
  by_cases h : s.r[0] = 0#32
  · rw [if_pos h, if_pos (show ((s.advance 2).push (s.advance 2).pc).r[0] = 0#32 from h)]
    rfl
  · rw [if_neg h, if_neg (show ¬((s.advance 2).push (s.advance 2).pc).r[0] = 0#32 from h)]

/-- The standard descriptors are always open (R277). -/
theorem mem_withStandardFds {d : Nat} (fds : List Nat) (h : d ∈ standardFds) : d ∈ withStandardFds fds :=
  List.mem_append_left _ h

theorem keeps_writeReg (s : State) (reg : IReg) (v : Word) (layout : Config.CcrLayout) :
    Keeps s (s.writeReg reg v layout) :=
  Keeps.of_eq (s.writeReg_regions reg v layout) (s.writeReg_mem reg v layout)

theorem keeps_unlessFault {s t u : State} {fault : Option Exception} (h : unlessFault s fault t = .next u)
    (k : fault = none → Keeps s t) : Keeps s u := by
  rcases unlessFault_next h with ⟨hf, rfl⟩ | ⟨e, -, he⟩
  · exact k hf
  · exact keeps_takeException he

/-- The host's service leaves SP, FP, CCR, PC, the map and the run as they are (R260, R274). -/
theorem hostService_frame (s : State) (p : Parameters) :
    (s.hostService p).sp = s.sp ∧ (s.hostService p).fp = s.fp ∧ (s.hostService p).pc = s.pc ∧
      (s.hostService p).flags = s.flags ∧ (s.hostService p).regions = s.regions ∧ (s.hostService p).run = s.run :=
  ⟨rfl, rfl, rfl, rfl, rfl, rfl⟩

/-- The host's service leaves the return slot (R274). -/
theorem top_hostService {s : State} (p : Parameters) (h : Memory.wf s.mem) : (s.hostService p).top = s.top :=
  State.load32_congr fun b (hb : inRange s.sp 4 b = true) => byte_hostService p h (by simp [State.hostMayWrite, hb])

/-- A system call that returns: `A + 2` is popped again (R260). -/
theorem hostReturn_push {s : State} (p : Parameters) (h : Memory.wf s.mem) (v : Word) :
    ((s.push v).hostService p).hostReturn.pc = v ∧ ((s.push v).hostService p).hostReturn.sp = s.sp := by
  constructor
  · show ((s.push v).hostService p).top = v
    rw [top_hostService p (Memory.store32_wf _ _ h), State.top_push h]
  · show s.sp - 4#32 + BitVec.ofInt 32 4 = s.sp
    exact BitVec.sub_add_cancel s.sp 4#32

/-- The branch mechanism (R120). -/
theorem branch_eq (len : Nat) (cond : Flags → Bool) (disp : Int) (s : State) :
    branch len cond disp s =
      s.withPc (s.pc + BitVec.ofNat 32 len + if cond s.flags then BitVec.ofInt 32 disp else 0#32) := by
  cases h : cond s.flags <;> simp [branch, h, State.advance]

/-- A register operation changes no memory, no map, no floating-point register, no host state and no run status. -/
theorem registerOp_frame (rx ry : IReg) (op : Word → Word → Word) (line : Word → Word → Word → Flags → Flags)
    (s : State) (p : Parameters) :
    (registerOp rx ry op line s p).f = s.f ∧ (registerOp rx ry op line s p).mem = s.mem ∧
      (registerOp rx ry op line s p).regions = s.regions ∧ (registerOp rx ry op line s p).host = s.host ∧
      (registerOp rx ry op line s p).run = s.run ∧ (registerOp rx ry op line s p).draws = s.draws :=
  (s.advance 2).writeReg_frame ry _ _

/-- Everything a division can do (R173). -/
theorem divideOp_eq (rx ry : IReg) (op : Word → Word → Word) (s : State) (p : Parameters) :
    divideOp rx ry op s p =
      if (s.advance 2).readReg rx p.ccrLayout = 0#32 then ((s.advance 2).mapFlags (divideByZeroFlags s.draws)).draw
      else registerOp rx ry op (fun _ _ r => divideFlags r) s p := rfl

/-- A division changes no memory, no map, no floating-point register, no host state and no run status. -/
theorem divideOp_frame (rx ry : IReg) (op : Word → Word → Word) (s : State) (p : Parameters) :
    (divideOp rx ry op s p).f = s.f ∧ (divideOp rx ry op s p).mem = s.mem ∧
      (divideOp rx ry op s p).regions = s.regions ∧ (divideOp rx ry op s p).host = s.host ∧
      (divideOp rx ry op s p).run = s.run := by
  rw [divideOp_eq]
  split
  · exact ⟨rfl, rfl, rfl, rfl, rfl⟩
  · obtain ⟨h1, h2, h3, h4, h5, -⟩ := registerOp_frame rx ry op (fun _ _ r => divideFlags r) s p
    exact ⟨h1, h2, h3, h4, h5⟩

/-- A floating-point operation changes one floating-point register, the flags, the PC and the count of draws. -/
theorem floatOp_eq (fx fy : FReg) (op : Double → Double → Double) (line : Double → Double → Double → Flags → Flags)
    (s : State) :
    floatOp fx fy op line s =
      { s with
        pc := s.pc + 2#32
        f := s.f.set fy (op s.f[fx] s.f[fy])
        flags := line s.f[fx] s.f[fy] (op s.f[fx] s.f[fy]) s.flags
        draws := s.draws + 1 } := rfl

/-- Everything a load can do (R250). -/
theorem loadOp_next {n : Nat} {value : State → Word → Word} {disp : Int} {rx ry : IReg} {s t : State} {p : Parameters}
    (h : loadOp n value disp rx ry s p = .next t) :
    let ea := (s.advance 4).ea rx disp p.ccrLayout
    (s.readFault n ea p.dataAlignNatural = none ∧
        t = (s.advance 4).writeReg ry (value (s.advance 4) ea) p.ccrLayout) ∨
      ∃ e, s.readFault n ea p.dataAlignNatural = some e ∧ takeException e s p = .next t :=
  unlessFault_next h

/-- Everything a store can do (R250). -/
theorem storeOp_next {n : Nat} {put : Memory → Word → Word → Memory} {disp : Int} {rx ry : IReg} {s t : State}
    {p : Parameters} (h : storeOp n put rx disp ry s p = .next t) :
    let ea := (s.advance 4).ea ry disp p.ccrLayout
    (s.writeFault n ea p.dataAlignNatural = none ∧
        t = (s.advance 4).withMem (put s.mem ea ((s.advance 4).readReg rx p.ccrLayout))) ∨
      ∃ e, s.writeFault n ea p.dataAlignNatural = some e ∧ takeException e s p = .next t :=
  unlessFault_next h

end Sys2Proof.Machine
end

