-- ==== Sys2Proof/Laws/Views.lean ====
section
/-! SUPPORT. The words in which claims speak of memory (Safety.lean) against the operations of the machine: which
accesses raise nothing, what a wide load reads, what a wide store leaves, strings and arrays of them (R51, R52, R56, R60,
R276, R343). -/

namespace Sys2Proof.Machine

/-- A readable access raises nothing. -/
theorem readFault_of_readable {s : State} {n : Nat} {a : Word} (h : readable s n a) : s.readFault n a = none :=
  (State.accessFault_none _ _ _).2 h

/-- A storable access raises nothing. -/
theorem writeFault_of_storable {s : State} {n : Nat} {a : Word} (h : storable s n a) : s.writeFault n a = none :=
  (State.accessFault_none _ _ _).2 h

/-- What may be written may be read (R65, R66). -/
theorem readable_of_storable {s : State} {n : Nat} {a : Word} (h : storable s n a) : readable s n a := by
  refine ⟨h.1, fun i hi => ?_⟩
  have hw := h.2 i hi
  rw [State.writable, Bool.and_eq_true] at hw
  exact hw.1

/-- What is readable depends on the map alone. -/
theorem readable_congr {s t : State} {n : Nat} {a : Word} (hr : t.regions = s.regions) (h : readable s n a) :
    readable t n a := by
  have hv : ∀ b, t.valid b = s.valid b := fun b => by rw [State.valid, State.valid, hr]
  exact ⟨h.1, fun i hi => (hv _).trans (h.2 i hi)⟩

/-- Two pairs of bytes put together. -/
theorem append_pairs (a b c d : Byte) : (a ++ b) ++ (c ++ d) = (a ++ b ++ c ++ d : Word) :=
  BitVec.append_assoc'.trans rfl

theorem load16_eq (s : State) (a : Word) : s.load16 a = halfAt s a := rfl

theorem load32_eq (s : State) (a : Word) : s.load32 a = wordAt s a := by
  have e : a + 2#32 + 1#32 = a + 3#32 := by rw [BitVec.add_assoc]; rfl
  rw [State.load32, State.load16, State.load16, e, wordAt]
  exact append_pairs _ _ _ _

theorem load64_eq (s : State) (a : Word) : s.load64 a = longAt s a := by
  rw [State.load64, load32_eq, load32_eq]
  rfl

/-- An address that is none of a range's bytes lies outside it. -/
theorem outside_of_ne {a b : Word} {n : Nat} (hn : n ≤ 4294967296) (h : ∀ i, i < n → b ≠ a + BitVec.ofNat 32 i) :
    inRange a n b = false := by
  rw [← Bool.not_eq_true, inRange_iff a n b hn]
  rintro ⟨i, hi, rfl⟩
  exact h i hi rfl

/-- What an 8-bit store leaves. -/
theorem store8_effect {s t : State} (h : Memory.wf s.mem) {a : Word} {v : Byte} (ht : t.mem = Memory.store8 s.mem a v) :
    t.byte a = v ∧ sameOutside s t a 1 := by
  refine ⟨?_, fun b hb => State.byte_eq_of_find ?_⟩
  · rw [State.byte, ht, Memory.find_store8 h, if_pos rfl]
    rfl
  · rw [ht, Memory.find_store8_outside h a b v (outside_of_ne (by omega) hb)]

/-- What a 16-bit store leaves. -/
theorem store16_effect {s t : State} (h : Memory.wf s.mem) {a : Word} {v : Half}
    (ht : t.mem = Memory.store16 s.mem a v) : holdsHalf t a v ∧ sameOutside s t a 2 := by
  refine ⟨⟨?_, ?_⟩, fun b hb => State.byte_eq_of_find ?_⟩
  · rw [State.byte, ht, Memory.find_store16 h, if_neg (by bv_omega), if_pos rfl]
    rfl
  · rw [State.byte, ht, Memory.find_store16 h, if_pos rfl]
    rfl
  · rw [ht, Memory.find_store16_outside h a b v (outside_of_ne (by omega) hb)]

/-- What a 32-bit store leaves. -/
theorem store32_effect {s t : State} (h : Memory.wf s.mem) {a v : Word} (ht : t.mem = Memory.store32 s.mem a v) :
    holdsWord t a v ∧ sameOutside s t a 4 := by
  refine ⟨⟨?_, ?_, ?_, ?_⟩, fun b hb => State.byte_eq_of_find ?_⟩
  · rw [State.byte, ht, Memory.find_store32 h, if_neg (by bv_omega), if_neg (by bv_omega), if_neg (by bv_omega),
      if_pos rfl]
    rfl
  · rw [State.byte, ht, Memory.find_store32 h, if_neg (by bv_omega), if_neg (by bv_omega), if_pos rfl]
    rfl
  · rw [State.byte, ht, Memory.find_store32 h, if_neg (by bv_omega), if_pos rfl]
    rfl
  · rw [State.byte, ht, Memory.find_store32 h, if_pos rfl]
    rfl
  · rw [ht, Memory.find_store32_outside h a b v (outside_of_ne (by omega) hb)]

/-- What a 64-bit store leaves. -/
theorem store64_effect {s t : State} (h : Memory.wf s.mem) {a : Word} {v : BitVec 64}
    (ht : t.mem = Memory.store64 s.mem a v) : holdsLong t a v ∧ sameOutside s t a 8 := by
  let u := s.withMem (Memory.store32 s.mem a (v.extractLsb' 32 32))
  have hu : Memory.wf u.mem := Memory.store32_wf _ _ h
  have first := (store32_effect (t := u) h rfl).1
  have second := store32_effect (s := u) (t := t) (a := a + 4#32) (v := v.extractLsb' 0 32) hu ht
  have keep : ∀ k : Word, k.toNat < 4 → t.byte (a + k) = u.byte (a + k) := by
    intro k hk
    apply second.2
    intro i hi
    bv_omega
  refine ⟨⟨?_, second.1⟩, fun b hb => State.byte_eq_of_find ?_⟩
  · have k0 := keep 0#32 (by decide)
    rw [BitVec.add_zero] at k0
    exact ⟨k0.trans first.1, (keep 1#32 (by decide)).trans first.2.1, (keep 2#32 (by decide)).trans first.2.2.1,
      (keep 3#32 (by decide)).trans first.2.2.2⟩
  · rw [ht, Memory.find_store64_outside h a b v (outside_of_ne (by omega) hb)]

/-- A string that is found ends within the bytes searched. -/
theorem nullTerminated_of_stringEnds {s : State} {fuel : Nat} {a : Word} (h : s.stringEnds fuel a = true) :
    ∃ len, nullTerminated s a len := by
  induction fuel generalizing a with
  | zero => simp [State.stringEnds] at h
  | succ fuel ih =>
    rw [State.stringEnds, Bool.and_eq_true, Bool.or_eq_true, decide_eq_true_eq] at h
    obtain ⟨hv, hz⟩ := h
    have step : ∀ i : Nat, a + 1#32 + BitVec.ofNat 32 i = a + BitVec.ofNat 32 (i + 1) := by
      intro i
      rw [BitVec.add_assoc, Nat.add_comm i 1, BitVec.ofNat_add]
    by_cases hb : s.byte a = 0#8
    · refine ⟨0, fun i hi => ?_, fun i hi => absurd hi (by omega), by simpa using hb⟩
      obtain rfl : i = 0 := by omega
      simpa using hv
    · obtain ⟨len, h1, h2, h3⟩ := ih (hz.resolve_left hb)
      refine ⟨len + 1, fun i hi => ?_, fun i hi => ?_, by rw [← step]; exact h3⟩
      · cases i with
        | zero => simpa using hv
        | succ i => rw [← step]; exact h1 i (by omega)
      · cases i with
        | zero => simpa using hb
        | succ i => rw [← step]; exact h2 i (by omega)

/-- Pointers to strings that pass the check are readable words, each the address of a string. -/
theorem stringsPlaced_spec {s : State} {base : Word} {count : Nat} (h : s.stringsPlaced base count = true) :
    ∀ i, i < count → (∀ k, k < 4 → s.valid (base + BitVec.ofNat 32 (4 * i) + BitVec.ofNat 32 k) = true) ∧
      ∃ len, nullTerminated s (wordAt s (base + BitVec.ofNat 32 (4 * i))) len := by
  induction count with
  | zero => intro i hi; omega
  | succ count ih =>
    rw [State.stringsPlaced, Bool.and_eq_true, Bool.and_eq_true] at h
    intro i hi
    rcases Nat.lt_succ_iff_lt_or_eq.1 hi with hi | rfl
    · exact ih h.2 i hi
    · refine ⟨(everyByte_iff _ _ _).1 h.1.1, ?_⟩
      rw [← load32_eq]
      exact nullTerminated_of_stringEnds h.1.2

/-- An array of names that passes the check is one in the words of claims (R276 c). -/
theorem namesAt_of_stringArray {s : State} {base : Word} {count : Nat} (h : s.stringArray base count = true) :
    namesAt s base count := by
  simp only [State.stringArray, Bool.and_eq_true, decide_eq_true_eq, List.all_eq_true, List.mem_range] at h
  obtain ⟨⟨⟨hp, hv⟩, hz⟩, hn⟩ := h
  refine ⟨fun i hi => ?_, fun i hi => ⟨?_, (stringsPlaced_spec hp i hi).2⟩, by rw [← load32_eq]; exact hz⟩
  · rcases Nat.lt_or_eq_of_le hi with hi | rfl
    · exact (stringsPlaced_spec hp i hi).1
    · exact (everyByte_iff _ _ _).1 hv
  · rw [← load32_eq]
    exact hn i hi

/-- Whether an array of names stands at an address depends on memory and map alone. -/
theorem namesAt_congr {s t : State} {base : Word} {count : Nat} (hm : t.mem = s.mem) (hr : t.regions = s.regions)
    (h : namesAt s base count) : namesAt t base count := by
  have hb : t.byte = s.byte := funext fun a => State.byte_eq_of_find (by rw [hm])
  have hv : t.valid = s.valid := funext fun a => by rw [State.valid, State.valid, hr]
  simp only [namesAt, nullTerminated, wordAt, hb, hv] at h ⊢
  exact h

end Sys2Proof.Machine
end

