-- ==== Sys2Proof/Laws/Launch.lean ====
section
/-! SUPPORT. What the bytes that a launch writes leave in memory (R340), and what its checks find (R342, R343). -/

namespace Sys2Proof.Machine

/-- Bytes written below 2^32 keep the canonical form. -/
theorem storeList_wf {m : Memory} {a : Nat} {bytes : List Byte} (h : Memory.wf m)
    (hb : a + bytes.length ≤ 4294967296) : Memory.wf (storeList m a bytes) := by
  induction bytes generalizing m a with
  | nil => exact h
  | cons b bs ih =>
    rw [List.length_cons] at hb
    refine ih ⟨Memory.store_pairwise a b h.1, fun c hc => ?_⟩ (by omega)
    rcases Memory.mem_store hc with rfl | hc
    · show a < 4294967296
      omega
    · exact h.2 c hc

/-- A list of bytes written, any byte read. -/
theorem find_storeList {m : Memory} {a : Nat} {bytes : List Byte} (c : Nat)
    (h : m.Pairwise (fun x y => x.1 < y.1)) :
    Memory.find (storeList m a bytes) c = if a ≤ c ∧ c < a + bytes.length then bytes[c - a]? else Memory.find m c := by
  induction bytes generalizing m a with
  | nil => rw [if_neg (by simp)]; rfl
  | cons b bs ih =>
    rw [storeList, ih (Memory.store_pairwise a b h), Memory.find_store _ _ _ _ h, List.length_cons]
    by_cases h1 : a = c
    · subst h1
      rw [if_neg (by omega), if_pos rfl, if_pos (by omega), Nat.sub_self]
      rfl
    · by_cases h2 : a ≤ c ∧ c < a + (bs.length + 1)
      · rw [if_pos (by omega), if_pos h2, show c - a = (c - (a + 1)) + 1 by omega]
        rfl
      · rw [if_neg (by omega), if_neg h1, if_neg h2]

/-- Ranges without a common address, said of one address. -/
theorem apart_iff {a n b m : Nat} : apart a n b m = true ↔ ∀ k, ¬(a ≤ k ∧ k < a + n ∧ b ≤ k ∧ k < b + m) := by
  simp only [apart, Bool.or_eq_true, decide_eq_true_eq]
  constructor
  · intro h k
    omega
  · intro h
    have h1 := h a
    have h2 := h b
    omega

/-- Entering at an entry leaves everything but the run status (R342). -/
theorem enterAt_eq (h : FileFormat.Header) (s : State) : ∃ r, enterAt h s = s.withRun r := by
  rw [enterAt]
  split
  · exact ⟨s.run, rfl⟩
  · exact ⟨_, rfl⟩

/-- The entry's exception in words: odd first, then past the code (R342, R320). -/
theorem entryFault_eq (h : FileFormat.Header) :
    entryFault h =
      if h.entry.toNat % 2 = 1 then some (.illegalBusAccess (Config.codeBase + h.entry))
      else if h.codesize.toNat ≤ h.entry.toNat then some (.invalidMemoryAccess (Config.codeBase + h.entry))
      else none := by
  have e : h.entry.getLsbD 0 = decide (h.entry.toNat % 2 = 1) := by
    rw [BitVec.getLsbD, Nat.testBit_zero]
  rw [entryFault, e]
  by_cases ho : h.entry.toNat % 2 = 1 <;> simp [ho]

/-- Everything a launch that succeeds has done (R340 to R345). -/
theorem launch_ok {inp : LaunchInput} {s : State} (hs : launch inp = .ok s) :
    ∃ h code data, FileFormat.readHeader inp.file = some h ∧ h.base = Config.codeBase ∧
      h.codesize.msb = false ∧ h.datasize.msb = false ∧ h.bsssize.msb = false ∧
      sectionBytes inp.file h.codeoffset h.codesize = some code ∧
      sectionBytes inp.file h.dataoffset h.datasize = some data ∧ layoutOk h inp = true ∧
      argvPlaced (entryState h code data inp) = true ∧ s = enterAt h (entryState h code data inp) := by
  unfold launch at hs
  split at hs
  · cases hs
  · rename_i h hh
    split at hs
    · cases hs
    · split at hs
      · cases hs
      · split at hs
        · rename_i hb hn _ _ code data hc hd
          dsimp only at hs
          split at hs
          · cases hs
          · split at hs
            · cases hs
            · rename_i hl ha
              injection hs with hs
              simp only [Bool.or_eq_true, not_or, Bool.not_eq_true] at hn
              exact ⟨h, code, data, hh, not_not.1 hb, hn.1.1, hn.1.2, hn.2, hc, hd, by simpa using hl, by simpa using ha,
                hs.symm⟩
        · cases hs

end Sys2Proof.Machine
end

