-- ==== Sys2Proof/Laws/PerInstr.lean ====
section
/-! SUPPORT. A statement made per instruction: the encoding has the length of the form that the opcode table gives
the encoded opcode (R95, R96). -/

namespace Sys2Proof

/-- The opcode of a field record. -/
def Fields.opcode : Fields → BitVec 7
  | .f1 op _ => op
  | .f2 op _ _ => op
  | .f3 op => op
  | .f4 op _ => op
  | .f5 op _ _ => op
  | .f6 op _ _ _ => op
  | .f7 op _ _ => op
  | .f8 op _ => op

/-- The leading field of a concatenation. -/
theorem lead_of_two {a : Nat} (op : BitVec 7) (x : BitVec a) : (op ++ x).extractLsb' a 7 = op := by
  apply BitVec.eq_of_getLsbD_eq
  intro k hk
  simp [BitVec.getLsbD_append, hk]

/-- The leading field of a longer concatenation. -/
theorem lead_of_three {a b : Nat} (op : BitVec 7) (x : BitVec a) (y : BitVec b) :
    (op ++ x ++ y).extractLsb' (a + b) 7 = op := by
  apply BitVec.eq_of_getLsbD_eq
  intro k hk
  have e1 : ¬ (a + b + k < b) := by omega
  have e2 : a + b + k - b = a + k := by omega
  simp [BitVec.getLsbD_append, hk, e1, e2]

/-- The leading field of a concatenation of four. -/
theorem lead_of_four {a b c : Nat} (op : BitVec 7) (u : BitVec a) (x : BitVec b) (y : BitVec c) :
    (op ++ u ++ x ++ y).extractLsb' (a + b + c) 7 = op := by
  apply BitVec.eq_of_getLsbD_eq
  intro k hk
  have e1 : ¬ (a + b + c + k < c) := by omega
  have e2 : ¬ (a + b + c + k - c < b) := by omega
  have e3 : a + b + c + k - c - b = a + k := by omega
  simp [BitVec.getLsbD_append, hk, e1, e2, e3]

/-- The opcode lies in the top seven bits of the first halfword, whatever the other fields hold (R82). -/
theorem opcodeOf_firstHalf (f : Fields) : opcodeOf (firstHalf f) = f.opcode := by
  cases f with
  | f1 op imm9 => exact lead_of_two op imm9
  | f2 op x y => exact lead_of_four op 0#1 x y
  | f3 op => exact lead_of_two op 0#9
  | f4 op x => exact lead_of_three op 0#5 x
  | f5 op imm5 y => exact lead_of_three op imm5 y
  | f6 op x y imm16 => exact lead_of_four op 0#1 x y
  | f7 op y imm16 => exact lead_of_three op 0#5 y
  | f8 op disp25 => exact lead_of_two op _

/-- The number of bytes of an encoding. -/
theorem length_encode (i : Instr) : (encode i).length = i.size := by
  rw [Instr.size, encode]
  cases fieldsForm (fieldsOf i) <;> rfl

end Sys2Proof

namespace Sys2Proof.Laws.EncodedLength

/-- The encoding is as long as the form of its opcode says, and the form is the one its fields have. -/
def Statement (i : Instr) : Prop :=
  opForm (opcodeOf (firstHalf (fieldsOf i))) = some (fieldsForm (fieldsOf i)) ∧ (encode i).length = i.size

theorem beqs (disp : Int) : Statement (.beqs disp) := ⟨by rw [opcodeOf_firstHalf]; rfl, length_encode _⟩
theorem bges (disp : Int) : Statement (.bges disp) := ⟨by rw [opcodeOf_firstHalf]; rfl, length_encode _⟩
theorem bgts (disp : Int) : Statement (.bgts disp) := ⟨by rw [opcodeOf_firstHalf]; rfl, length_encode _⟩
theorem bles (disp : Int) : Statement (.bles disp) := ⟨by rw [opcodeOf_firstHalf]; rfl, length_encode _⟩
theorem blts (disp : Int) : Statement (.blts disp) := ⟨by rw [opcodeOf_firstHalf]; rfl, length_encode _⟩
theorem bnes (disp : Int) : Statement (.bnes disp) := ⟨by rw [opcodeOf_firstHalf]; rfl, length_encode _⟩
theorem bras (disp : Int) : Statement (.bras disp) := ⟨by rw [opcodeOf_firstHalf]; rfl, length_encode _⟩
theorem rets (slots : Int) : Statement (.rets slots) := ⟨by rw [opcodeOf_firstHalf]; rfl, length_encode _⟩
theorem bccs (disp : Int) : Statement (.bccs disp) := ⟨by rw [opcodeOf_firstHalf]; rfl, length_encode _⟩
theorem bcss (disp : Int) : Statement (.bcss disp) := ⟨by rw [opcodeOf_firstHalf]; rfl, length_encode _⟩
theorem bvcs (disp : Int) : Statement (.bvcs disp) := ⟨by rw [opcodeOf_firstHalf]; rfl, length_encode _⟩
theorem bvss (disp : Int) : Statement (.bvss disp) := ⟨by rw [opcodeOf_firstHalf]; rfl, length_encode _⟩
theorem bbss (disp : Int) : Statement (.bbss disp) := ⟨by rw [opcodeOf_firstHalf]; rfl, length_encode _⟩
theorem bass (disp : Int) : Statement (.bass disp) := ⟨by rw [opcodeOf_firstHalf]; rfl, length_encode _⟩
theorem bats (disp : Int) : Statement (.bats disp) := ⟨by rw [opcodeOf_firstHalf]; rfl, length_encode _⟩
theorem bbts (disp : Int) : Statement (.bbts disp) := ⟨by rw [opcodeOf_firstHalf]; rfl, length_encode _⟩
theorem beql (disp : Int) : Statement (.beql disp) := ⟨by rw [opcodeOf_firstHalf]; rfl, length_encode _⟩
theorem bgel (disp : Int) : Statement (.bgel disp) := ⟨by rw [opcodeOf_firstHalf]; rfl, length_encode _⟩
theorem bgtl (disp : Int) : Statement (.bgtl disp) := ⟨by rw [opcodeOf_firstHalf]; rfl, length_encode _⟩
theorem blel (disp : Int) : Statement (.blel disp) := ⟨by rw [opcodeOf_firstHalf]; rfl, length_encode _⟩
theorem bltl (disp : Int) : Statement (.bltl disp) := ⟨by rw [opcodeOf_firstHalf]; rfl, length_encode _⟩
theorem bnel (disp : Int) : Statement (.bnel disp) := ⟨by rw [opcodeOf_firstHalf]; rfl, length_encode _⟩
theorem bral (disp : Int) : Statement (.bral disp) := ⟨by rw [opcodeOf_firstHalf]; rfl, length_encode _⟩
theorem bsrl (disp : Int) : Statement (.bsrl disp) := ⟨by rw [opcodeOf_firstHalf]; rfl, length_encode _⟩
theorem bbsl (disp : Int) : Statement (.bbsl disp) := ⟨by rw [opcodeOf_firstHalf]; rfl, length_encode _⟩
theorem basl (disp : Int) : Statement (.basl disp) := ⟨by rw [opcodeOf_firstHalf]; rfl, length_encode _⟩
theorem batl (disp : Int) : Statement (.batl disp) := ⟨by rw [opcodeOf_firstHalf]; rfl, length_encode _⟩
theorem bbtl (disp : Int) : Statement (.bbtl disp) := ⟨by rw [opcodeOf_firstHalf]; rfl, length_encode _⟩
theorem add (rx : IReg) (ry : IReg) : Statement (.add rx ry) := ⟨by rw [opcodeOf_firstHalf]; rfl, length_encode _⟩
theorem addc (rx : IReg) (ry : IReg) : Statement (.addc rx ry) := ⟨by rw [opcodeOf_firstHalf]; rfl, length_encode _⟩
theorem and (rx : IReg) (ry : IReg) : Statement (.and rx ry) := ⟨by rw [opcodeOf_firstHalf]; rfl, length_encode _⟩
theorem asr (rx : IReg) (ry : IReg) : Statement (.asr rx ry) := ⟨by rw [opcodeOf_firstHalf]; rfl, length_encode _⟩
theorem lsl (rx : IReg) (ry : IReg) : Statement (.lsl rx ry) := ⟨by rw [opcodeOf_firstHalf]; rfl, length_encode _⟩
theorem lsr (rx : IReg) (ry : IReg) : Statement (.lsr rx ry) := ⟨by rw [opcodeOf_firstHalf]; rfl, length_encode _⟩
theorem cmp (rx : IReg) (ry : IReg) : Statement (.cmp rx ry) := ⟨by rw [opcodeOf_firstHalf]; rfl, length_encode _⟩
theorem sub (rx : IReg) (ry : IReg) : Statement (.sub rx ry) := ⟨by rw [opcodeOf_firstHalf]; rfl, length_encode _⟩
theorem subb (rx : IReg) (ry : IReg) : Statement (.subb rx ry) := ⟨by rw [opcodeOf_firstHalf]; rfl, length_encode _⟩
theorem divs (rx : IReg) (ry : IReg) : Statement (.divs rx ry) := ⟨by rw [opcodeOf_firstHalf]; rfl, length_encode _⟩
theorem divu (rx : IReg) (ry : IReg) : Statement (.divu rx ry) := ⟨by rw [opcodeOf_firstHalf]; rfl, length_encode _⟩
theorem mod (rx : IReg) (ry : IReg) : Statement (.mod rx ry) := ⟨by rw [opcodeOf_firstHalf]; rfl, length_encode _⟩
theorem move (rx : IReg) (ry : IReg) : Statement (.move rx ry) := ⟨by rw [opcodeOf_firstHalf]; rfl, length_encode _⟩
theorem muls (rx : IReg) (ry : IReg) : Statement (.muls rx ry) := ⟨by rw [opcodeOf_firstHalf]; rfl, length_encode _⟩
theorem mulu (rx : IReg) (ry : IReg) : Statement (.mulu rx ry) := ⟨by rw [opcodeOf_firstHalf]; rfl, length_encode _⟩
theorem neg (rx : IReg) (ry : IReg) : Statement (.neg rx ry) := ⟨by rw [opcodeOf_firstHalf]; rfl, length_encode _⟩
theorem not (rx : IReg) (ry : IReg) : Statement (.not rx ry) := ⟨by rw [opcodeOf_firstHalf]; rfl, length_encode _⟩
theorem or (rx : IReg) (ry : IReg) : Statement (.or rx ry) := ⟨by rw [opcodeOf_firstHalf]; rfl, length_encode _⟩
theorem xor (rx : IReg) (ry : IReg) : Statement (.xor rx ry) := ⟨by rw [opcodeOf_firstHalf]; rfl, length_encode _⟩
theorem fadd (fx : FReg) (fy : FReg) : Statement (.fadd fx fy) := ⟨by rw [opcodeOf_firstHalf]; rfl, length_encode _⟩
theorem fcmp (fx : FReg) (fy : FReg) : Statement (.fcmp fx fy) := ⟨by rw [opcodeOf_firstHalf]; rfl, length_encode _⟩
theorem fdiv (fx : FReg) (fy : FReg) : Statement (.fdiv fx fy) := ⟨by rw [opcodeOf_firstHalf]; rfl, length_encode _⟩
theorem fmove (fx : FReg) (fy : FReg) : Statement (.fmove fx fy) := ⟨by rw [opcodeOf_firstHalf]; rfl, length_encode _⟩
theorem fmul (fx : FReg) (fy : FReg) : Statement (.fmul fx fy) := ⟨by rw [opcodeOf_firstHalf]; rfl, length_encode _⟩
theorem fneg (fx : FReg) (fy : FReg) : Statement (.fneg fx fy) := ⟨by rw [opcodeOf_firstHalf]; rfl, length_encode _⟩
theorem fsub (fx : FReg) (fy : FReg) : Statement (.fsub fx fy) := ⟨by rw [opcodeOf_firstHalf]; rfl, length_encode _⟩
theorem fldd (disp : Int) (rx : IReg) (fy : FReg) : Statement (.fldd disp rx fy) := ⟨by rw [opcodeOf_firstHalf]; rfl, length_encode _⟩
theorem flds (disp : Int) (rx : IReg) (fy : FReg) : Statement (.flds disp rx fy) := ⟨by rw [opcodeOf_firstHalf]; rfl, length_encode _⟩
theorem lbzx (disp : Int) (rx : IReg) (ry : IReg) : Statement (.lbzx disp rx ry) := ⟨by rw [opcodeOf_firstHalf]; rfl, length_encode _⟩
theorem lbsx (disp : Int) (rx : IReg) (ry : IReg) : Statement (.lbsx disp rx ry) := ⟨by rw [opcodeOf_firstHalf]; rfl, length_encode _⟩
theorem llsx (disp : Int) (rx : IReg) (ry : IReg) : Statement (.llsx disp rx ry) := ⟨by rw [opcodeOf_firstHalf]; rfl, length_encode _⟩
theorem llzx (disp : Int) (rx : IReg) (ry : IReg) : Statement (.llzx disp rx ry) := ⟨by rw [opcodeOf_firstHalf]; rfl, length_encode _⟩
theorem lwsx (disp : Int) (rx : IReg) (ry : IReg) : Statement (.lwsx disp rx ry) := ⟨by rw [opcodeOf_firstHalf]; rfl, length_encode _⟩
theorem lwzx (disp : Int) (rx : IReg) (ry : IReg) : Statement (.lwzx disp rx ry) := ⟨by rw [opcodeOf_firstHalf]; rfl, length_encode _⟩
theorem fstd (fx : FReg) (disp : Int) (ry : IReg) : Statement (.fstd fx disp ry) := ⟨by rw [opcodeOf_firstHalf]; rfl, length_encode _⟩
theorem fsts (fx : FReg) (disp : Int) (ry : IReg) : Statement (.fsts fx disp ry) := ⟨by rw [opcodeOf_firstHalf]; rfl, length_encode _⟩
theorem stb (rx : IReg) (disp : Int) (ry : IReg) : Statement (.stb rx disp ry) := ⟨by rw [opcodeOf_firstHalf]; rfl, length_encode _⟩
theorem stl (rx : IReg) (disp : Int) (ry : IReg) : Statement (.stl rx disp ry) := ⟨by rw [opcodeOf_firstHalf]; rfl, length_encode _⟩
theorem stw (rx : IReg) (disp : Int) (ry : IReg) : Statement (.stw rx disp ry) := ⟨by rw [opcodeOf_firstHalf]; rfl, length_encode _⟩
theorem syscall : Statement .syscall := ⟨by rw [opcodeOf_firstHalf]; rfl, length_encode _⟩
theorem nop : Statement .nop := ⟨by rw [opcodeOf_firstHalf]; rfl, length_encode _⟩
theorem lims (imm : Int) (ry : IReg) : Statement (.lims imm ry) := ⟨by rw [opcodeOf_firstHalf]; rfl, length_encode _⟩
theorem orhi (imm : BitVec 16) (ry : IReg) : Statement (.orhi imm ry) := ⟨by rw [opcodeOf_firstHalf]; rfl, length_encode _⟩
theorem lilo (imm : BitVec 16) (ry : IReg) : Statement (.lilo imm ry) := ⟨by rw [opcodeOf_firstHalf]; rfl, length_encode _⟩
theorem call (rx : IReg) : Statement (.call rx) := ⟨by rw [opcodeOf_firstHalf]; rfl, length_encode _⟩
theorem popl (rx : IReg) : Statement (.popl rx) := ⟨by rw [opcodeOf_firstHalf]; rfl, length_encode _⟩
theorem pushl (rx : IReg) : Statement (.pushl rx) := ⟨by rw [opcodeOf_firstHalf]; rfl, length_encode _⟩

end Sys2Proof.Laws.EncodedLength
end

