-- ==== Sys2Proof/Laws/Under.lean ====
section
/-! SUPPORT. The machine under the default parameters of R7 is the machine of Dispatch.lean and Step.lean. -/

namespace Sys2Proof.Machine

/-- At the defaults, `execUnder` is `exec`. -/
theorem execUnder_defaults (i : Instr) (s : State) : execUnder Params.defaults i s = exec i s := by
  cases i <;> rfl

/-- At the defaults, `stepUnder` is `step`. -/
theorem stepUnder_defaults (s : State) : stepUnder Params.defaults s = step s := by
  have h : execUnder Params.defaults = exec := funext fun i => funext (execUnder_defaults i)
  unfold stepUnder
  rw [h]
  rfl

end Sys2Proof.Machine
end

