-- ==== Sys2Proof/Machine/Assembler.lean ====
section
/-! DEFINITION. The assembler level, as far as the source describes it (R2, R104 to R113): mnemonics and their
variant spellings, operand order and punctuation. A branch is written with the byte displacement where the source
writes a label, since the text of an instruction by itself has no labels (R109, log 25). -/

namespace Sys2Proof.Machine.Assembler

/-- The mnemonic in the spelling of the encoding table (R95, R113). -/
def mnemonic : Instr → String
  | .beqs _ => "BEQS"
  | .bges _ => "BGES"
  | .bgts _ => "BGTS"
  | .bles _ => "BLES"
  | .blts _ => "BLTS"
  | .bnes _ => "BNES"
  | .bras _ => "BRAS"
  | .rets _ => "RETS"
  | .bccs _ => "BCCS"
  | .bcss _ => "BCSS"
  | .bvcs _ => "BVCS"
  | .bvss _ => "BVSS"
  | .bbss _ => "BBSS"
  | .bass _ => "BASS"
  | .bats _ => "BATS"
  | .bbts _ => "BBTS"
  | .beql _ => "BEQL"
  | .bgel _ => "BGEL"
  | .bgtl _ => "BGTL"
  | .blel _ => "BLEL"
  | .bltl _ => "BLTL"
  | .bnel _ => "BNEL"
  | .bral _ => "BRAL"
  | .bsrl _ => "BSRL"
  | .bbsl _ => "BBSL"
  | .basl _ => "BASL"
  | .batl _ => "BATL"
  | .bbtl _ => "BBTL"
  | .add _ _ => "ADD"
  | .addc _ _ => "ADDC"
  | .and _ _ => "AND"
  | .asr _ _ => "ASR"
  | .lsl _ _ => "LSL"
  | .lsr _ _ => "LSR"
  | .cmp _ _ => "CMP"
  | .sub _ _ => "SUB"
  | .subb _ _ => "SUBB"
  | .divs _ _ => "DIVS"
  | .divu _ _ => "DIVU"
  | .mod _ _ => "MOD"
  | .move _ _ => "MOVE"
  | .muls _ _ => "MULS"
  | .mulu _ _ => "MULU"
  | .neg _ _ => "NEG"
  | .not _ _ => "NOT"
  | .or _ _ => "OR"
  | .xor _ _ => "XOR"
  | .fadd _ _ => "FADD"
  | .fcmp _ _ => "FCMP"
  | .fdiv _ _ => "FDIV"
  | .fmove _ _ => "FMOVE"
  | .fmul _ _ => "FMUL"
  | .fneg _ _ => "FNEG"
  | .fsub _ _ => "FSUB"
  | .fldd _ _ _ => "FLDD"
  | .flds _ _ _ => "FLDS"
  | .lbzx _ _ _ => "LBZX"
  | .lbsx _ _ _ => "LBSX"
  | .llsx _ _ _ => "LLSX"
  | .llzx _ _ _ => "LLZX"
  | .lwsx _ _ _ => "LWSX"
  | .lwzx _ _ _ => "LWZX"
  | .fstd _ _ _ => "FSTD"
  | .fsts _ _ _ => "FSTS"
  | .stb _ _ _ => "STB"
  | .stl _ _ _ => "STL"
  | .stw _ _ _ => "STW"
  | .syscall => "SYSCALL"
  | .nop => "NOP"
  | .lims _ _ => "LIMS"
  | .orhi _ _ => "ORHI"
  | .lilo _ _ => "LILO"
  | .call _ => "CALL"
  | .popl _ => "POPL"
  | .pushl _ => "PUSHL"

/-- The other spellings of four mnemonics (R113). -/
def aliases : List (String × String) :=
  [("BLSS", "BBSS"), ("BLSL", "BBSL"), ("LIL0", "LILO"), ("PUSHHL", "PUSHL")]

/-- The assembler is not case-sensitive on opcodes (R104): a written opcode, folded to upper case and to the
spelling of the encoding table. -/
def canonicalOpcode (written : String) : String :=
  let upper := written.toUpper
  (aliases.lookup upper).getD upper

/-- An integer register (R105): the source shows r0 and sp, the spec infers the rest. -/
def regText : IReg → String
  | .r n => "%r" ++ toString n.val
  | .sp => "%sp"
  | .fp => "%fp"
  | .ccr => "%ccr"
  | .pc => "%pc"

/-- A floating-point register (R105). -/
def fregText (n : FReg) : String := "%fp" ++ toString n.val

/-- A memory operand: displacement, then the base in parentheses (R108). -/
def memText (disp : Int) (base : IReg) : String := toString disp ++ "(" ++ regText base ++ ")"

/-- An immediate (R107). -/
def immText (imm : Int) : String := "#" ++ toString imm

/-- The operands, source first and destination second (R106, R111). -/
def operandText : Instr → List String
  | .beqs disp => [toString disp]
  | .bges disp => [toString disp]
  | .bgts disp => [toString disp]
  | .bles disp => [toString disp]
  | .blts disp => [toString disp]
  | .bnes disp => [toString disp]
  | .bras disp => [toString disp]
  | .rets slots => [immText slots]
  | .bccs disp => [toString disp]
  | .bcss disp => [toString disp]
  | .bvcs disp => [toString disp]
  | .bvss disp => [toString disp]
  | .bbss disp => [toString disp]
  | .bass disp => [toString disp]
  | .bats disp => [toString disp]
  | .bbts disp => [toString disp]
  | .beql disp => [toString disp]
  | .bgel disp => [toString disp]
  | .bgtl disp => [toString disp]
  | .blel disp => [toString disp]
  | .bltl disp => [toString disp]
  | .bnel disp => [toString disp]
  | .bral disp => [toString disp]
  | .bsrl disp => [toString disp]
  | .bbsl disp => [toString disp]
  | .basl disp => [toString disp]
  | .batl disp => [toString disp]
  | .bbtl disp => [toString disp]
  | .add rx ry => [regText rx, regText ry]
  | .addc rx ry => [regText rx, regText ry]
  | .and rx ry => [regText rx, regText ry]
  | .asr rx ry => [regText rx, regText ry]
  | .lsl rx ry => [regText rx, regText ry]
  | .lsr rx ry => [regText rx, regText ry]
  | .cmp rx ry => [regText rx, regText ry]
  | .sub rx ry => [regText rx, regText ry]
  | .subb rx ry => [regText rx, regText ry]
  | .divs rx ry => [regText rx, regText ry]
  | .divu rx ry => [regText rx, regText ry]
  | .mod rx ry => [regText rx, regText ry]
  | .move rx ry => [regText rx, regText ry]
  | .muls rx ry => [regText rx, regText ry]
  | .mulu rx ry => [regText rx, regText ry]
  | .neg rx ry => [regText rx, regText ry]
  | .not rx ry => [regText rx, regText ry]
  | .or rx ry => [regText rx, regText ry]
  | .xor rx ry => [regText rx, regText ry]
  | .fadd fx fy => [fregText fx, fregText fy]
  | .fcmp fx fy => [fregText fx, fregText fy]
  | .fdiv fx fy => [fregText fx, fregText fy]
  | .fmove fx fy => [fregText fx, fregText fy]
  | .fmul fx fy => [fregText fx, fregText fy]
  | .fneg fx fy => [fregText fx, fregText fy]
  | .fsub fx fy => [fregText fx, fregText fy]
  | .fldd disp rx fy => [memText disp rx, fregText fy]
  | .flds disp rx fy => [memText disp rx, fregText fy]
  | .lbzx disp rx ry => [memText disp rx, regText ry]
  | .lbsx disp rx ry => [memText disp rx, regText ry]
  | .llsx disp rx ry => [memText disp rx, regText ry]
  | .llzx disp rx ry => [memText disp rx, regText ry]
  | .lwsx disp rx ry => [memText disp rx, regText ry]
  | .lwzx disp rx ry => [memText disp rx, regText ry]
  | .fstd fx disp ry => [fregText fx, memText disp ry]
  | .fsts fx disp ry => [fregText fx, memText disp ry]
  | .stb rx disp ry => [regText rx, memText disp ry]
  | .stl rx disp ry => [regText rx, memText disp ry]
  | .stw rx disp ry => [regText rx, memText disp ry]
  | .syscall => []
  | .nop => []
  | .lims imm ry => [immText imm, regText ry]
  | .orhi imm ry => [immText imm.toNat, regText ry]
  | .lilo imm ry => [immText imm.toNat, regText ry]
  | .call rx => ["(" ++ regText rx ++ ")"]
  | .popl rx => [regText rx]
  | .pushl rx => [regText rx]

/-- The text of an instruction (R106 to R109, R111). -/
def text (i : Instr) : String :=
  match operandText i with
  | [] => mnemonic i
  | ops => mnemonic i ++ " " ++ String.intercalate "," ops

/-- The pattern an assembler stores for the immediate of LILO or ORHI: -32768 to 65535 are accepted and the low 16
bits stored (R94, D31). -/
def imm16Field (v : Int) : Option (BitVec 16) :=
  if -32768 ≤ v ∧ v ≤ 65535 then some (BitVec.ofInt 16 v) else none

end Sys2Proof.Machine.Assembler
end

