-- ==== Sys2Proof/Tests/Slice0.lean ====
section
/-! SUPPORT. The row's own tests. Expected results are those of the spec's test vectors (spec/95_test_vectors.md and
spec/96_test_vectors_continued.md, section numbers in the docstrings). The last part shows, for every obligation with
hypotheses, a state and operands that meet them. -/

set_option maxRecDepth 8000

namespace Sys2Proof.Tests

open Sys2Proof.Machine

/-! ### WellFormed: an ill-formed term for each check -/

/-- A short branch: odd, one step below the reach, one above. -/
theorem test_short_reach_refused :
    Instr.wellFormed (.beqs 3) = false ∧ Instr.wellFormed (.bras (-514)) = false ∧
      Instr.wellFormed (.bbts 512) = false := by decide

/-- A long branch: odd, below, above. -/
theorem test_long_reach_refused :
    Instr.wellFormed (.bsrl (-1)) = false ∧ Instr.wellFormed (.beql (-33554434)) = false ∧
      Instr.wellFormed (.bral 33554432) = false := by decide

/-- RETS: below and above. -/
theorem test_slot_range_refused :
    Instr.wellFormed (.rets (-257)) = false ∧ Instr.wellFormed (.rets 256) = false := by decide

/-- LIMS: below and above. -/
theorem test_imm5_range_refused :
    Instr.wellFormed (.lims (-17) .sp) = false ∧ Instr.wellFormed (.lims 16 .sp) = false := by decide

/-- A load and a store: below and above. -/
theorem test_disp16_range_refused :
    Instr.wellFormed (.lbzx (-32769) .fp .pc) = false ∧ Instr.wellFormed (.fstd 0 32768 .fp) = false := by decide

/-! ### Decoding: one word of every instruction (95 section 2.1) -/

/-- The word decodes to the instruction, and the instruction encodes to these bytes. -/
def reads (nbits w : Nat) (bytes : List Byte) (i : Instr) : Bool :=
  decide (decodeTableWord nbits w = some i) && decide (encode i = bytes) && i.wellFormed

theorem test_decode_short_branches :
    (reads 16 0x000A [0x00#8, 0x0A#8] (.beqs 20) &&
      reads 16 0x03F0 [0x03#8, 0xF0#8] (.bges (-32)) &&
      reads 16 0x040A [0x04#8, 0x0A#8] (.bgts 20) &&
      reads 16 0x07F0 [0x07#8, 0xF0#8] (.bles (-32)) &&
      reads 16 0x080A [0x08#8, 0x0A#8] (.blts 20) &&
      reads 16 0x0BF0 [0x0B#8, 0xF0#8] (.bnes (-32)) &&
      reads 16 0x0C0A [0x0C#8, 0x0A#8] (.bras 20) &&
      reads 16 0x100A [0x10#8, 0x0A#8] (.bccs 20) &&
      reads 16 0x13F0 [0x13#8, 0xF0#8] (.bcss (-32)) &&
      reads 16 0x140A [0x14#8, 0x0A#8] (.bvcs 20) &&
      reads 16 0x17F0 [0x17#8, 0xF0#8] (.bvss (-32)) &&
      reads 16 0x180A [0x18#8, 0x0A#8] (.bbss 20) &&
      reads 16 0x1BF0 [0x1B#8, 0xF0#8] (.bass (-32)) &&
      reads 16 0x1C0A [0x1C#8, 0x0A#8] (.bats 20) &&
      reads 16 0x1FF0 [0x1F#8, 0xF0#8] (.bbts (-32))) = true := by decide

theorem test_decode_rets :
    (reads 16 0x0E02 [0x0E#8, 0x02#8] (.rets 2)) = true := by decide

theorem test_decode_long_branches :
    (reads 32 0x20000123 [0x20#8, 0x00#8, 0x01#8, 0x23#8] (.beql 582) &&
      reads 32 0x23FFFFF0 [0x23#8, 0xFF#8, 0xFF#8, 0xF0#8] (.bgel (-32)) &&
      reads 32 0x24000123 [0x24#8, 0x00#8, 0x01#8, 0x23#8] (.bgtl 582) &&
      reads 32 0x27FFFFF0 [0x27#8, 0xFF#8, 0xFF#8, 0xF0#8] (.blel (-32)) &&
      reads 32 0x28000123 [0x28#8, 0x00#8, 0x01#8, 0x23#8] (.bltl 582) &&
      reads 32 0x2BFFFFF0 [0x2B#8, 0xFF#8, 0xFF#8, 0xF0#8] (.bnel (-32)) &&
      reads 32 0x2C000123 [0x2C#8, 0x00#8, 0x01#8, 0x23#8] (.bral 582) &&
      reads 32 0x2FFFFFF0 [0x2F#8, 0xFF#8, 0xFF#8, 0xF0#8] (.bsrl (-32)) &&
      reads 32 0x30000123 [0x30#8, 0x00#8, 0x01#8, 0x23#8] (.bbsl 582) &&
      reads 32 0x33FFFFF0 [0x33#8, 0xFF#8, 0xFF#8, 0xF0#8] (.basl (-32)) &&
      reads 32 0x34000123 [0x34#8, 0x00#8, 0x01#8, 0x23#8] (.batl 582) &&
      reads 32 0x37FFFFF0 [0x37#8, 0xFF#8, 0xFF#8, 0xF0#8] (.bbtl (-32))) = true := by decide

theorem test_decode_integer :
    (reads 16 0x4059 [0x40#8, 0x59#8] (.add (.r 5) (.r 9)) &&
      reads 16 0x4259 [0x42#8, 0x59#8] (.addc (.r 5) (.r 9)) &&
      reads 16 0x4459 [0x44#8, 0x59#8] (.and (.r 5) (.r 9)) &&
      reads 16 0x4659 [0x46#8, 0x59#8] (.asr (.r 5) (.r 9)) &&
      reads 16 0x4859 [0x48#8, 0x59#8] (.lsl (.r 5) (.r 9)) &&
      reads 16 0x4A59 [0x4A#8, 0x59#8] (.lsr (.r 5) (.r 9)) &&
      reads 16 0x4C59 [0x4C#8, 0x59#8] (.cmp (.r 5) (.r 9)) &&
      reads 16 0x4E59 [0x4E#8, 0x59#8] (.sub (.r 5) (.r 9)) &&
      reads 16 0x5059 [0x50#8, 0x59#8] (.subb (.r 5) (.r 9)) &&
      reads 16 0x5259 [0x52#8, 0x59#8] (.divs (.r 5) (.r 9)) &&
      reads 16 0x5459 [0x54#8, 0x59#8] (.divu (.r 5) (.r 9)) &&
      reads 16 0x5659 [0x56#8, 0x59#8] (.mod (.r 5) (.r 9)) &&
      reads 16 0x5859 [0x58#8, 0x59#8] (.move (.r 5) (.r 9)) &&
      reads 16 0x5A59 [0x5A#8, 0x59#8] (.muls (.r 5) (.r 9)) &&
      reads 16 0x5C59 [0x5C#8, 0x59#8] (.mulu (.r 5) (.r 9)) &&
      reads 16 0x5E59 [0x5E#8, 0x59#8] (.neg (.r 5) (.r 9)) &&
      reads 16 0x6059 [0x60#8, 0x59#8] (.not (.r 5) (.r 9)) &&
      reads 16 0x6259 [0x62#8, 0x59#8] (.or (.r 5) (.r 9)) &&
      reads 16 0x6459 [0x64#8, 0x59#8] (.xor (.r 5) (.r 9))) = true := by decide

theorem test_decode_float :
    (reads 16 0x6659 [0x66#8, 0x59#8] (.fadd 5 9) &&
      reads 16 0x6859 [0x68#8, 0x59#8] (.fcmp 5 9) &&
      reads 16 0x6A59 [0x6A#8, 0x59#8] (.fdiv 5 9) &&
      reads 16 0x6C59 [0x6C#8, 0x59#8] (.fmove 5 9) &&
      reads 16 0x6E59 [0x6E#8, 0x59#8] (.fmul 5 9) &&
      reads 16 0x7059 [0x70#8, 0x59#8] (.fneg 5 9) &&
      reads 16 0x7259 [0x72#8, 0x59#8] (.fsub 5 9)) = true := by decide

theorem test_decode_float_loads :
    (reads 32 0x80D4FFF8 [0x80#8, 0xD4#8, 0xFF#8, 0xF8#8] (.fldd (-8) .fp 4) &&
      reads 32 0x82D4FFF8 [0x82#8, 0xD4#8, 0xFF#8, 0xF8#8] (.flds (-8) .fp 4)) = true := by decide

theorem test_decode_loads :
    (reads 32 0x90A37FFC [0x90#8, 0xA3#8, 0x7F#8, 0xFC#8] (.lbzx (32764) (.r 10) (.r 3)) &&
      reads 32 0x92A37FFC [0x92#8, 0xA3#8, 0x7F#8, 0xFC#8] (.lbsx (32764) (.r 10) (.r 3)) &&
      reads 32 0x94A37FFC [0x94#8, 0xA3#8, 0x7F#8, 0xFC#8] (.llsx (32764) (.r 10) (.r 3)) &&
      reads 32 0x96A37FFC [0x96#8, 0xA3#8, 0x7F#8, 0xFC#8] (.llzx (32764) (.r 10) (.r 3)) &&
      reads 32 0x98A37FFC [0x98#8, 0xA3#8, 0x7F#8, 0xFC#8] (.lwsx (32764) (.r 10) (.r 3)) &&
      reads 32 0x9AA37FFC [0x9A#8, 0xA3#8, 0x7F#8, 0xFC#8] (.lwzx (32764) (.r 10) (.r 3))) = true := by decide

theorem test_decode_float_stores :
    (reads 32 0xA04DFFF8 [0xA0#8, 0x4D#8, 0xFF#8, 0xF8#8] (.fstd 4 (-8) .fp) &&
      reads 32 0xA24DFFF8 [0xA2#8, 0x4D#8, 0xFF#8, 0xF8#8] (.fsts 4 (-8) .fp)) = true := by decide

theorem test_decode_stores :
    (reads 32 0xB03A8000 [0xB0#8, 0x3A#8, 0x80#8, 0x00#8] (.stb (.r 3) (-32768) (.r 10)) &&
      reads 32 0xB23A8000 [0xB2#8, 0x3A#8, 0x80#8, 0x00#8] (.stl (.r 3) (-32768) (.r 10)) &&
      reads 32 0xB43A8000 [0xB4#8, 0x3A#8, 0x80#8, 0x00#8] (.stw (.r 3) (-32768) (.r 10))) = true := by decide

theorem test_decode_no_operand :
    (reads 16 0xE000 [0xE0#8, 0x00#8] .syscall &&
      reads 16 0xE200 [0xE2#8, 0x00#8] .nop) = true := by decide

theorem test_decode_lims :
    (reads 16 0xE5D6 [0xE5#8, 0xD6#8] (.lims (-3) (.r 6))) = true := by decide

theorem test_decode_imm16 :
    (reads 32 0xE60BBEEF [0xE6#8, 0x0B#8, 0xBE#8, 0xEF#8] (.orhi 0xBEEF#16 (.r 11)) &&
      reads 32 0xE80BBEEF [0xE8#8, 0x0B#8, 0xBE#8, 0xEF#8] (.lilo 0xBEEF#16 (.r 11))) = true := by decide

theorem test_decode_one_register :
    (reads 16 0xF007 [0xF0#8, 0x07#8] (.call (.r 7)) &&
      reads 16 0xFC07 [0xFC#8, 0x07#8] (.popl (.r 7)) &&
      reads 16 0xFE07 [0xFE#8, 0x07#8] (.pushl (.r 7))) = true := by decide

/-! ### Words put together field by field from R83 to R90 -/

theorem test_bits_form1 : decode (halfBytes (0b0000001#7 ++ 0b111110000#9)) = .ok (.bges (-32), []) := by decide
theorem test_bits_form2 :
    decode (halfBytes (0b0100000#7 ++ 0b0#1 ++ 0b0101#4 ++ 0b1001#4)) = .ok (.add (.r 5) (.r 9), []) := by decide
theorem test_bits_form2_float :
    decode (halfBytes (0b0111001#7 ++ 0b0#1 ++ 0b1110#4 ++ 0b0011#4)) = .ok (.fsub 14 3, []) := by decide
theorem test_bits_form3 : decode (halfBytes (0b1110000#7 ++ 0b000000000#9)) = .ok (.syscall, []) := by decide
theorem test_bits_form4 :
    decode (halfBytes (0b1111110#7 ++ 0b00000#5 ++ 0b1110#4)) = .ok (.popl .ccr, []) := by decide
theorem test_bits_form5 :
    decode (halfBytes (0b1110010#7 ++ 0b11101#5 ++ 0b0110#4)) = .ok (.lims (-3) (.r 6), []) := by decide
theorem test_bits_form6 :
    decode (halfBytes (0b1011000#7 ++ 0b0#1 ++ 0b0011#4 ++ 0b1010#4) ++ halfBytes 0b1000000000000000#16) =
      .ok (.stb (.r 3) (-32768) (.r 10), []) := by decide
theorem test_bits_form7 :
    decode (halfBytes (0b1110011#7 ++ 0b00000#5 ++ 0b1011#4) ++ halfBytes 0b1011111011101111#16) =
      .ok (.orhi 0xBEEF#16 (.r 11), []) := by decide
theorem test_bits_form8 :
    decode (halfBytes (0b0010001#7 ++ 0b111111111#9) ++ halfBytes 0b1111111111110000#16) = .ok (.bgel (-32), []) := by
  decide

/-! ### Decoding: length, unassigned opcodes, unused bits, fields at their limits (95 sections 2.2 and 2.3) -/

/-- The first halfword alone decides: the form, or nothing. -/
def form (h0 : Half) : Option Form :=
  match formOf h0 with
  | .ok fm => some fm
  | .error _ => none

theorem test_illegal_first_halfwords :
    [0x3800#16, 0x3FFF#16, 0x7400#16, 0x7FFF#16, 0x8400#16, 0x9C00#16, 0xA400#16, 0xB600#16, 0xDFFF#16, 0xEA00#16, 0xF200#16, 0xFA00#16, 0x4112#16, 0xE001#16, 0xE201#16, 0xE3FF#16, 0xF010#16, 0xFC1F#16, 0x9100#16, 0xE610#16, 0xE7F3#16].map form =
      List.replicate 21 none := by decide

theorem test_forms_of_first_halfwords :
    [0x0000#16, 0x0DFF#16, 0x4012#16, 0xFE0C#16, 0x9012#16, 0xE803#16, 0xE4F1#16, 0x2E00#16, 0x3000#16].map form =
      [some .f1, some .f1, some .f2, some .f4, some .f6, some .f7, some .f5, some .f8, some .f8] := by decide

theorem test_rejected_by_name :
    decode [0x38#8, 0x00#8] = .error (.unassignedOpcode 28#7) ∧ decode [0xE2#8, 0x01#8] = .error (.unusedBit 0xE201#16) ∧
      decode [0x96#8, 0x12#8, 0x00#8] = .error .truncated ∧ decode [] = .error .truncated := by decide

theorem test_short_branch_limits :
    decodeTableWord 16 0x0CFF = some (.bras 510) ∧ decodeTableWord 16 0x0D00 = some (.bras (-512)) ∧
      decodeTableWord 16 0x0DFF = some (.bras (-2)) ∧ decodeTableWord 16 0x0C00 = some (.bras 0) := by decide

theorem test_rets_limits :
    decodeTableWord 16 0x0EFF = some (.rets 255) ∧ decodeTableWord 16 0x0F00 = some (.rets (-256)) ∧
      decodeTableWord 16 0x0FFF = some (.rets (-1)) := by decide

theorem test_long_branch_limits :
    decodeTableWord 32 0x2CFFFFFF = some (.bral 33554430) ∧ decodeTableWord 32 0x2D000000 = some (.bral (-33554432)) ∧
      decodeTableWord 32 0x2DFFFFFF = some (.bral (-2)) := by decide

theorem test_lims_limits :
    decodeTableWord 16 0xE4F3 = some (.lims 15 (.r 3)) ∧ decodeTableWord 16 0xE503 = some (.lims (-16) (.r 3)) ∧
      decodeTableWord 16 0xE5F3 = some (.lims (-1) (.r 3)) := by decide

theorem test_disp16_limits :
    decodeTableWord 32 0x90127FFF = some (.lbzx 32767 (.r 1) (.r 2)) ∧
      decodeTableWord 32 0x90128000 = some (.lbzx (-32768) (.r 1) (.r 2)) ∧
      decodeTableWord 32 0x9012FFFF = some (.lbzx (-1) (.r 1) (.r 2)) := by decide

/-! ### One step of every instruction -/

/-- The state of the vectors: code at 0x01000000, data and stack at 0x01001000, 256 bytes each, SP at the end. -/
def small : State :=
  { State.reset with
    regions := [{ segment := .code, base := 0x01000000, size := 256 }, { segment := .data, base := 0x01001000, size := 256 }]
    sp := 0x01001100#32 }

/-- Flags in the order of the vectors: N Z OV C. -/
def nzvc (n z ov c : Nat) : Flags := { c := c == 1, ov := ov == 1, n := n == 1, z := z == 1 }

/-- `small` with R1, R2 and the flags. -/
def int (a b : Word) (fl : Flags) : State := { small with r := (small.r.set 1 a).set 2 b, flags := fl }

/-- `small` with FP1, FP2 and the flags 0 0 1 1. -/
def float (a b : Double) : State := { small with f := (small.f.set 1 a).set 2 b, flags := nzvc 0 0 1 1 }

/-- Bytes written from an address on. -/
def State.poke (s : State) (a : Nat) (bytes : List Byte) : State := { s with mem := storeList s.mem a bytes }

/-- What is seen of the next state, if there is one. -/
def after {α : Type} (i : Instr) (s : State) (view : State → α) : Option α :=
  match exec i s with
  | .next t => some (view t)
  | _ => none

/-- R2, PC and flags. -/
def view2 (t : State) : Word × Word × Flags := (t.r[2], t.pc, t.flags)

/-- FP2, PC and flags. -/
def viewF (t : State) : Double × Word × Flags := (t.f[2], t.pc, t.flags)

/-- PC and run status. -/
def viewRun (t : State) : Word × RunStatus := (t.pc, t.run)
/-- The end of a run by a division by zero; its status is open (R223). -/
def divideAborted : RunStatus := .aborted .floatDivideByZero Config.fdivZeroStatus

/-- Four bytes of memory as they were written. -/
def written (t : State) (a : Nat) : List (Option Byte) := (List.range 4).map fun k => Memory.find t.mem (a + k)

/-! Integer vectors (95 sections 4 and 5). -/

theorem test_add_a : after (.add (.r 1) (.r 2)) (int 0x00000001#32 0x7FFFFFFF#32 (nzvc 0 1 1 0)) view2 =
    some (0x80000000#32, 0x01000002#32, nzvc 1 0 1 0) := by decide
theorem test_add_b : after (.add (.r 1) (.r 2)) (int 0x80000000#32 0x80000000#32 (nzvc 1 0 1 1)) view2 =
    some (0x00000000#32, 0x01000002#32, nzvc 0 1 1 1) := by decide
theorem test_sub_a : after (.sub (.r 1) (.r 2)) (int 0x00000005#32 0x00000001#32 (nzvc 0 1 1 0)) view2 =
    some (0xFFFFFFFC#32, 0x01000002#32, nzvc 1 0 1 1) := by decide
theorem test_sub_b : after (.sub (.r 1) (.r 2)) (int 0xFFFFFFFF#32 0x7FFFFFFF#32 (nzvc 1 0 1 1)) view2 =
    some (0x80000000#32, 0x01000002#32, nzvc 1 0 1 1) := by decide
theorem test_cmp_a : after (.cmp (.r 1) (.r 2)) (int 0x00000003#32 0x00000003#32 (nzvc 0 1 1 0)) view2 =
    some (0x00000003#32, 0x01000002#32, nzvc 0 1 1 0) := by decide
theorem test_cmp_b : after (.cmp (.r 1) (.r 2)) (int 0x80000000#32 0x00000000#32 (nzvc 1 0 1 1)) view2 =
    some (0x00000000#32, 0x01000002#32, nzvc 1 0 1 1) := by decide
theorem test_neg_a : after (.neg (.r 1) (.r 2)) (int 0xFFFFFFFF#32 0xAAAAAAAA#32 (nzvc 0 1 1 0)) view2 =
    some (0x00000001#32, 0x01000002#32, nzvc 0 0 0 1) := by decide
theorem test_neg_b : after (.neg (.r 1) (.r 2)) (int 0x80000000#32 0xAAAAAAAA#32 (nzvc 1 0 1 1)) view2 =
    some (0x80000000#32, 0x01000002#32, nzvc 1 0 1 1) := by decide
theorem test_addc_a : after (.addc (.r 1) (.r 2)) (int 0x00000000#32 0x7FFFFFFF#32 (nzvc 0 0 0 1)) view2 =
    some (0x80000000#32, 0x01000002#32, nzvc 1 0 1 1) := by decide
theorem test_addc_b : after (.addc (.r 1) (.r 2)) (int 0xFFFFFFFF#32 0x00000000#32 (nzvc 0 0 0 1)) view2 =
    some (0x00000000#32, 0x01000002#32, nzvc 0 1 0 1) := by decide
theorem test_subb_a : after (.subb (.r 1) (.r 2)) (int 0x00000000#32 0x00000000#32 (nzvc 0 0 0 1)) view2 =
    some (0xFFFFFFFF#32, 0x01000002#32, nzvc 1 0 0 1) := by decide
theorem test_subb_b : after (.subb (.r 1) (.r 2)) (int 0xFFFFFFFF#32 0x00000000#32 (nzvc 0 0 0 1)) view2 =
    some (0x00000000#32, 0x01000002#32, nzvc 0 1 0 1) := by decide
theorem test_muls_a : after (.muls (.r 1) (.r 2)) (int 0x00010000#32 0x00008000#32 (nzvc 0 1 1 0)) view2 =
    some (0x80000000#32, 0x01000002#32, nzvc 1 0 1 0) := by decide
theorem test_muls_b : after (.muls (.r 1) (.r 2)) (int 0x00000002#32 0xFFFFFFFF#32 (nzvc 1 0 1 1)) view2 =
    some (0xFFFFFFFE#32, 0x01000002#32, nzvc 1 0 0 1) := by decide
theorem test_mulu_a : after (.mulu (.r 1) (.r 2)) (int 0x00010000#32 0x00008000#32 (nzvc 0 1 1 0)) view2 =
    some (0x80000000#32, 0x01000002#32, nzvc 1 0 0 0) := by decide
theorem test_mulu_b : after (.mulu (.r 1) (.r 2)) (int 0x00000002#32 0xFFFFFFFF#32 (nzvc 1 0 1 1)) view2 =
    some (0xFFFFFFFE#32, 0x01000002#32, nzvc 1 0 1 1) := by decide
theorem test_divs_a : after (.divs (.r 1) (.r 2)) (int 0x00000003#32 0xFFFFFFF9#32 (nzvc 0 1 1 0)) view2 =
    some (0xFFFFFFFE#32, 0x01000002#32, nzvc 1 0 0 0) := by decide
theorem test_divs_b : after (.divs (.r 1) (.r 2)) (int 0xFFFFFFFF#32 0x80000000#32 (nzvc 1 0 1 1)) view2 =
    some (0x80000000#32, 0x01000002#32, nzvc 1 0 0 1) := by decide
theorem test_divu_a : after (.divu (.r 1) (.r 2)) (int 0x00000003#32 0xFFFFFFF9#32 (nzvc 0 1 1 0)) view2 =
    some (0x55555553#32, 0x01000002#32, nzvc 0 0 0 0) := by decide
theorem test_divu_b : after (.divu (.r 1) (.r 2)) (int 0x00000001#32 0x80000000#32 (nzvc 1 0 1 1)) view2 =
    some (0x80000000#32, 0x01000002#32, nzvc 1 0 0 1) := by decide
theorem test_mod_a : after (.mod (.r 1) (.r 2)) (int 0x00000003#32 0xFFFFFFF9#32 (nzvc 0 1 1 0)) view2 =
    some (0xFFFFFFFF#32, 0x01000002#32, nzvc 1 0 0 0) := by decide
theorem test_mod_b : after (.mod (.r 1) (.r 2)) (int 0xFFFFFFFD#32 0x00000007#32 (nzvc 1 0 1 1)) view2 =
    some (0x00000001#32, 0x01000002#32, nzvc 0 0 0 1) := by decide
theorem test_and_a : after (.and (.r 1) (.r 2)) (int 0xF0F0F0F0#32 0xFF00FF00#32 (nzvc 0 1 1 0)) view2 =
    some (0xF000F000#32, 0x01000002#32, nzvc 1 0 0 0) := by decide
theorem test_and_b : after (.and (.r 1) (.r 2)) (int 0x0000FFFF#32 0xFFFF0000#32 (nzvc 1 0 1 1)) view2 =
    some (0x00000000#32, 0x01000002#32, nzvc 0 1 0 1) := by decide
theorem test_or_a : after (.or (.r 1) (.r 2)) (int 0xF0F0F0F0#32 0xFF00FF00#32 (nzvc 0 1 1 0)) view2 =
    some (0xFFF0FFF0#32, 0x01000002#32, nzvc 1 0 0 0) := by decide
theorem test_xor_a : after (.xor (.r 1) (.r 2)) (int 0xF0F0F0F0#32 0xFF00FF00#32 (nzvc 0 1 1 0)) view2 =
    some (0x0FF00FF0#32, 0x01000002#32, nzvc 0 0 0 0) := by decide
theorem test_xor_b : after (.xor (.r 1) (.r 2)) (int 0xFFFFFFFF#32 0xFFFFFFFF#32 (nzvc 1 0 1 1)) view2 =
    some (0x00000000#32, 0x01000002#32, nzvc 0 1 0 1) := by decide
theorem test_not_a : after (.not (.r 1) (.r 2)) (int 0x7FFFFFFF#32 0x55555555#32 (nzvc 0 1 1 0)) view2 =
    some (0x80000000#32, 0x01000002#32, nzvc 1 0 0 0) := by decide
theorem test_not_b : after (.not (.r 1) (.r 2)) (int 0xFFFFFFFF#32 0x55555555#32 (nzvc 1 0 1 1)) view2 =
    some (0x00000000#32, 0x01000002#32, nzvc 0 1 0 1) := by decide
theorem test_asr_a : after (.asr (.r 1) (.r 2)) (int 0x0000001F#32 0x80000000#32 (nzvc 0 1 1 0)) view2 =
    some (0xFFFFFFFF#32, 0x01000002#32, nzvc 1 0 1 0) := by decide
theorem test_asr_b : after (.asr (.r 1) (.r 2)) (int 0x00000001#32 0xFFFFFFF9#32 (nzvc 1 0 1 1)) view2 =
    some (0xFFFFFFFC#32, 0x01000002#32, nzvc 1 0 0 1) := by decide
theorem test_lsl_a : after (.lsl (.r 1) (.r 2)) (int 0x00000001#32 0x80000001#32 (nzvc 0 1 1 0)) view2 =
    some (0x00000002#32, 0x01000002#32, nzvc 0 0 1 1) := by decide
theorem test_lsl_b : after (.lsl (.r 1) (.r 2)) (int 0xFFFFFFE1#32 0x40000000#32 (nzvc 1 0 1 1)) view2 =
    some (0x80000000#32, 0x01000002#32, nzvc 1 0 1 0) := by decide
theorem test_lsr_a : after (.lsr (.r 1) (.r 2)) (int 0x00000021#32 0x80000001#32 (nzvc 0 1 1 0)) view2 =
    some (0x40000000#32, 0x01000002#32, nzvc 0 0 1 1) := by decide
theorem test_lsr_b : after (.lsr (.r 1) (.r 2)) (int 0x0000001F#32 0x80000000#32 (nzvc 1 0 1 1)) view2 =
    some (0x00000001#32, 0x01000002#32, nzvc 0 0 1 1) := by decide
theorem test_move_a : after (.move (.r 1) (.r 2)) (int 0x12345678#32 0x00000000#32 (nzvc 0 1 1 0)) view2 =
    some (0x12345678#32, 0x01000002#32, nzvc 0 1 1 0) := by decide
theorem test_move_b : after (.move (.r 1) (.r 2)) (int 0x00000000#32 0x12345678#32 (nzvc 1 0 1 1)) view2 =
    some (0x00000000#32, 0x01000002#32, nzvc 1 0 1 1) := by decide

/-- Integer division by zero: Ry as it was, OV set, C as it was; N and Z are free (95 section 4.4). -/
theorem test_division_by_zero :
    [after (.divs (.r 1) (.r 2)) (int 0#32 7#32 (nzvc 0 0 0 1)) (fun t => (t.r[2], t.flags.ov, t.flags.c, t.run)),
      after (.divu (.r 1) (.r 2)) (int 0#32 7#32 (nzvc 0 0 0 1)) (fun t => (t.r[2], t.flags.ov, t.flags.c, t.run)),
      after (.mod (.r 1) (.r 2)) (int 0#32 7#32 (nzvc 0 0 0 1)) (fun t => (t.r[2], t.flags.ov, t.flags.c, t.run))] =
      List.replicate 3 (some (7#32, true, true, .running)) := by decide

/-! Floating-point vectors (96 section 6). -/

theorem test_fadd_a : after (.fadd 1 2) (float 0x7FEFFFFFFFFFFFFF#64 0x7FEFFFFFFFFFFFFF#64) viewF =
    some (0x7FF0000000000000#64, 0x01000002#32, nzvc 0 0 1 1) := by decide
theorem test_fadd_b : after (.fadd 1 2) (float 0x3FB999999999999A#64 0x3FC999999999999A#64) viewF =
    some (0x3FD3333333333334#64, 0x01000002#32, nzvc 0 0 0 1) := by decide
theorem test_fsub_a : after (.fsub 1 2) (float 0x4008000000000000#64 0x3FF0000000000000#64) viewF =
    some (0xC000000000000000#64, 0x01000002#32, nzvc 1 0 1 1) := by decide
theorem test_fsub_b : after (.fsub 1 2) (float 0x4004000000000000#64 0x4004000000000000#64) viewF =
    some (0x0000000000000000#64, 0x01000002#32, nzvc 0 1 1 1) := by decide
theorem test_fcmp_a : after (.fcmp 1 2) (float 0x0000000000000000#64 0x8000000000000000#64) viewF =
    some (0x8000000000000000#64, 0x01000002#32, nzvc 0 1 1 1) := by decide
theorem test_fcmp_b : after (.fcmp 1 2) (float 0x0000000000000001#64 0x0000000000000000#64) viewF =
    some (0x0000000000000000#64, 0x01000002#32, nzvc 1 0 1 1) := by decide
theorem test_fmul_a : after (.fmul 1 2) (float 0x0000000000000000#64 0xC014000000000000#64) viewF =
    some (0x8000000000000000#64, 0x01000002#32, nzvc 0 1 1 1) := by decide
theorem test_fmul_b : after (.fmul 1 2) (float 0xC000000000000000#64 0x4008000000000000#64) viewF =
    some (0xC018000000000000#64, 0x01000002#32, nzvc 1 0 1 1) := by decide
theorem test_fdiv_a : after (.fdiv 1 2) (float 0xC010000000000000#64 0x3FF0000000000000#64) viewF =
    some (0xBFD0000000000000#64, 0x01000002#32, nzvc 1 0 1 1) := by decide
theorem test_fdiv_b : after (.fdiv 1 2) (float 0x0000000000000000#64 0x3FF0000000000000#64) viewRun =
    some (0x01000000#32, divideAborted) := rfl
theorem test_fneg_a : after (.fneg 1 2) (float 0x7FF0000000000000#64 0x4058C00000000000#64) viewF =
    some (0xFFF0000000000000#64, 0x01000002#32, nzvc 1 0 1 1) := by decide
theorem test_fneg_b : after (.fneg 1 2) (float 0x8000000000000000#64 0x4058C00000000000#64) viewF =
    some (0x0000000000000000#64, 0x01000002#32, nzvc 0 1 1 1) := by decide
theorem test_fmove_a : after (.fmove 1 2) (float 0x7FF0000000000001#64 0x4058C00000000000#64) viewF =
    some (0x7FF0000000000001#64, 0x01000002#32, nzvc 0 0 1 1) := by decide

/-- Infinity minus infinity gives the free NaN of the draw: N and Z clear whatever it is (96 section 6.1). -/
theorem test_fadd_nan :
    after (.fadd 1 2) (float 0x7FF0000000000000#64 0xFFF0000000000000#64) (fun t => t.flags) = some (nzvc 0 0 0 1) := by
  have h := Ieee.value64_quietNaN64 (Config.freeNaN64 0)
  show some
    { c := true, ov := false, n := Ieee.isNeg (Ieee.quietNaN64 (Config.freeNaN64 0)),
      z := Ieee.isZero (Ieee.quietNaN64 (Config.freeNaN64 0)) : Flags } = _
  rw [Ieee.isNeg_of_nan h, Ieee.isZero_of_nan h]
  rfl

/-! Floating-point loads and stores (96 section 6.3). -/

theorem test_fldd_a :
    after (.fldd 8 (.r 1) 2) (State.poke (int 0x01001000#32 0#32 (nzvc 1 1 1 1)) 0x01001008
      [0x7F#8, 0xF0#8, 0#8, 0#8, 0#8, 0#8, 0#8, 0x01#8]) viewF =
      some (0x7FF0000000000001#64, 0x01000004#32, nzvc 1 1 1 1) := by decide
theorem test_fldd_b :
    after (.fldd 4 (.r 1) 2) (int 0x01001000#32 0#32 (nzvc 0 0 0 0)) viewRun =
      some (0x01000000#32, .aborted (.illegalBusAccess 0x01001004#32) 20) := by decide
theorem test_flds_a :
    after (.flds 8 (.r 1) 2) (State.poke (int 0x01001000#32 0#32 (nzvc 0 0 0 0)) 0x01001008
      [0x3D#8, 0xCC#8, 0xCC#8, 0xCD#8]) viewF = some (0x3FB99999A0000000#64, 0x01000004#32, nzvc 0 0 0 0) := by decide
theorem test_flds_b :
    after (.flds 8 (.r 1) 2) (State.poke (int 0x01001000#32 0#32 (nzvc 0 0 0 0)) 0x01001008
      [0x00#8, 0x00#8, 0x00#8, 0x01#8]) viewF = some (0x36A0000000000000#64, 0x01000004#32, nzvc 0 0 0 0) := by decide
theorem test_fstd_a :
    after (.fstd 2 8 (.r 1)) { int 0x01001000#32 0#32 (nzvc 0 0 0 0) with f := small.f.set 2 0x4008000000000000#64 }
      (fun t => written t 0x01001008 ++ written t 0x0100100C) =
      some (([0x40#8, 0x08#8, 0#8, 0#8, 0#8, 0#8, 0#8, 0#8]).map some) := by decide
theorem test_fstd_b :
    after (.fstd 2 0 (.r 1)) (int 0x01000008#32 0#32 (nzvc 0 0 0 0)) viewRun =
      some (0x01000000#32, .aborted (.invalidMemoryAccess 0x01000008#32) 10) := by decide
theorem test_fsts_a :
    after (.fsts 2 8 (.r 1)) { int 0x01001000#32 0#32 (nzvc 0 0 0 0) with f := small.f.set 2 0x3FF0000010001000#64 }
      (fun t => written t 0x01001008) = some (([0x3F#8, 0x80#8, 0x00#8, 0x01#8]).map some) := by decide
theorem test_fsts_b :
    after (.fsts 2 8 (.r 1)) { int 0x01001000#32 0#32 (nzvc 0 0 0 0) with f := small.f.set 2 0x48078287F49C4A1D#64 }
      (fun t => written t 0x01001008) = some (([0x7F#8, 0x80#8, 0x00#8, 0x00#8]).map some) := by decide

/-! Loads and stores (96 section 7). -/

/-- The sixteen bytes of the vectors at 0x01001000. -/
def filled (r1 : Word) : State :=
  State.poke { int r1 0x12345678#32 (nzvc 0 0 0 0) with sp := 0x01001080#32 } 0x01001000
    [0x80#8, 0x7F#8, 0xFF#8, 0x01#8, 0x12#8, 0x34#8, 0x56#8, 0x78#8, 0#8, 0#8, 0#8, 0#8, 0xFF#8, 0xFF#8, 0xFF#8, 0xFE#8]

theorem test_lbzx_a : after (.lbzx (0) (.r 1) (.r 2)) (filled 0x01001000#32) view2 =
    some (0x00000080#32, 0x01000004#32, nzvc 0 0 0 0) := by decide
theorem test_lbzx_b : after (.lbzx (-32768) (.r 1) (.r 2)) (filled 0x01009005#32) view2 =
    some (0x00000034#32, 0x01000004#32, nzvc 0 0 0 0) := by decide
theorem test_lbsx_a : after (.lbsx (0) (.r 1) (.r 2)) (filled 0x01001000#32) view2 =
    some (0xFFFFFF80#32, 0x01000004#32, nzvc 0 0 0 0) := by decide
theorem test_lbsx_b : after (.lbsx (1) (.r 1) (.r 2)) (filled 0x01001000#32) view2 =
    some (0x0000007F#32, 0x01000004#32, nzvc 0 0 0 0) := by decide
theorem test_lwzx_a : after (.lwzx (2) (.r 1) (.r 2)) (filled 0x01001000#32) view2 =
    some (0x0000FF01#32, 0x01000004#32, nzvc 0 0 0 0) := by decide
theorem test_lwzx_b : after (.lwzx (1) (.r 1) (.r 2)) (filled 0x01001000#32) viewRun =
    some (0x01000000#32, .aborted (.illegalBusAccess 0x01001001#32) 20) := by decide
theorem test_lwsx_a : after (.lwsx (2) (.r 1) (.r 2)) (filled 0x01001000#32) view2 =
    some (0xFFFFFF01#32, 0x01000004#32, nzvc 0 0 0 0) := by decide
theorem test_lwsx_b : after (.lwsx (4) (.r 1) (.r 2)) (filled 0x01001000#32) view2 =
    some (0x00001234#32, 0x01000004#32, nzvc 0 0 0 0) := by decide
theorem test_llzx_a : after (.llzx (0) (.r 1) (.r 2)) (filled 0x01001000#32) view2 =
    some (0x807FFF01#32, 0x01000004#32, nzvc 0 0 0 0) := by decide
theorem test_llzx_b : after (.llzx (8) (.r 1) (.r 2)) (filled 0xFFFFFFFC#32) viewRun =
    some (0x01000000#32, .aborted (.invalidMemoryAccess 0x00000004#32) 10) := by decide
theorem test_llsx_a : after (.llsx (12) (.r 1) (.r 2)) (filled 0x01001000#32) view2 =
    some (0xFFFFFFFE#32, 0x01000004#32, nzvc 0 0 0 0) := by decide
theorem test_llsx_b : after (.llsx (1) (.r 1) (.r 2)) (filled 0x01001000#32) viewRun =
    some (0x01000000#32, .aborted (.illegalBusAccess 0x01001001#32) 20) := by decide
theorem test_stb_a : after (.stb (.r 2) (3) (.r 1)) (filled 0x01001000#32) (fun t => (written t 0x01001003).take 1) =
    some (([0x78#8]).map some) := by decide
theorem test_stb_b : after (.stb (.r 2) (-1) (.r 1)) (filled 0x01001000#32) viewRun =
    some (0x01000000#32, .aborted (.invalidMemoryAccess 0x01000FFF#32) 10) := by decide
theorem test_stw_a : after (.stw (.r 2) (6) (.r 1)) (filled 0x01001000#32) (fun t => (written t 0x01001006).take 2) =
    some (([0x56#8, 0x78#8]).map some) := by decide
theorem test_stw_b : after (.stw (.r 2) (1) (.r 1)) (filled 0x01001000#32) viewRun =
    some (0x01000000#32, .aborted (.illegalBusAccess 0x01001001#32) 20) := by decide
theorem test_stl_a : after (.stl (.r 2) (8) (.r 1)) (filled 0x01001000#32) (fun t => (written t 0x01001008).take 4) =
    some (([0x12#8, 0x34#8, 0x56#8, 0x78#8]).map some) := by decide
theorem test_stl_b : after (.stl .pc (4) (.r 1)) (filled 0x01001000#32) (fun t => (written t 0x01001004).take 4) =
    some (([0x01#8, 0x00#8, 0x00#8, 0x04#8]).map some) := by decide

/-! Branches (95 section 3): each conditional branch in a state where it is taken and one where it is not. -/

/-- Whether the branch goes, for each of the sixteen flag states, N the most significant, then Z, OV, C. -/
def goes (i : Instr) : List Bool :=
  (List.range 16).map fun k =>
    after i { small with flags := nzvc (k / 8 % 2) (k / 4 % 2) (k / 2 % 2) (k % 2) } (fun t => t.pc) ==
      some (small.pc + BitVec.ofNat 32 i.size + 20#32)

theorem test_condition_eq :
    [goes (.beqs 20), goes (.beql 20)].map (List.map Bool.toNat) =
      List.replicate 2 [0, 0, 0, 0, 1, 1, 1, 1, 0, 0, 0, 0, 1, 1, 1, 1] := by decide
theorem test_condition_ne :
    [goes (.bnes 20), goes (.bnel 20)].map (List.map Bool.toNat) =
      List.replicate 2 [1, 1, 1, 1, 0, 0, 0, 0, 1, 1, 1, 1, 0, 0, 0, 0] := by decide
theorem test_condition_ge :
    [goes (.bges 20), goes (.bgel 20)].map (List.map Bool.toNat) =
      List.replicate 2 [1, 1, 0, 0, 1, 1, 0, 0, 0, 0, 1, 1, 0, 0, 1, 1] := by decide
theorem test_condition_gt :
    [goes (.bgts 20), goes (.bgtl 20)].map (List.map Bool.toNat) =
      List.replicate 2 [1, 1, 0, 0, 0, 0, 0, 0, 0, 0, 1, 1, 0, 0, 0, 0] := by decide
theorem test_condition_le :
    [goes (.bles 20), goes (.blel 20)].map (List.map Bool.toNat) =
      List.replicate 2 [0, 0, 1, 1, 1, 1, 1, 1, 1, 1, 0, 0, 1, 1, 1, 1] := by decide
theorem test_condition_lt :
    [goes (.blts 20), goes (.bltl 20)].map (List.map Bool.toNat) =
      List.replicate 2 [0, 0, 1, 1, 0, 0, 1, 1, 1, 1, 0, 0, 1, 1, 0, 0] := by decide
theorem test_condition_ra :
    [goes (.bras 20), goes (.bral 20)].map (List.map Bool.toNat) =
      List.replicate 2 [1, 1, 1, 1, 1, 1, 1, 1, 1, 1, 1, 1, 1, 1, 1, 1] := by decide
theorem test_condition_cc :
    [goes (.bccs 20)].map (List.map Bool.toNat) =
      List.replicate 1 [1, 0, 1, 0, 1, 0, 1, 0, 1, 0, 1, 0, 1, 0, 1, 0] := by decide
theorem test_condition_cs :
    [goes (.bcss 20)].map (List.map Bool.toNat) =
      List.replicate 1 [0, 1, 0, 1, 0, 1, 0, 1, 0, 1, 0, 1, 0, 1, 0, 1] := by decide
theorem test_condition_vc :
    [goes (.bvcs 20)].map (List.map Bool.toNat) =
      List.replicate 1 [1, 1, 0, 0, 1, 1, 0, 0, 1, 1, 0, 0, 1, 1, 0, 0] := by decide
theorem test_condition_vs :
    [goes (.bvss 20)].map (List.map Bool.toNat) =
      List.replicate 1 [0, 0, 1, 1, 0, 0, 1, 1, 0, 0, 1, 1, 0, 0, 1, 1] := by decide
theorem test_condition_bs :
    [goes (.bbss 20), goes (.bbsl 20)].map (List.map Bool.toNat) =
      List.replicate 2 [0, 1, 0, 1, 1, 1, 1, 1, 0, 1, 0, 1, 1, 1, 1, 1] := by decide
theorem test_condition_as :
    [goes (.bass 20), goes (.basl 20)].map (List.map Bool.toNat) =
      List.replicate 2 [1, 0, 1, 0, 1, 0, 1, 0, 1, 0, 1, 0, 1, 0, 1, 0] := by decide
theorem test_condition_at :
    [goes (.bats 20), goes (.batl 20)].map (List.map Bool.toNat) =
      List.replicate 2 [1, 0, 1, 0, 0, 0, 0, 0, 1, 0, 1, 0, 0, 0, 0, 0] := by decide
theorem test_condition_bt :
    [goes (.bbts 20), goes (.bbtl 20)].map (List.map Bool.toNat) =
      List.replicate 2 [0, 1, 0, 1, 0, 1, 0, 1, 0, 1, 0, 1, 0, 1, 0, 1] := by decide

/-- Targets (95 section 3.2): backwards to itself, the ends of the reach, the wrap of the address space, not taken. -/
theorem test_branch_targets :
    [after (.bras (-2)) { small with pc := 0x01000010#32 } (fun t => t.pc),
      after (.bnes (-512)) { small with pc := 0x01000200#32 } (fun t => t.pc),
      after (.bnes 510) { small with pc := 0x01000200#32 } (fun t => t.pc),
      after (.beqs 6) { small with pc := 0x01000010#32 } (fun t => t.pc),
      after (.bras 2) { small with pc := 0xFFFFFFFE#32 } (fun t => t.pc),
      after (.bral (-33554432)) { small with pc := 0x03000000#32 } (fun t => t.pc),
      after (.bral 33554430) { small with pc := 0x01000000#32 } (fun t => t.pc),
      after (.beql 20) { small with pc := 0x01000010#32 } (fun t => t.pc)] =
      [0x01000010#32, 0x01000002#32, 0x01000400#32, 0x01000012#32, 0x00000002#32, 0x01000004#32, 0x03000002#32,
        0x01000014#32].map some := by decide

/-! Immediates, NOP and SYSCALL (96 section 8). -/

theorem test_lims : after (.lims (-16) (.r 2)) (int 0#32 0xAAAAAAAA#32 (nzvc 1 0 1 0)) view2 =
    some (0xFFFFFFF0#32, 0x01000002#32, nzvc 1 0 1 0) := by decide
theorem test_lilo : after (.lilo 0x8000#16 (.r 2)) (int 0#32 0xAAAAAAAA#32 (nzvc 0 1 0 1)) view2 =
    some (0x00008000#32, 0x01000004#32, nzvc 0 1 0 1) := by decide
theorem test_orhi : after (.orhi 0x00F0#16 (.r 2)) (int 0#32 0x0F0F1234#32 (nzvc 0 0 0 0)) view2 =
    some (0x0FFF1234#32, 0x01000004#32, nzvc 0 0 0 0) := by decide
theorem test_nop : after .nop (int 1#32 0xAAAAAAAA#32 (nzvc 1 1 0 0)) view2 =
    some (0xAAAAAAAA#32, 0x01000002#32, nzvc 1 1 0 0) := by decide
theorem test_syscall_exit :
    after .syscall { int 7#32 0#32 (nzvc 1 0 0 1) with pc := 0x01000020#32 } (fun t => (written t 0x010010FC, t.sp, t.run)) =
      some (([0x01#8, 0x00#8, 0x00#8, 0x22#8]).map some, 0x010010FC#32, .exited 7#32) := by decide
theorem test_syscall_bad_stack :
    after .syscall { small with sp := 0x01000080#32 } viewRun =
      some (0x01000000#32, .aborted (.invalidMemoryAccess 0x0100007C#32) 10) := by decide

/-! Subroutines and the stack (96 section 9). -/

/-- SP, PC and the word at 0x010010FC. -/
def viewStack (t : State) : Word × Word × List (Option Byte) := (t.sp, t.pc, written t 0x010010FC)

theorem test_pushl_sp : after (.pushl .sp) { small with pc := 0x01000010#32 } viewStack =
    some (0x010010FC#32, 0x01000012#32, ([0x01#8, 0x00#8, 0x10#8, 0xFC#8]).map some) := by decide
theorem test_pushl_wrap : after (.pushl (.r 3)) { small with sp := 0#32 } viewRun =
    some (0x01000000#32, .aborted (.invalidMemoryAccess 0xFFFFFFFC#32) 10) := by decide
theorem test_popl_sp :
    after (.popl .sp) (State.poke { small with sp := 0x010010FC#32 } 0x010010FC [0x01#8, 0x00#8, 0x10#8, 0x80#8])
      (fun t => t.sp) = some 0x01001084#32 := by decide
theorem test_popl_ccr :
    after (.popl .ccr) (State.poke { small with sp := 0x010010FC#32 } 0x010010FC [0xFF#8, 0xFF#8, 0xFF#8, 0xF9#8])
      (fun t => (t.flags, t.sp)) = some (nzvc 0 1 0 1, 0x01001100#32) := by decide
theorem test_call_sp : after (.call .sp) { small with pc := 0x01000010#32 } viewStack =
    some (0x010010FC#32, 0x010010FC#32, ([0x01#8, 0x00#8, 0x00#8, 0x12#8]).map some) := by decide
theorem test_call_odd : after (.call (.r 7)) { small with r := small.r.set 7 0x01000041#32 } viewStack =
    some (0x010010FC#32, 0x01000041#32, ([0x01#8, 0x00#8, 0x00#8, 0x02#8]).map some) := by decide
theorem test_bsrl : after (.bsrl (-8)) { small with pc := 0x01000010#32 } viewStack =
    some (0x010010FC#32, 0x0100000C#32, ([0x01#8, 0x00#8, 0x00#8, 0x14#8]).map some) := by decide
theorem test_rets_negative :
    after (.rets (-256)) (State.poke { small with sp := 0x010010F0#32 } 0x010010F0 [0x01#8, 0x00#8, 0x00#8, 0x14#8])
      (fun t => (t.pc, t.sp)) = some (0x01000014#32, 0x01000CF4#32) := by decide
theorem test_rets_misaligned : after (.rets 0) { small with sp := 0x010010FE#32 } viewRun =
    some (0x01000000#32, .aborted (.illegalBusAccess 0x010010FE#32) 20) := by decide

/-! Registers 12 to 15 as operands: the flags of an ADD are applied last, after its write to the CCR, and MOVE to the PC
jumps (10_state.md R31). -/

theorem test_add_ccr : after (.add (.r 1) .ccr) (int 0xFFFFFFFF#32 0#32 (nzvc 0 0 0 1)) (fun t => t.flags) =
    some (nzvc 0 1 0 1) := by decide
theorem test_move_pc : after (.move (.r 1) .pc) (int 0x01000040#32 0#32 (nzvc 0 0 0 0)) (fun t => t.pc) =
    some 0x01000040#32 := by decide
theorem test_move_from_pc : after (.move .pc (.r 2)) (int 0#32 0#32 (nzvc 0 0 0 0)) view2 =
    some (0x01000002#32, 0x01000002#32, nzvc 0 0 0 0) := by decide

/-! ### Fetch (96 section 10) -/

/-- `small` with bytes of code at an address and the PC there. -/
def at' (pc : Word) (bytes : List Byte) : State := State.poke { small with pc := pc } pc.toNat bytes

/-- What one step leaves. -/
def stepView (s : State) : Option (Word × RunStatus) :=
  match step s with
  | .next t => some (viewRun t)
  | _ => none

theorem test_fetch_odd_first : stepView (at' 0x02000001#32 []) =
    some (0x02000001#32, .aborted (.illegalBusAccess 0x02000001#32) 20) := by decide
theorem test_fetch_past_code : stepView (at' 0x01000100#32 []) =
    some (0x01000100#32, .aborted (.invalidMemoryAccess 0x01000100#32) 10) := by decide
theorem test_fetch_illegal_before_second_half : stepView (at' 0x010000FE#32 [0x97#8, 0x12#8]) =
    some (0x010000FE#32, .aborted (.illegalInstruction 0x9712#16) 5) := by decide
theorem test_fetch_second_half_invalid : stepView (at' 0x010000FE#32 [0x96#8, 0x12#8]) =
    some (0x010000FE#32, .aborted (.invalidMemoryAccess 0x01000100#32) 10) := by decide
theorem test_fetch_in_data : stepView (at' 0x01001000#32 [0xE2#8, 0x00#8]) = some (0x01001002#32, .running) := by decide
theorem test_fetch_last_halfword : stepView (at' 0x010000FE#32 [0xE2#8, 0x00#8]) = some (0x01000100#32, .running) := by
  decide
theorem test_fetch_word : step (State.withFetchWord State.reset 16 0xE200) =
    .next ((State.withFetchWord State.reset 16 0xE200).withPc 0x01000002#32) := rfl

/-! ### What an assembler makes of a line (95 section 1.3 and 2.1) -/

theorem test_branch_displacement : branchDisp 2 0x01000100#32 0x010000E2#32 = some (-32) := by decide

/-! ### Witnesses: states and operands that meet the hypotheses of the obligations -/

/-- Conjunctions of decidable hypotheses, and the ranges of an access, are decided by evaluation. -/
theorem witness_DecodeEncode :
    (Instr.bges (-512)).wellFormed = true ∧ (Instr.bsrl 33554430).wellFormed = true ∧
      (Instr.rets (-256)).wellFormed = true ∧ (Instr.lims 15 .pc).wellFormed = true ∧
      (Instr.stl .ccr (-32768) .sp).wellFormed = true ∧ (Instr.fadd 0 15).wellFormed = true := by decide

theorem witness_EncodeDecode :
    decode [0xE5#8, 0xD6#8, 0x00#8] = .ok (.lims (-3) (.r 6), [0x00#8]) ∧
      decode [0xB0#8, 0x3A#8, 0x80#8, 0x00#8] = .ok (.stb (.r 3) (-32768) (.r 10), []) := by decide

/-- Both lengths, at opcode values on the edge of the listed ranges: 15, 16, 27, 116 and 127. -/
theorem witness_LengthFromOpcode :
    decode (0x1F#8 :: [0xF0#8]) = .ok (.bbts (-32), []) ∧
      decode (0x20#8 :: [0x00#8, 0x00#8, 0x01#8]) = .ok (.beql 2, []) ∧
      decode (0x37#8 :: [0xFF#8, 0xFF#8, 0xF0#8]) = .ok (.bbtl (-32), []) ∧
      decode (0xE8#8 :: [0x0B#8, 0xBE#8, 0xEF#8]) = .ok (.lilo 0xBEEF#16 (.r 11), []) ∧
      decode (0xFE#8 :: [0x07#8]) = .ok (.pushl (.r 7), []) := by decide

/-- A 16-bit instruction in the last halfword of the code, and a 32-bit one. -/
theorem witness_StepRunsDecoded :
    let s := at' 0x010000FE#32 [0xE2#8, 0x00#8]
    let u := at' 0x01000010#32 [0xE6#8, 0x0B#8, 0xBE#8, 0xEF#8]
    (s.run = .running ∧ s.pc.toNat % 2 = 0 ∧ Instr.nop.wellFormed = true ∧
      (∀ k, k < Instr.nop.size → s.valid (s.pc + BitVec.ofNat 32 k) = true) ∧
      decode ((List.range Instr.nop.size).map fun k => s.byte (s.pc + BitVec.ofNat 32 k)) = .ok (.nop, [])) ∧
    (u.run = .running ∧ u.pc.toNat % 2 = 0 ∧ (Instr.orhi 0xBEEF#16 (.r 11)).wellFormed = true ∧
      (∀ k, k < (Instr.orhi 0xBEEF#16 (.r 11)).size → u.valid (u.pc + BitVec.ofNat 32 k) = true) ∧
      decode ((List.range 4).map fun k => u.byte (u.pc + BitVec.ofNat 32 k)) = .ok (.orhi 0xBEEF#16 (.r 11), [])) := by
  decide

/-- The four clauses, the first halfword of the last three at the end of the code. -/
theorem witness_FetchPriority :
    let odd := at' 0x01000011#32 []
    let past := at' 0x01000100#32 []
    let bad := at' 0x010000FE#32 [0xE2#8, 0x01#8]
    let cut := at' 0x010000FE#32 [0x96#8, 0x12#8]
    (odd.run = .running ∧ odd.pc.toNat % 2 = 1) ∧
      (past.run = .running ∧ past.pc.toNat % 2 = 0 ∧ ¬(past.valid past.pc = true ∧ past.valid (past.pc + 1#32) = true)) ∧
      (bad.run = .running ∧ bad.pc.toNat % 2 = 0 ∧ (bad.valid bad.pc = true ∧ bad.valid (bad.pc + 1#32) = true) ∧
        formOf (halfAt bad bad.pc) = .error (.unusedBit 0xE201#16)) ∧
      (cut.run = .running ∧ cut.pc.toNat % 2 = 0 ∧ (cut.valid cut.pc = true ∧ cut.valid (cut.pc + 1#32) = true) ∧
        formOf (halfAt cut cut.pc) = .ok .f6 ∧ formBytes .f6 = 4 ∧
        ¬(cut.valid (cut.pc + 2#32) = true ∧ cut.valid (cut.pc + 3#32) = true)) := by decide

theorem witness_EndedRunStops :
    (small.withRun (.exited 3#32)).run ≠ .running ∧ (small.withRun (.aborted .floatDivideByZero 9)).run ≠ .running := by
  decide

/-- A store to the last word of valid memory. -/
theorem witness_StepKeepsInv :
    let s := at' 0x01000000#32 [0xB2#8, 0xC1#8, 0x00#8, 0x00#8]
    let t := { s with r := s.r.set 1 0x010010FC#32 }
    StateInv t ∧ step t = .next { t with pc := 0x01000004#32, mem := Memory.store32 t.mem 0x010010FC#32 t.sp } :=
  ⟨by unfold StateInv; decide, rfl⟩

theorem witness_StepKeepsCode :
    let s := at' 0x01000000#32 [0xB2#8, 0xC1#8, 0x00#8, 0x00#8]
    let t := { s with r := s.r.set 1 0x010010FC#32 }
    Memory.wf t.mem ∧ step t = .next { t with pc := 0x01000004#32, mem := Memory.store32 t.mem 0x010010FC#32 t.sp } ∧
      t.writable 0x010010FB#32 = true ∧ t.writable 0x01000000#32 = false ∧ t.inCode 0x010000FF#32 = true :=
  ⟨by decide, rfl, rfl, rfl, rfl⟩

/-- A branch backwards at the lower end of its reach. -/
theorem witness_PcStaysEven :
    StateInv small ∧ (Instr.bras (-512)).wellFormed = true ∧ small.pc.toNat % 2 = 0 ∧
      exec (.bras (-512)) small = .next { small with pc := 0x00FFFE02#32 } ∧ destOf (.bras (-512)) ≠ some .pc ∧
      (∀ rx, Instr.bras (-512) ≠ .call rx) ∧ ∀ n, Instr.bras (-512) ≠ .rets n := by
  refine ⟨by unfold StateInv; decide, by decide, by decide, rfl, by decide, ?_, ?_⟩
  · intro rx h; cases h
  · intro n h; cases h

theorem witness_ExceptionsArePrecise :
    let s := at' 0x01000000#32 [0x6A#8, 0x12#8]
    s.run = .running ∧ step s = .next (s.withRun divideAborted) ∧
      (s.withRun divideAborted).run = divideAborted := ⟨rfl, rfl, rfl⟩

/-- One instruction of each clause of the list, each exception it names. -/
theorem witness_ExceptionsByInstruction :
    let s := { small with sp := 0x01001002#32 }
    small.run = .running ∧ exec (.fdiv 1 2) small = .next (small.withRun divideAborted) ∧
      exec (.stb .pc 0 .pc) small = .next (small.withRun (.aborted (.invalidMemoryAccess 0x01000004#32) 10)) ∧
      exec (.llzx 1 .sp .pc) small = .next (small.withRun (.aborted (.illegalBusAccess 0x01001101#32) 20)) ∧
      exec (.llzx 0 .sp .pc) small = .next (small.withRun (.aborted (.invalidMemoryAccess 0x01001100#32) 10)) ∧
      exec .syscall s = .next (s.withRun (.aborted (.illegalBusAccess 0x01000FFE#32) 20)) ∧
      exec (.popl .sp) small = .next (small.withRun (.aborted (.invalidMemoryAccess 0x01001100#32) 10)) :=
  ⟨rfl, rfl, rfl, rfl, rfl, rfl, rfl⟩

theorem witness_ExitOnlyBySyscall :
    let s := at' 0x01000000#32 [0xE0#8, 0x00#8]
    let t := { s with sp := 0x010010FC#32, mem := Memory.store32 s.mem 0x010010FC#32 0x01000002#32, run := .exited 0#32 }
    s.run = .running ∧ step s = .next t ∧ t.run = .exited 0#32 := ⟨rfl, rfl, rfl⟩

/-- An instruction that is no SYSCALL, and a SYSCALL that traps on its slot. -/
theorem witness_HostStateOnlyBySyscall :
    StateInv small ∧ exec .nop small = .next { small with pc := 0x01000002#32 } ∧ Instr.nop ≠ .syscall ∧
      exec .syscall { small with sp := 0#32 } =
        .next { small with sp := 0#32, run := .aborted (.invalidMemoryAccess 0xFFFFFFFC#32) 10 } :=
  ⟨by unfold StateInv; decide, rfl, by decide, rfl⟩

theorem witness_UnhandledExceptionAborts : noHandlers small := by unfold noHandlers; decide

/-- A handler for vector 2. -/
def handling : State := { small with host := { small.host with vectors := [(2#5, 7)] } }

/-- Installed and not installed, at the lowest and the highest vector that an exception has; FDIV_ZERO_VECTOR with and
without a handler; a step that ends the run. -/
theorem witness_HandlerEntry :
    (handling.host.vectors.lookup 2#5).isSome = true ∧ (handling.host.vectors.lookup 1#5).isSome = false ∧
      (handling.host.vectors.lookup 3#5).isSome = false ∧ (handling.host.vectors.lookup 31#5).isSome = false ∧
      (let s := { handling with pc := 0#32 }
        let t := { s with run := .aborted (.invalidMemoryAccess 0#32) 10 }
        s.run = .running ∧ step s = .next t ∧ t.run = .aborted (.invalidMemoryAccess 0#32) 10) :=
  ⟨by decide, by decide, by decide, by decide, rfl, rfl, rfl⟩

/-- HANDLERS as a function that puts the vector into the PC, and FDIV_ZERO_VECTOR 2. -/
def handlers : Parameters :=
  { handlers := .modelled fun v t => t.withPc (v.setWidth 32), fdivZeroVector := { vector := some 2#5, status := 9 } }

/-- A modelled handler is entered, from a fetch, a push and a division by zero; the default never enters one; without a
handler the abort has the status that FDIV_ZERO_VECTOR gives. -/
theorem test_handlers :
    stepUnder handlers (handling.withPc 0#32) = .next (handling.withPc 2#32) ∧
      execUnder handlers (.pushl .fp) (handling.withSp 0#32) = .next ((handling.withSp 0#32).withPc 2#32) ∧
      execUnder handlers (.fdiv 1 2) handling = .next (handling.withPc 2#32) ∧
      execUnder handlers (.pushl .fp) (handling.withSp 2#32) =
        .next ((handling.withSp 2#32).withRun (.aborted (.illegalBusAccess 0xFFFFFFFE#32) 20)) ∧
      exec (.fdiv 1 2) handling = .next (handling.withRun divideAborted) ∧
      execUnder handlers (.fdiv 1 2) small = .next (small.withRun (.aborted .floatDivideByZero 9)) :=
  ⟨rfl, rfl, rfl, rfl, rfl, rfl⟩

/-- Another CCR_LAYOUT, and no alignment of data: what MOVE from the CCR and a load see (R30, R60). -/
theorem test_parameters :
    let p : Parameters := { ccrLayout := { c := 31, ov := 2, n := 1, z := 0, others := 0#32 }, dataAlignNatural := false }
    let s := { small with flags := nzvc 1 0 0 1 }
    (match execUnder p (.move .ccr (.r 2)) s with | .next t => some t.r[2] | _ => none) = some 0x80000002#32 ∧
      (match execUnder p (.llzx (-7) .sp (.r 2)) s with | .next t => some (viewRun t) | _ => none) =
        some (0x01000004#32, .running) ∧
      after (.llzx (-7) .sp (.r 2)) s viewRun = some (0x01000000#32, .aborted (.illegalBusAccess 0x010010F9#32) 20) := by
  decide

/-- A file of one SYSCALL and two data bytes, with an entry, an offset of the data and its size. -/
def fileWith (entry dataoffset datasize : Byte) : List Byte :=
  [0x56#8, 0x49#8, 0x53#8, 0#8, 0#8, 0#8, 0#8, 0#8,
    0#8, 0#8, 0#8, 76#8, 0#8, 0#8, 0#8, 2#8, 0#8, 0#8, 0#8, dataoffset, 0#8, 0#8, 0#8, datasize, 0#8, 0#8, 0#8, 8#8] ++
  List.replicate 43 0#8 ++ [entry, 1#8, 0#8, 0#8, 0#8, 0xE0#8, 0x00#8, 0xAB#8, 0xCD#8]

def tinyFile : List Byte := fileWith 0#8 78#8 2#8

/-- Its launch with one argument, the string "a", placed below the code if not said otherwise. -/
def tinyLaunch (file : List Byte) (bssBase : Nat) (argc : Word := 1#32) (hostBase : Nat := 0x00FFFFF8) :
    Except LaunchError State :=
  let name := BitVec.ofNat 32 (hostBase + 4)
  launch
    { file := file, dataBase := 0x01000002, bssBase := bssBase, hostBase := hostBase
      hostBytes := halfBytes (name.extractLsb' 16 16) ++ halfBytes (name.extractLsb' 0 16) ++ [0x61#8, 0#8]
      argc := argc, argv := BitVec.ofNat 32 hostBase
      r := State.reset.r, sp := 5#32, fp := 6#32, flags := nzvc 1 0 0 1, f := State.reset.f, openFds := [1, 9], uid := 4
      libs := [] }

/-- PC, R1, the open descriptors and the data bytes of a state that was launched. -/
def launched (answer : Except LaunchError State) : Option (Word × Word × List Nat × List (Option Byte)) :=
  match answer with
  | .ok s => some (s.pc, s.r[1], s.host.openFds, written s 0x01000002)
  | .error _ => none

/-- PC and run status of a state that was launched. -/
def entered (answer : Except LaunchError State) : Option (Word × RunStatus) :=
  match answer with
  | .ok s => some (viewRun s)
  | .error _ => none

theorem witness_LaunchEntryState :
    launched (tinyLaunch tinyFile 0x01000004) =
        some (0x01000000#32, 0x00FFFFF8#32, [0, 1, 2, 9], [some 0xAB#8, some 0xCD#8, none, none]) ∧
      entered (tinyLaunch tinyFile 0x01000004) = some (0x01000000#32, .running) := by decide

/-- Entries that R342 excludes, though the data lies at the second: odd, and equal to the code size. A data section
that is absent, with an offset past the end of the file. -/
theorem test_launch_entries :
    entered (tinyLaunch (fileWith 1#8 78#8 2#8) 0x01000004) =
        some (0x01000001#32, .aborted (.illegalBusAccess 0x01000001#32) 20) ∧
      entered (tinyLaunch (fileWith 2#8 78#8 2#8) 0x01000004) =
        some (0x01000002#32, .aborted (.invalidMemoryAccess 0x01000002#32) 10) ∧
      entered (tinyLaunch (fileWith 0#8 200#8 0#8) 0x01000004) = some (0x01000000#32, .running) := by decide

/-- Why no process starts. -/
def refusal (answer : Except LaunchError State) : Option LaunchError :=
  match answer with
  | .ok _ => none
  | .error e => some e

/-- What the host does not launch: segments out of order, a file cut short, no header, another base, more arguments
than argv has pointers to strings. -/
theorem test_launch_refusals :
    refusal (tinyLaunch tinyFile 0x01000003) = some .badLayout ∧
      refusal (tinyLaunch tinyFile.dropLast 0x01000004) = some .sectionOutsideFile ∧
      refusal (tinyLaunch (tinyFile.take 75) 0x01000004) = some .noHeader ∧
      refusal (tinyLaunch (tinyFile.take 75 ++ [1#8]) 0x01000004) = some .wrongBase ∧
      refusal (tinyLaunch tinyFile 0x01000004 2#32) = some .badArguments := by decide

/-- The host's region in the gaps before the data, where none is, and before the bss; over the code, over the end of the
bss (R343, R344). -/
theorem test_host_region :
    refusal (tinyLaunch tinyFile 0x01000010 1#32 0x01000008) = none ∧
      entered (tinyLaunch tinyFile 0x01000010 1#32 0x01000008) = some (0x01000000#32, .running) ∧
      refusal (tinyLaunch tinyFile 0x01000010 1#32 0x01000007) = none ∧
      refusal (tinyLaunch tinyFile 0x01000010 1#32 0x0100000B) = some .badLayout ∧
      refusal (tinyLaunch tinyFile 0x01000010 1#32 0x01000001) = some .badLayout ∧
      refusal (tinyLaunch tinyFile 0x01000010 1#32 0x01000017) = some .badLayout := by decide

/-- A file whose two string tables are "ab" and "cd". -/
def stringFile : List Byte :=
  List.replicate 44 0#8 ++ [0#8, 0#8, 0#8, 76#8, 0#8, 0#8, 0#8, 2#8] ++ List.replicate 8 0#8 ++
    [0#8, 0#8, 0#8, 78#8, 0#8, 0#8, 0#8, 2#8] ++ List.replicate 8 0#8 ++ [0x61#8, 0x62#8, 0x63#8, 0x64#8]

/-- Strings by index and length, within their table (R355). -/
theorem test_string_tables :
    (FileFormat.readHeader stringFile).map (fun h =>
        [FileFormat.stringAt stringFile h 1 1, FileFormat.stringAt stringFile h 1 2,
          FileFormat.debugStringAt stringFile h 0 2, FileFormat.debugStringAt stringFile h 2 1]) =
      some [some [0x62#8], none, some [0x63#8, 0x64#8], none] := by decide

theorem witness_SignedConditions : IReg.r 2 ≠ .ccr ∧ IReg.pc ≠ .ccr := by decide

/-- Divisors 1, -1 and the most negative number. -/
theorem witness_DivisionResults :
    operandOf (int 1#32 0x80000000#32 (nzvc 0 0 0 0)) 2 (.r 1) ≠ 0#32 ∧
      operandOf (int 0xFFFFFFFF#32 0x80000000#32 (nzvc 0 0 0 0)) 2 (.r 1) ≠ 0#32 ∧
      operandOf (int 0x80000000#32 7#32 (nzvc 0 0 0 0)) 2 (.r 1) ≠ 0#32 := by decide

theorem witness_DivisionByZero : operandOf (int 0#32 7#32 (nzvc 1 1 1 1)) 2 (.r 1) = 0#32 := by decide

theorem witness_CarryChains :
    let x1 : Fin 12 := 1; let x2 : Fin 12 := 2
    let y0 : Fin 12 := 3; let y1 : Fin 12 := 4; let y2 : Fin 12 := 11
    y0 ≠ y1 ∧ y0 ≠ y2 ∧ y1 ≠ y2 ∧ x1 ≠ y0 ∧ x2 ≠ y0 ∧ x2 ≠ y1 := by decide

/-- Division's divisor: the smallest subnormal, an infinity. -/
theorem witness_FloatResults :
    Ieee.isZero (float 1#64 0#64).f[1] = false ∧ Ieee.isZero (float 0xFFF0000000000000#64 0#64).f[1] = false := by decide

theorem witness_FloatDivisionByZero :
    (float 0x0000000000000000#64 0#64).f[1] = 0x0000000000000000#64 ∧
      (float 0x8000000000000000#64 0x7FF8000000000000#64).f[1] = 0x8000000000000000#64 := by decide

/-- Both sides: the largest finite number, and an infinity. -/
theorem witness_FloatSubtractSelf :
    Ieee.isFinite (float 0x7FEFFFFFFFFFFFFF#64 0#64).f[1] = true ∧
      Ieee.isFinite (float 0x7FF0000000000000#64 0#64).f[1] = false := by decide

/-- The three disjuncts: a signalling NaN as source, a NaN as destination, one infinity twice. -/
theorem witness_FloatCompareUnordered :
    Ieee.value64 (float 0x7FF0000000000001#64 0#64).f[1] = .nan ∧
      Ieee.value64 (float 0#64 0xFFFFFFFFFFFFFFFF#64).f[2] = .nan ∧
      (Ieee.isInfinite (float 0xFFF0000000000000#64 0xFFF0000000000000#64).f[1] = true ∧
        (float 0xFFF0000000000000#64 0xFFF0000000000000#64).f[1] =
          (float 0xFFF0000000000000#64 0xFFF0000000000000#64).f[2]) := by decide

/-- Eight and four bytes: the first and the last that lie in valid memory. -/
theorem witness_FloatLoads :
    readable small 8 ((small.advance 4).ea .sp (-8)) ∧ readable small 8 ((small.advance 4).ea .sp (-256)) ∧
      readable small 4 ((small.advance 4).ea .sp (-4)) ∧ readable small 4 ((small.advance 4).ea .pc (-4)) := by
  unfold readable; decide

theorem witness_FloatStores :
    Memory.wf small.mem ∧ storable small 8 ((small.advance 4).ea .sp (-8)) ∧
      storable small 8 ((small.advance 4).ea .sp (-256)) ∧ storable small 4 ((small.advance 4).ea .sp (-4)) ∧
      storable small 4 ((small.advance 4).ea .sp (-256)) := by unfold storable; decide

/-- `small` with R1 at the end of valid memory and R2 at the start of the code. -/
def edges : State := int 0x01001100#32 0x01000000#32 (nzvc 0 0 0 0)

theorem witness_NarrowLoadsWiden :
    readable edges 1 (edges.r[1] + BitVec.ofInt 32 (-1)) ∧ readable edges 1 (edges.r[2] + BitVec.ofInt 32 0) ∧
      readable edges 2 (edges.r[1] + BitVec.ofInt 32 (-2)) ∧ readable edges 2 (edges.r[2] + BitVec.ofInt 32 0) ∧
      readable edges 4 (edges.r[1] + BitVec.ofInt 32 (-4)) ∧ readable edges 4 (edges.r[2] + BitVec.ofInt 32 0) := by
  unfold readable; decide

theorem witness_IntegerStores :
    Memory.wf small.mem ∧ storable small 1 ((small.advance 4).ea .sp (-1)) ∧
      storable small 1 ((small.advance 4).ea .sp (-256)) ∧ storable small 2 ((small.advance 4).ea .sp (-2)) ∧
      storable small 2 ((small.advance 4).ea .sp (-256)) ∧ storable small 4 ((small.advance 4).ea .sp (-4)) ∧
      storable small 4 ((small.advance 4).ea .sp (-256)) := by unfold storable; decide

/-- For each width a misaligned address (there is none of width 1), one aligned with a byte that is not valid, and for
stores one in the code. -/
theorem witness_DataAccessTraps :
    ((small.advance 4).ea .sp 1).toNat % 2 ≠ 0 ∧ ((small.advance 4).ea .sp (-2)).toNat % 4 ≠ 0 ∧
      ((small.advance 4).ea .sp (-4)).toNat % 8 ≠ 0 ∧
      ((small.advance 4).ea .sp 0).toNat % 1 = 0 ∧ ((small.advance 4).ea .sp 0).toNat % 2 = 0 ∧
      ((small.advance 4).ea .sp 0).toNat % 4 = 0 ∧ ((small.advance 4).ea .sp 0).toNat % 8 = 0 ∧
      (∃ k, k < 1 ∧ small.valid ((small.advance 4).ea .sp 0 + BitVec.ofNat 32 k) = false) ∧
      (∃ k, k < 1 ∧ small.writable ((small.advance 4).ea .sp (-257) + BitVec.ofNat 32 k) = false) ∧
      (∃ k, k < 1 ∧ small.writable ((small.advance 4).ea .pc (-4) + BitVec.ofNat 32 k) = false) :=
  ⟨by decide, by decide, by decide, by decide, by decide, by decide, by decide, ⟨0, by decide⟩, ⟨0, by decide⟩,
    ⟨0, by decide⟩⟩

theorem witness_MixedWidthView :
    (readable small 1 ((small.advance 4).ea .sp (-1)) ∧ readable small 1 ((small.advance 4).ea .pc (-4)) ∧
      readable small 2 ((small.advance 4).ea .sp (-2)) ∧ readable small 2 ((small.advance 4).ea .pc (-4)) ∧
      readable small 4 ((small.advance 4).ea .sp (-4)) ∧ readable small 4 ((small.advance 4).ea .pc (-4))) ∧
    Memory.wf small.mem ∧ operandOf small 4 .pc = 0x01000004#32 ∧ storable small 4 ((small.advance 4).ea .sp (-4)) ∧
      storable small 4 ((small.advance 4).ea .sp (-256)) := by unfold storable readable; decide

theorem witness_LoadConstantPair : IReg.ccr ≠ .pc ∧ IReg.r 11 ≠ .pc := by decide

/-- The highest and the lowest stack slot, and one at the top of the address space with SP at 0. -/
theorem witness_stack_slots :
    storable small 4 small.pushSp ∧ storable { small with sp := 0x01001004#32 } 4 (0x01001000#32) ∧
      storable { small with sp := 0#32, regions := [{ segment := .data, base := 0xFFFFFFF0, size := 16 }] } 4
        0xFFFFFFFC#32 := by unfold storable; decide

theorem witness_SyscallExit : Memory.wf small.mem ∧ storable small 4 small.pushSp ∧ small.r[0] = 0#32 := by
  unfold storable; decide

/-- A read, and SYS_FILES with its pointer variable in the host's memory, the last four bytes of it; SYS_LIBCALL and
SYS_LIBOPEN. -/
theorem witness_SyscallReturns :
    let s := { small with r := small.r.set 0 0x19#32 }
    let u := { small with
      r := (small.r.set 0 0x85#32).set 1 0x02000004#32
      regions := small.regions ++ [{ segment := .host, base := 0x02000000, size := 8 }] }
    (StateInv s ∧ storable s 4 s.pushSp ∧ s.r[0] ≠ 0#32) ∧
      (StateInv u ∧ storable u 4 u.pushSp ∧ u.r[0] = 0x85#32 ∧ u.r[0] ≠ 0#32 ∧
        (∀ i, i < 4 → (calledFrom u).hostMayWrite Params.syscallOracle (u.r[1] + BitVec.ofNat 32 i) = true) ∧
        (calledFrom u).hostMayWrite Params.syscallOracle 0x02000008#32 = false ∧ (calledFrom u).hostMayWrite Params.syscallOracle u.pushSp = false) ∧
      (small.r.set 0 0x82#32)[0] = 0x82#32 ∧ (small.r.set 0 0x80#32)[0] = 0x80#32 := by
  unfold storable StateInv; decide

/-- What the host may write for SYS_FILES: the variable at R1 (R276 c), never the code nor the return slot; for
SYS_LIBCALL: the name "a" at R2 with its null byte and the structure at R3 (R276 d). -/
theorem test_designated :
    [0x01001010#32, 0x01001013#32, 0x01000000#32, 0x010010FC#32].map
        ((calledFrom { small with r := (small.r.set 0 0x85#32).set 1 0x01001010#32 }).hostMayWrite Params.syscallOracle) =
        [true, true, false, false] ∧
      [0x01001010#32, 0x01001011#32, 0x01001020#32, 0x01001027#32, 0x010010FF#32].map
        ((calledFrom { small with
          r := ((small.r.set 0 0x82#32).set 2 0x01001010#32).set 3 0x01001020#32
          mem := [(0x01001010, 0x61#8), (0x01001011, 0#8)] }).hostMayWrite Params.syscallOracle) = [true, true, true, true, false] := by decide

/-- An oracle that fills two bytes at R2, permits nothing and knows one type of record, of one byte each for type and
length. -/
def oracle : SyscallOracle :=
  { Params.syscallOracle with
    buffers := fun _ => [(1, 2)]
    uidPermits := fun _ _ _ => false
    tlvKind := fun code => if code = 3 then some .pointer else none
    tlvTypeBytes := 1
    tlvLengthBytes := 1
    pointerExtent := fun _ _ => 2 }

/-- SYSCALL_ORACLE as an argument: the buffers of SYS_READ, the pointer to 0x01001018 in a record of SYS_LIBCALL, and a
service that ends the run with 7 (R274, R276 d). -/
theorem test_oracle :
    let read := calledFrom { small with r := (small.r.set 0 0x18#32).set 2 0x01001010#32 }
    let call := calledFrom
      { small with
        r := ((small.r.set 0 0x82#32).set 2 0x01001008#32).set 3 0x01001000#32
        mem := storeList [] 0x01001000 [0#8, 0#8, 0#8, 1#8, 0x01#8, 0#8, 0x10#8, 0x0A#8, 0x61#8, 0#8, 3#8, 4#8, 0x01#8,
          0#8, 0x10#8, 0x18#8]
        host := { small.host with libs := [0] } }
    let ending : SyscallOracle := { oracle with exits := fun _ => some 7#32 }
    ([0x01001010#32, 0x01001011#32, 0x01001012#32].map (read.hostMayWrite oracle) = [true, true, false] ∧
        read.permitted oracle = false) ∧
      (call.libcallRecords oracle = [{ kind := .pointer, value := [0x01#8, 0#8, 0x10#8, 0x18#8] }] ∧
        call.designated oracle =
          [(0x01001008#32, 2), (0x01001000#32, 8), (0x0100100A#32, 6), (0x01001018#32, 2)]) ∧
      ∃ t, execUnder { syscallOracle := ending } .syscall { small with r := small.r.set 0 1#32 } = .next t ∧
        t.run = .exited 7#32 :=
  ⟨by decide, by decide, _, rfl, rfl⟩

/-- An array of one name, "a", ending with a null pointer, is not one of two or of none (R276 c). -/
theorem test_array_of_names :
    let s := { small with
      mem := storeList [] 0x01001000 [0x01#8, 0#8, 0x10#8, 0x08#8, 0#8, 0#8, 0#8, 0#8, 0x61#8, 0#8] }
    [0, 1, 2].map (s.stringArray 0x01001000#32) = [false, true, false] := by decide

/-- Pushes with 0 and with another number in R0; pops at the first and the last slot. -/
theorem witness_StackSlots :
    let s := { small with r := small.r.set 0 0x19#32 }
    let u := { small with sp := 0x010010FC#32 }
    let v := { small with sp := 0x01000000#32 }
    (Memory.wf small.mem ∧ storable small 4 small.pushSp ∧ small.r[0] = 0#32) ∧
      (Memory.wf s.mem ∧ storable s 4 s.pushSp ∧ s.r[0] ≠ 0#32) ∧ readable u 4 u.sp ∧ readable v 4 v.sp := by
  unfold storable readable; decide

/-- The highest and the lowest slot for a push, the lowest for a pop; SP and another register. -/
theorem witness_StackOperands :
    let u := { small with sp := 0x01001004#32 }
    let v := { small with sp := 0x01000000#32 }
    (Memory.wf small.mem ∧ storable small 4 small.pushSp) ∧ (Memory.wf u.mem ∧ storable u 4 u.pushSp) ∧
      readable v 4 v.sp := by unfold storable readable; decide

/-- A misaligned slot, one past valid memory, one in the code. -/
theorem witness_StackTraps :
    (0x01001102#32 - 4#32 : Word).toNat % 4 ≠ 0 ∧ (0x010010FE#32 : Word).toNat % 4 ≠ 0 ∧
      (0x01001000#32 - 4#32 : Word).toNat % 4 = 0 ∧ (0x01001100#32 : Word).toNat % 4 = 0 ∧
      (∃ k, k < 4 ∧ small.writable (0x01001000#32 - 4#32 + BitVec.ofNat 32 k) = false) ∧
      (∃ k, k < 4 ∧ small.writable (0x01000080#32 - 4#32 + BitVec.ofNat 32 k) = false) ∧
      (∃ k, k < 4 ∧ small.valid (0x01001100#32 + BitVec.ofNat 32 k) = false) :=
  ⟨by decide, by decide, by decide, by decide, ⟨3, by decide⟩, ⟨0, by decide⟩, ⟨0, by decide⟩⟩

theorem witness_CallThenReturn :
    Memory.wf small.mem ∧ storable small 4 small.pushSp ∧
      ((∃ rx, Instr.call .sp = .call rx) ∨ ∃ d, Instr.call .sp = .bsrl d) ∧
      ((∃ rx, Instr.bsrl (-8) = .call rx) ∨ ∃ d, Instr.bsrl (-8) = .bsrl d) :=
  ⟨by decide, by unfold storable; decide, .inl ⟨.sp, rfl⟩, .inr ⟨-8, rfl⟩⟩

theorem witness_PushThenPop :
    Memory.wf small.mem ∧ storable small 4 small.pushSp ∧ IReg.ccr ≠ .sp ∧ IReg.ccr ≠ .pc ∧ IReg.fp ≠ .sp ∧
      IReg.fp ≠ .pc := by unfold storable; decide

/-- What a double denotes, from its three fields. -/
theorem doubleValue_of_fields {a : Double} (neg : Bool) (exponent fraction : Nat) (h1 : a.msb = neg)
    (h2 : (a.extractLsb' 52 11).toNat = exponent) (h3 : (a.extractLsb' 0 52).toNat = fraction) :
    doubleValue a = (if neg then (-1 : ℚ) else 1) *
      (if exponent = 0 then (fraction : ℚ) * 2 ^ (-1074 : Int) else
        (2 ^ 52 + (fraction : ℚ)) * 2 ^ ((exponent : Int) - 1075)) := by
  subst h1 h2 h3
  rfl

/-- The doubles 1, 2 and 3, -1, the smallest subnormal and the most negative finite number. -/
theorem values_of_doubles :
    doubleValue 0x3FF0000000000000#64 = 1 ∧ doubleValue 0x4000000000000000#64 = 2 ∧
      doubleValue 0x4008000000000000#64 = 3 ∧ doubleValue 0xBFF0000000000000#64 = -1 ∧
      doubleValue 0x0000000000000001#64 = 2 ^ (-1074 : Int) ∧
      doubleValue 0xFFEFFFFFFFFFFFFF#64 = -((2 ^ 53 - 1) * 2 ^ (971 : Int)) := by
  rw [doubleValue_of_fields false 1023 0 (by decide) (by decide) (by decide),
    doubleValue_of_fields false 1024 0 (by decide) (by decide) (by decide),
    doubleValue_of_fields false 1024 (2 ^ 51) (by decide) (by decide) (by decide),
    doubleValue_of_fields true 1023 0 (by decide) (by decide) (by decide),
    doubleValue_of_fields false 0 1 (by decide) (by decide) (by decide),
    doubleValue_of_fields true 2046 (2 ^ 52 - 1) (by decide) (by decide) (by decide)]
  norm_num

/-- `small` with a word at 0x010010FC. -/
def single (w : Word) : State := small.withMem (Memory.store32 small.mem 0x010010FC#32 w)

/-- Finite operands at the ends of the range; 3 = 2 + 1, 1 = 2 - 1, 2 = 2 * 1, -1, 2 = 2 / 1; singles 1, the smallest
subnormal and both infinities. -/
theorem witness_FloatValues :
    (finiteDouble (float 0x0000000000000001#64 0xFFEFFFFFFFFFFFFF#64).f[1] ∧
        finiteDouble (float 0x0000000000000001#64 0xFFEFFFFFFFFFFFFF#64).f[2] ∧
        finiteDouble (float 0x8000000000000000#64 0#64).f[1]) ∧
      (let s := float 0x3FF0000000000000#64 0x4000000000000000#64
        let a := doubleValue s.f[1]; let b := doubleValue s.f[2]
        finiteDouble s.f[1] ∧ finiteDouble s.f[2] ∧
          (finiteDouble 0x4008000000000000#64 ∧ doubleValue 0x4008000000000000#64 = b + a) ∧
          (finiteDouble 0x3FF0000000000000#64 ∧ doubleValue 0x3FF0000000000000#64 = b - a) ∧
          (finiteDouble 0x4000000000000000#64 ∧ doubleValue 0x4000000000000000#64 = b * a) ∧
          (finiteDouble 0xBFF0000000000000#64 ∧ doubleValue 0xBFF0000000000000#64 = -a) ∧
          a ≠ 0 ∧ doubleValue 0x4000000000000000#64 = b / a) ∧
      ((∀ w, wordAt (single w) 0x010010FC#32 = w) ∧ readable (single 1#32) 4 0x010010FC#32 ∧
        (¬nanSingle 0x3F800000#32 ∧ finiteSingle 0x3F800000#32) ∧ (¬nanSingle 1#32 ∧ finiteSingle 1#32) ∧
        ¬nanSingle 0x7F800000#32 ∧ ¬nanSingle 0xFF800000#32 ∧
        Memory.wf small.mem ∧ storable small 4 ((small.advance 4).ea .sp (-4))) := by
  obtain ⟨h1, h2, h3, h4, -, -⟩ := values_of_doubles
  refine ⟨by unfold finiteDouble; decide, ?_, ?_⟩
  · show finiteDouble 0x3FF0000000000000#64 ∧ finiteDouble 0x4000000000000000#64 ∧ _
    rw [show (float 0x3FF0000000000000#64 0x4000000000000000#64).f[1] = 0x3FF0000000000000#64 from rfl,
      show (float 0x3FF0000000000000#64 0x4000000000000000#64).f[2] = 0x4000000000000000#64 from rfl, h1, h2, h3, h4]
    exact ⟨by unfold finiteDouble; decide, by unfold finiteDouble; decide, ⟨by unfold finiteDouble; decide, by norm_num⟩,
      ⟨by unfold finiteDouble; decide, by norm_num⟩, ⟨by unfold finiteDouble; decide, by norm_num⟩,
      ⟨by unfold finiteDouble; decide, rfl⟩, by norm_num, by norm_num⟩
  · refine ⟨fun w => ?_, by unfold readable; decide, by unfold nanSingle finiteSingle; decide,
      by unfold nanSingle finiteSingle; decide, by unfold nanSingle; decide, by unfold nanSingle; decide, by decide,
      by unfold storable; decide⟩
    rw [← load32_eq]
    exact State.load32_store32 (by decide) _ _

end Sys2Proof.Tests
end

/-! The integer loads (R240 to R246, R250): what a load that raises nothing does, what widening does to the bits of a
byte or a halfword, and from the two O47. -/

namespace Sys2Proof.Machine

/-- A load from a readable address completes: the value goes to the destination, behind the step over the instruction
(R250). -/
theorem loadOp_of_readable {n : Nat} {value : State → Word → Word} {disp : Int} {rx ry : IReg} {s : State}
    (h : readable s n ((s.advance 4).ea rx disp)) :
    loadOp n value disp rx ry s =
      .next ((s.advance 4).writeReg ry (value (s.advance 4) ((s.advance 4).ea rx disp))) := by
  show unlessFault s (s.readFault n ((s.advance 4).ea rx disp)) _ = _
  rw [readFault_of_readable h, unlessFault_none]

/-- With R0 to R11 as base and destination, such a load changes the destination and the PC alone. -/
theorem loadOp_general_registers {n : Nat} {value : State → Word → Word} {disp : Int} {x y : Fin 12} {s : State}
    (h : readable s n (s.r[x] + BitVec.ofInt 32 disp)) :
    loadOp n value disp (.r x) (.r y) s =
      .next { s with
        pc := s.pc + 4#32, r := s.r.set y (value (s.advance 4) (s.r[x] + BitVec.ofInt 32 disp)) } :=
  loadOp_of_readable (rx := .r x) h

/-- Stepping over an instruction leaves what a load reads. -/
@[simp] theorem load8_advance (s : State) (len : Nat) (a : Word) : (s.advance len).load8 a = s.byte a := rfl

@[simp] theorem load16_advance (s : State) (len : Nat) (a : Word) : (s.advance len).load16 a = s.load16 a := rfl

@[simp] theorem load32_advance (s : State) (len : Nat) (a : Word) : (s.advance len).load32 a = s.load32 a := rfl

/-- LBZX clears the upper 24 bits (R241). -/
theorem byte_setWidth (b : Byte) : b.setWidth 32 = 0#24 ++ b :=
  BitVec.setWidth_eq_append (by decide)

/-- LBSX fills the upper 24 bits with the sign (R242). -/
theorem byte_signExtend (b : Byte) : b.signExtend 32 = (if b.msb then 0xFFFFFF#24 else 0#24) ++ b :=
  BitVec.signExtend_eq_append_of_le (by decide)

/-- LWZX clears the upper 16 bits (R246). -/
theorem half_setWidth (v : Half) : v.setWidth 32 = 0#16 ++ v :=
  BitVec.setWidth_eq_append (by decide)

/-- LWSX fills the upper 16 bits with the sign (R245). -/
theorem half_signExtend (v : Half) : v.signExtend 32 = (if v.msb then 0xFFFF#16 else 0#16) ++ v :=
  BitVec.signExtend_eq_append_of_le (by decide)

section
variable (disp : Int) (rx ry : IReg) (s : State)

theorem exec_lbzx : exec (.lbzx disp rx ry) s = loadOp 1 (fun t a => (t.load8 a).setWidth 32) disp rx ry s := rfl

theorem exec_lbsx : exec (.lbsx disp rx ry) s = loadOp 1 (fun t a => (t.load8 a).signExtend 32) disp rx ry s := rfl

theorem exec_lwzx : exec (.lwzx disp rx ry) s = loadOp 2 (fun t a => (t.load16 a).setWidth 32) disp rx ry s := rfl

theorem exec_lwsx : exec (.lwsx disp rx ry) s = loadOp 2 (fun t a => (t.load16 a).signExtend 32) disp rx ry s := rfl

theorem exec_llzx : exec (.llzx disp rx ry) s = loadOp 4 State.load32 disp rx ry s := rfl

/-- The two opcodes for 32 bits do the same on every state (R57). -/
theorem exec_llsx_eq_llzx : exec (.llsx disp rx ry) s = exec (.llzx disp rx ry) s := rfl

end

/-- Settles O47: each load is `loadOp` with its own widening (R57). -/
theorem narrowLoadsWiden : Obligations.NarrowLoadsWiden := by
  intro disp x y s
  dsimp only
  refine ⟨fun readable_byte => ⟨?_, ?_⟩, fun readable_half => ⟨?_, ?_⟩, fun readable_word => ?_, ?_⟩
  · rw [exec_lbzx, loadOp_general_registers readable_byte, load8_advance, byte_setWidth]
  · rw [exec_lbsx, loadOp_general_registers readable_byte, load8_advance, byte_signExtend]
  · rw [exec_lwzx, loadOp_general_registers readable_half, load16_advance, load16_eq, half_setWidth]
  · rw [exec_lwsx, loadOp_general_registers readable_half, load16_advance, load16_eq, half_signExtend]
  · rw [exec_llzx, loadOp_general_registers readable_word, load32_advance, load32_eq]
  · exact exec_llsx_eq_llzx disp (.r x) (.r y) s

end Sys2Proof.Machine

/-! Carry chains (R372): addition of one digit with carry in and out as a relation, which says of a difference that it
makes up the minuend; digits of any widths put side by side; the chain instructions on general registers; and from these
O36. -/

namespace Sys2Proof.Machine

/-- `r` is the sum of `a`, `b` and the carry `cin`, up to the carry `cout` of weight `2^w` (R161). Read from `r` back to
`b`, it is the difference of `r` and `a` with borrow `cin` in and `cout` out. -/
def AddsTo {w : Nat} (cin : Bool) (a b r : BitVec w) (cout : Bool) : Prop :=
  r.toNat + 2 ^ w * cout.toNat = a.toNat + b.toNat + cin.toNat

theorem toNat_append_eq_add {v w : Nat} (hi : BitVec v) (lo : BitVec w) :
    (hi ++ lo).toNat = 2 ^ w * hi.toNat + lo.toNat := by
  rw [BitVec.toNat_append, ← Nat.shiftLeft_add_eq_or_of_lt lo.isLt, Nat.shiftLeft_eq, Nat.mul_comm]

namespace AddsTo

variable {v w : Nat} {cin mid cout : Bool} {a b r : BitVec w} {a' b' r' : BitVec v}

/-- The idea of a carry chain: the carry out of the low digits is the carry into the high ones. -/
theorem append (hi : AddsTo mid a' b' r' cout) (lo : AddsTo cin a b r mid) :
    AddsTo cin (a' ++ a) (b' ++ b) (r' ++ r) cout := by
  unfold AddsTo at *
  simp only [toNat_append_eq_add, Nat.pow_add]
  linear_combination lo + 2 ^ w * hi

theorem eq_add (h : AddsTo false a b r cout) : r = a + b := by
  apply BitVec.eq_of_toNat_eq
  calc r.toNat
      = (r.toNat + 2 ^ w * cout.toNat) % 2 ^ w := by rw [Nat.add_mul_mod_self_left, Nat.mod_eq_of_lt r.isLt]
    _ = (a + b).toNat := by rw [h, BitVec.toNat_add]; rfl

theorem eq_sub (h : AddsTo false a b r cout) : b = r - a := by
  rw [h.eq_add, BitVec.add_comm, BitVec.add_sub_cancel]

theorem carry_eq (h : AddsTo false a b r cout) : cout = decide (r.toNat < a.toNat) := by
  have hb := b.isLt
  unfold AddsTo at h
  cases cout with
  | false => simpa using show a.toNat ≤ r.toNat by simp at h; omega
  | true => simpa using show r.toNat < a.toNat by simp at h; omega

end AddsTo

/-- A two-operand sum and its carry (R161) are one digit of a chain. -/
theorem addsTo_sumWord (cin : Bool) (a b : Word) : AddsTo cin a b (sumWord cin a b) (carryOf a b cin) := by
  have ha := a.isLt
  have hb := b.isLt
  have hc := Bool.toNat_le cin
  simp only [AddsTo, sumWord, carryOf, sumU, BitVec.toNat_ofNat]
  by_cases h : 4294967296 ≤ a.toNat + b.toNat + cin.toNat <;> simp [h] <;> omega

/-- A difference and its borrow (R161) are one digit too: the difference and the subtrahend add to the minuend. -/
theorem addsTo_diffWord (bin : Bool) (a b : Word) : AddsTo bin a (diffWord bin a b) b (borrowOf a b bin) := by
  have ha := a.isLt
  have hb := b.isLt
  have hc := Bool.toNat_le bin
  simp only [AddsTo, diffWord, borrowOf, diffU, BitVec.toNat_ofInt]
  by_cases h : (b.toNat : Int) - a.toNat - bin.toNat < 0 <;> simp [h] <;> omega

theorem sumWord_eq (cin : Bool) (a b : Word) : sumWord cin a b = a + b + BitVec.ofNat 32 cin.toNat := by
  simp [sumWord, sumU, BitVec.ofNat_add]

/-- Of what an instruction does, the part that a chain through general registers sees: the one register `y` that
changes, and C. -/
structure ChainStep (y : Fin 12) (value : Word) (c : Bool) (s t : State) : Prop where
  written : t.r[y] = value
  kept : ∀ z, z ≠ y → t.r[z] = s.r[z]
  carry : t.flags.c = c

theorem chainStep_registerOp (x y : Fin 12) (op : Word → Word → Word) (line : Word → Word → Word → Flags → Flags)
    (s : State) :
    ChainStep y (op s.r[x] s.r[y]) (line s.r[x] s.r[y] (op s.r[x] s.r[y]) s.flags).c s
      (registerOp (.r x) (.r y) op line s) where
  written := Vector.getElem_set_self y.isLt
  kept z hz := Vector.getElem_set_ne y.isLt z.isLt fun h => hz (Fin.ext h.symm)
  carry := rfl

section
variable (x y : Fin 12) (s : State)

theorem exec_add_chainStep :
    ∃ t, exec (.add (.r x) (.r y)) s = .next t ∧
      ChainStep y (sumWord false s.r[x] s.r[y]) (carryOf s.r[x] s.r[y] false) s t :=
  ⟨_, rfl, chainStep_registerOp x y (sumWord false) addFlags s⟩

/-- The hazard of R372: the carry goes in and stays as it was. -/
theorem exec_addc_chainStep :
    ∃ t, exec (.addc (.r x) (.r y)) s = .next t ∧ ChainStep y (sumWord s.flags.c s.r[x] s.r[y]) s.flags.c s t :=
  ⟨_, rfl, chainStep_registerOp x y (sumWord s.flags.c) (addcFlags Params.literalFlags s.flags.c) s⟩

theorem exec_sub_chainStep :
    ∃ t, exec (.sub (.r x) (.r y)) s = .next t ∧
      ChainStep y (diffWord false s.r[x] s.r[y]) (borrowOf s.r[x] s.r[y] false) s t :=
  ⟨_, rfl, chainStep_registerOp x y (diffWord false) (subFlags Params.literalFlags false) s⟩

theorem exec_subb_chainStep :
    ∃ t, exec (.subb (.r x) (.r y)) s = .next t ∧
      ChainStep y (diffWord s.flags.c s.r[x] s.r[y]) (borrowOf s.r[x] s.r[y] s.flags.c) s t :=
  ⟨_, rfl, chainStep_registerOp x y (diffWord s.flags.c) (subFlags Params.literalFlags s.flags.c) s⟩

end

/-- Settles O36: each instruction is one `ChainStep`; the digits put side by side give the wide sum and difference. -/
theorem carryChains : Obligations.CarryChains := by
  intro x0 x1 x2 y0 y1 y2 s y0_ne_y1 y0_ne_y2 y1_ne_y2 x1_ne_y0 x2_ne_y0 x2_ne_y1
  constructor
  · obtain ⟨t, run_t, step_t⟩ := exec_add_chainStep x0 y0 s
    obtain ⟨u, run_u, step_u⟩ := exec_addc_chainStep x1 y1 t
    obtain ⟨v, run_v, step_v⟩ := exec_addc_chainStep x2 y2 u
    have low : AddsTo false s.r[x0] s.r[y0] u.r[y0] t.flags.c := by
      rw [step_u.kept y0 y0_ne_y1, step_t.written, step_t.carry]
      exact addsTo_sumWord _ _ _
    have high : AddsTo t.flags.c s.r[x1] s.r[y1] u.r[y1] (carryOf s.r[x1] s.r[y1] t.flags.c) := by
      rw [step_u.written, step_t.kept x1 x1_ne_y0, step_t.kept y1 y0_ne_y1.symm]
      exact addsTo_sumWord _ _ _
    refine ⟨t, u, v, run_t, run_u, run_v, ?_, step_u.carry, step_v.carry.trans step_u.carry, ?_⟩
    · rw [(high.append low).eq_add]
      exact BitVec.add_comm _ _
    · rw [step_v.written, sumWord_eq, step_u.carry, step_u.kept x2 x2_ne_y1, step_t.kept x2 x2_ne_y0,
        step_u.kept y2 y1_ne_y2.symm, step_t.kept y2 y0_ne_y2.symm, BitVec.add_comm s.r[x2]]
  · obtain ⟨t, run_t, step_t⟩ := exec_sub_chainStep x0 y0 s
    obtain ⟨u, run_u, step_u⟩ := exec_subb_chainStep x1 y1 t
    obtain ⟨v, run_v, step_v⟩ := exec_subb_chainStep x2 y2 u
    have low : AddsTo false s.r[x0] v.r[y0] s.r[y0] t.flags.c := by
      rw [step_v.kept y0 y0_ne_y2, step_u.kept y0 y0_ne_y1, step_t.written, step_t.carry]
      exact addsTo_diffWord _ _ _
    have middle : AddsTo t.flags.c s.r[x1] v.r[y1] s.r[y1] u.flags.c := by
      rw [step_v.kept y1 y1_ne_y2, step_u.written, step_u.carry, step_t.kept x1 x1_ne_y0,
        step_t.kept y1 y0_ne_y1.symm]
      exact addsTo_diffWord _ _ _
    have high : AddsTo u.flags.c s.r[x2] v.r[y2] s.r[y2] v.flags.c := by
      rw [step_v.written, step_v.carry, step_u.kept x2 x2_ne_y1, step_t.kept x2 x2_ne_y0,
        step_u.kept y2 y1_ne_y2.symm, step_t.kept y2 y0_ne_y2.symm]
      exact addsTo_diffWord _ _ _
    have whole := (high.append middle).append low
    exact ⟨t, u, v, run_t, run_u, run_v, whole.eq_sub, whole.carry_eq⟩

end Sys2Proof.Machine

/-! The encoding (R82 to R101): a halfword and its two bytes; the fields of a form and the halfwords they make up, each
got back from the other; the operand values that survive their field; the instruction and its fields; and from these what
`decode` answers on an encoding, and what every byte string that decodes looks like. They settle O1 to O5. -/

namespace Sys2Proof

section
variable {v w : Nat}

/-- A field that lies in the lower part. The width of a literal concatenation is no sum: it must not be matched. -/
theorem extract_low_field (x : BitVec v) (y : BitVec w) (len : Nat) (h : len ≤ w) :
    (no_index (x ++ y)).extractLsb' 0 len = y.extractLsb' 0 len :=
  BitVec.extractLsb'_append_eq_of_add_le (by omega)

/-- A field that lies in the upper part. -/
theorem extract_high_field (x : BitVec v) (y : BitVec w) (start len : Nat) (h : w ≤ start) :
    (no_index (x ++ y)).extractLsb' start len = x.extractLsb' (start - w) len :=
  BitVec.extractLsb'_append_eq_of_le h

/-- Two fields side by side are one. -/
theorem join_fields (x : BitVec w) {start low mid high : Nat} (h : mid = start + low) :
    no_index (x.extractLsb' mid high ++ x.extractLsb' start low) = x.extractLsb' start (high + low) :=
  BitVec.extractLsb'_append_extractLsb'_eq_extractLsb' h

/-- A mask of `b` ones above `c` zeros picks the field there. -/
theorem and_ones_eq_zero_iff {a b c : Nat} (x : BitVec (a + b + c)) :
    x &&& (0#a ++ BitVec.allOnes b ++ 0#c) = 0#(a + b + c) ↔ x.extractLsb' c b = 0#b := by
  have pick : (x &&& (0#a ++ BitVec.allOnes b ++ 0#c)).extractLsb' c b = x.extractLsb' c b := by
    rw [BitVec.extractLsb'_and, BitVec.extractLsb'_append_eq_of_le (Nat.le_refl c), Nat.sub_self,
      BitVec.extractLsb'_append_eq_right, BitVec.and_allOnes]
  refine ⟨fun h => by rw [← pick, h, BitVec.extractLsb'_zero], fun h => ?_⟩
  apply BitVec.eq_of_getLsbD_eq
  intro k hk
  have bit := congrArg (fun y => y.getLsbD (k - c)) h
  simp only [BitVec.getLsbD_extractLsb', BitVec.getLsbD_zero, Bool.and_eq_false_imp, decide_eq_true_eq] at bit
  simp only [BitVec.getLsbD_and, BitVec.getLsbD_append, BitVec.getLsbD_zero, BitVec.getLsbD_allOnes]
  by_cases above : k < c
  · simp [above]
  · by_cases inside : k - c < b
    · have clear : x.getLsbD k = false := by simpa [Nat.add_sub_cancel' (Nat.le_of_not_lt above)] using bit inside
      simp [above, inside, clear]
    · simp [above, inside]

end

@[simp] theorem append_halfBytes (h : Half) : (h.extractLsb' 8 8 ++ h.extractLsb' 0 8 : Half) = h :=
  BitVec.extractLsb'_append_extractLsb' (w := 8) (len := 8)

theorem halfBytes_append (b0 b1 : Byte) : halfBytes (b0 ++ b1) = [b0, b1] := by
  rw [halfBytes, BitVec.extractLsb'_append_eq_left, BitVec.extractLsb'_append_eq_right]

/-- The bits that a form leaves unused are 0 (R91). -/
def UnusedClear : Form → Half → Prop
  | .f2, h0 | .f6, h0 => h0.extractLsb' 8 1 = 0#1
  | .f3, h0 => h0.extractLsb' 0 9 = 0#9
  | .f4, h0 | .f7, h0 => h0.extractLsb' 4 5 = 0#5
  | .f1, _ | .f5, _ | .f8, _ => True

theorem and_unusedMask_eq_zero_iff (fm : Form) (h0 : Half) : h0 &&& unusedMask fm = 0#16 ↔ UnusedClear fm h0 := by
  cases fm with
  | f2 | f6 => exact and_ones_eq_zero_iff (a := 7) (b := 1) (c := 8) h0
  | f3 => exact and_ones_eq_zero_iff (a := 7) (b := 9) (c := 0) h0
  | f4 | f7 => exact and_ones_eq_zero_iff (a := 7) (b := 5) (c := 4) h0
  | f1 | f5 | f8 => exact iff_of_true BitVec.and_zero trivial

/-- The form of a first halfword (R91, R96, R303). -/
theorem formOf_eq_ok_iff (h0 : Half) (fm : Form) :
    formOf h0 = .ok fm ↔ opForm (opcodeOf h0) = some fm ∧ UnusedClear fm h0 := by
  rw [← and_unusedMask_eq_zero_iff]
  have bits (form : Form) :
      (Machine.Params.unusedBitsFault && decide (h0 &&& Machine.Params.layout.unused form ≠ 0#16)) = true ↔
        ¬h0 &&& unusedMask form = 0#16 := decide_eq_true_iff
  unfold formOf
  split
  · next unassigned =>
    rw [show opForm (opcodeOf h0) = none from unassigned]
    simp
  · next form assigned =>
    rw [show opForm (opcodeOf h0) = some form from assigned]
    split
    · next set => simpa using fun same => same ▸ (bits form).1 set
    · next clear => simpa using fun same => same ▸ not_not.1 (mt (bits form).2 clear)

/-- The encoder leaves unused bits 0 (R91). -/
theorem unusedClear_firstHalf (f : Fields) : UnusedClear (fieldsForm f) (firstHalf f) := by
  cases f with
  | f1 | f5 | f8 => trivial
  | f3 op => exact BitVec.extractLsb'_append_eq_right
  | f2 op x y | f6 op x y =>
    simp [fieldsForm, UnusedClear, firstHalf, extract_high_field, extract_low_field]
  | f4 op x | f7 op x => simp [fieldsForm, UnusedClear, firstHalf, extract_high_field, extract_low_field]

/-- Cutting undoes joining: the fields of every form come out of the two halfwords they were put in (R83 to R90). -/
theorem cutFields_firstHalf (f : Fields) : cutFields (fieldsForm f) (firstHalf f) (secondHalf f) = f := by
  have opcode := opcodeOf_firstHalf f
  cases f with
  | f1 | f2 | f3 | f4 | f5 | f6 | f7 =>
    simp_all [fieldsForm, cutFields, firstHalf, secondHalf, Fields.opcode, extract_high_field, extract_low_field]
  | f8 op disp25 =>
    simp_all [fieldsForm, cutFields, firstHalf, secondHalf, Fields.opcode, extract_low_field, join_fields]

theorem fieldsForm_cutFields (fm : Form) (h0 h1 : Half) : fieldsForm (cutFields fm h0 h1) = fm := by cases fm <;> rfl

/-- Joining undoes cutting, where the unused bits are 0 (R83 to R91). -/
theorem firstHalf_cutFields {fm : Form} {h0 : Half} (h : UnusedClear fm h0) (h1 : Half) :
    firstHalf (cutFields fm h0 h1) = h0 := by
  cases fm with
  | f1 | f5 => simp [cutFields, firstHalf, opcodeOf, join_fields]
  | f2 | f3 | f4 | f6 | f7 =>
    simp only [cutFields, firstHalf, opcodeOf]
    rw [← h]
    simp [join_fields]
  | f8 => simp [cutFields, firstHalf, opcodeOf, join_fields, extract_high_field]

/-- The second halfword of a 32-bit form is all fields (R88 to R90). -/
theorem secondHalf_cutFields {fm : Form} (h : formBytes fm ≠ 2) (h0 h1 : Half) :
    secondHalf (cutFields fm h0 h1) = h1 := by
  cases fm with
  | f1 | f2 | f3 | f4 | f5 => exact absurd rfl h
  | f6 | f7 => rfl
  | f8 => exact BitVec.extractLsb'_append_eq_right

/-! The operand values that a field keeps (R92 to R94). -/

@[simp] theorem regOf_num (reg : IReg) : regOf reg.num = reg := by
  cases reg with
  | r n => exact (by decide : ∀ n : Fin 12, regOf (IReg.r n).num = .r n) n
  | sp | fp | ccr | pc => rfl

@[simp] theorem num_regOf (n : BitVec 4) : (regOf n).num = n :=
  (by decide : ∀ n : BitVec 4, (regOf n).num = n) n

@[simp] theorem narrowDisp_wideDisp {w : Nat} (field : BitVec w) : narrowDisp w (wideDisp field) = field := by
  simp [narrowDisp, wideDisp]

theorem wideDisp_narrowDisp {w : Nat} {disp : Int} (even : disp % 2 = 0) (pos : 0 < w)
    (low : -2 ^ (w - 1) ≤ disp / 2) (high : disp / 2 < 2 ^ (w - 1)) : wideDisp (narrowDisp w disp) = disp := by
  rw [wideDisp, narrowDisp, BitVec.toInt_ofInt_eq_self pos low high]
  omega

theorem wideDisp_narrowDisp_short {disp : Int} (h : shortReach disp = true) : wideDisp (narrowDisp 9 disp) = disp := by
  simp only [shortReach, Bool.and_eq_true, decide_eq_true_eq] at h
  exact wideDisp_narrowDisp h.1.1 (by decide) (by omega) (by omega)

theorem wideDisp_narrowDisp_long {disp : Int} (h : longReach disp = true) : wideDisp (narrowDisp 25 disp) = disp := by
  simp only [longReach, Bool.and_eq_true, decide_eq_true_eq] at h
  exact wideDisp_narrowDisp h.1.1 (by decide) (by omega) (by omega)

theorem toInt_ofInt_slots {slots : Int} (h : slotRange slots = true) : (BitVec.ofInt 9 slots).toInt = slots := by
  simp only [slotRange, Bool.and_eq_true, decide_eq_true_eq] at h
  exact BitVec.toInt_ofInt_eq_self (by decide) (by omega) (by omega)

theorem toInt_ofInt_imm5 {imm : Int} (h : imm5Range imm = true) : (BitVec.ofInt 5 imm).toInt = imm := by
  simp only [imm5Range, Bool.and_eq_true, decide_eq_true_eq] at h
  exact BitVec.toInt_ofInt_eq_self (by decide) (by omega) (by omega)

theorem toInt_ofInt_disp16 {disp : Int} (h : disp16Range disp = true) : (BitVec.ofInt 16 disp).toInt = disp := by
  simp only [disp16Range, Bool.and_eq_true, decide_eq_true_eq] at h
  exact BitVec.toInt_ofInt_eq_self (by decide) (by omega) (by omega)

@[simp] theorem shortReach_wideDisp (field : BitVec 9) : shortReach (wideDisp field) = true := by
  have low := BitVec.le_two_mul_toInt (x := field)
  have high := BitVec.two_mul_toInt_lt (x := field)
  simp only [shortReach, Bool.and_eq_true, decide_eq_true_eq]
  unfold wideDisp
  omega

@[simp] theorem longReach_wideDisp (field : BitVec 25) : longReach (wideDisp field) = true := by
  have low := BitVec.le_two_mul_toInt (x := field)
  have high := BitVec.two_mul_toInt_lt (x := field)
  simp only [longReach, Bool.and_eq_true, decide_eq_true_eq]
  unfold wideDisp
  omega

@[simp] theorem slotRange_toInt (field : BitVec 9) : slotRange field.toInt = true := by
  have low := BitVec.le_two_mul_toInt (x := field)
  have high := BitVec.two_mul_toInt_lt (x := field)
  simp only [slotRange, Bool.and_eq_true, decide_eq_true_eq]
  omega

@[simp] theorem imm5Range_toInt (field : BitVec 5) : imm5Range field.toInt = true := by
  have low := BitVec.le_two_mul_toInt (x := field)
  have high := BitVec.two_mul_toInt_lt (x := field)
  simp only [imm5Range, Bool.and_eq_true, decide_eq_true_eq]
  omega

@[simp] theorem disp16Range_toInt (field : BitVec 16) : disp16Range field.toInt = true := by
  have low := BitVec.le_two_mul_toInt (x := field)
  have high := BitVec.two_mul_toInt_lt (x := field)
  simp only [disp16Range, Bool.and_eq_true, decide_eq_true_eq]
  omega

/-! An instruction and its fields (R95, R101). -/

/-- The fields of a well-formed instruction stand for that instruction. -/
theorem instrOf_fieldsOf {i : Instr} (h : i.wellFormed = true) : instrOf (fieldsOf i) = some i := by
  cases i with
  | beqs | bges | bgts | bles | blts | bnes | bras | bccs | bcss | bvcs | bvss | bbss | bass | bats | bbts =>
    simp [fieldsOf, instrOf, wideDisp_narrowDisp_short h]
  | beql | bgel | bgtl | blel | bltl | bnel | bral | bsrl | bbsl | basl | batl | bbtl =>
    simp [fieldsOf, instrOf, wideDisp_narrowDisp_long h]
  | rets => simp [fieldsOf, instrOf, toInt_ofInt_slots h]
  | lims => simp [fieldsOf, instrOf, toInt_ofInt_imm5 h]
  | fldd | flds | lbzx | lbsx | llsx | llzx | lwsx | lwzx | fstd | fsts | stb | stl | stw =>
    simp [fieldsOf, instrOf, toInt_ofInt_disp16 h]
  | add | addc | and | asr | lsl | lsr | cmp | sub | subb | divs | divu | mod | move | muls | mulu | neg | not | or | xor
  | fadd | fcmp | fdiv | fmove | fmul | fneg | fsub | syscall | nop | orhi | lilo | call | popl | pushl =>
    simp [fieldsOf, instrOf]

/-- Fields that stand for an instruction are the fields of it, and it is well-formed. -/
theorem fieldsOf_of_instrOf {f : Fields} {i : Instr} (h : instrOf f = some i) :
    i.wellFormed = true ∧ fieldsOf i = f := by
  cases f with
  | f1 op | f2 op | f3 op | f4 op | f5 op | f6 op | f7 op | f8 op =>
    simp only [instrOf] at h
    split at h
    all_goals
      rename_i code
      cases h <;> simp [Instr.wellFormed, fieldsOf, BitVec.toNat_eq, code]

/-! What `decode` does with bytes (R53, R96). -/

/-- At the defaults, a form and the fields it cuts out decide the instruction. -/
theorem decodeHalves_eq {h0 h1 : Half} {fm : Form} {i : Instr} (form : formOf h0 = .ok fm)
    (fields : instrOf (cutFields fm h0 h1) = some i) : decodeHalves h0 h1 = .ok i := by
  simp only [decodeHalves, form]
  show (match instrOf (cutFields fm h0 h1) with | some i => admitSpecial i | none => _) = _
  rw [fields]
  rfl

theorem decodeHalves_ok {h0 h1 : Half} {i : Instr} (h : decodeHalves h0 h1 = .ok i) :
    ∃ fm, formOf h0 = .ok fm ∧ instrOf (cutFields fm h0 h1) = some i := by
  unfold decodeHalves at h
  split at h
  · cases h
  · next fm form =>
    refine ⟨fm, form, ?_⟩
    split at h
    · next j fields =>
      injection h with same
      exact same ▸ fields
    · cases h

/-- The first halfword of a well-formed instruction shows its form (R96). -/
theorem formOf_encoded (i : Instr) : formOf (firstHalf (fieldsOf i)) = .ok (fieldsForm (fieldsOf i)) := by
  refine (formOf_eq_ok_iff _ _).2 ⟨?_, unusedClear_firstHalf _⟩
  rw [opcodeOf_firstHalf]
  cases i <;> rfl

/-- The two halfwords of a well-formed instruction decode to it. -/
theorem decodeHalves_encoded {i : Instr} (h : i.wellFormed = true) :
    decodeHalves (firstHalf (fieldsOf i)) (secondHalf (fieldsOf i)) = .ok i :=
  decodeHalves_eq (formOf_encoded i) (by rw [cutFields_firstHalf, instrOf_fieldsOf h])

section
variable {b0 b1 b2 b3 : Byte} {fm : Form} {rest : List Byte}

theorem decode_short (form : formOf (b0 ++ b1) = .ok fm) (short : formBytes fm = 2) :
    decode (b0 :: b1 :: rest) = (decodeHalves (b0 ++ b1) 0#16).map fun i => (i, rest) := by
  simp [decode, form, short]

theorem decode_long (form : formOf (b0 ++ b1) = .ok fm) (long : formBytes fm ≠ 2) :
    decode (b0 :: b1 :: b2 :: b3 :: rest) = (decodeHalves (b0 ++ b1) (b2 ++ b3)).map fun i => (i, rest) := by
  simp [decode, form, long]

end

theorem secondHalf_of_short {f : Fields} (short : formBytes (fieldsForm f) = 2) : secondHalf f = 0#16 := by
  cases f with
  | f1 | f2 | f3 | f4 | f5 => rfl
  | f6 | f7 | f8 => exact absurd (show 4 = 2 from short) (by decide)

/-- The bytes of an instruction (R53, R101). -/
theorem encode_eq (i : Instr) :
    encode i = halfBytes (firstHalf (fieldsOf i)) ++
      if formBytes (fieldsForm (fieldsOf i)) = 2 then [] else halfBytes (secondHalf (fieldsOf i)) := rfl

/-- Settles O1: the first halfword shows the form, the form's length says which bytes are read, and cutting them undoes
joining. -/
theorem decodeEncode : Obligations.DecodeEncode := by
  intro i rest wellFormed
  have form := formOf_encoded i
  have decoded := decodeHalves_encoded wellFormed
  rw [← append_halfBytes (firstHalf (fieldsOf i))] at form decoded
  rw [encode_eq]
  split
  · next short =>
    rw [secondHalf_of_short short] at decoded
    exact (decode_short form short).trans (by rw [decoded]; rfl)
  · next long =>
    rw [← append_halfBytes (secondHalf (fieldsOf i))] at decoded
    exact (decode_long form long).trans (by rw [decoded]; rfl)

/-- Everything that a byte list which decodes can be: a first halfword that shows a form, for a 32-bit form a second one,
and the bytes left over. -/
theorem decode_ok {bytes rest : List Byte} {i : Instr} (h : decode bytes = .ok (i, rest)) :
    ∃ fm h0 h1, formOf h0 = .ok fm ∧ decodeHalves h0 h1 = .ok i ∧
      bytes = halfBytes h0 ++ (if formBytes fm = 2 then [] else halfBytes h1) ++ rest := by
  have mapped {answer : Except DecodeError Instr} {left : List Byte}
      (same : (answer.map fun j => (j, left)) = .ok (i, rest)) : answer = .ok i ∧ left = rest := by
    cases answer with
    | error e => cases same
    | ok j =>
      injection same with pair
      injection pair with first second
      exact ⟨first ▸ rfl, second⟩
  unfold decode at h
  split at h
  · next b0 b1 tail =>
    split at h
    · cases h
    · next fm form =>
      refine ⟨fm, b0 ++ b1, ?_⟩
      split at h
      · next short =>
        obtain ⟨decoded, rfl⟩ := mapped h
        exact ⟨0#16, form, decoded, by rw [if_pos short, halfBytes_append]; rfl⟩
      · next long =>
        split at h
        · next b2 b3 left =>
          obtain ⟨decoded, rfl⟩ := mapped h
          exact ⟨b2 ++ b3, form, decoded, by rw [if_neg long, halfBytes_append, halfBytes_append]; rfl⟩
        · cases h
  · cases h

/-- Settles O2: the fields cut out of the bytes are the fields of the instruction, and joining undoes cutting, since the
unused bits are 0. -/
theorem encodeDecode : Obligations.EncodeDecode := by
  intro bytes rest i decodes
  obtain ⟨fm, h0, h1, form, decoded, rfl⟩ := decode_ok decodes
  obtain ⟨fm', form', fields⟩ := decodeHalves_ok decoded
  obtain rfl : fm = fm' := by
    rw [form] at form'
    injection form'
  obtain ⟨wellFormed, fields_eq⟩ := fieldsOf_of_instrOf fields
  refine ⟨wellFormed, ?_⟩
  rw [encode_eq, fields_eq, fieldsForm_cutFields, firstHalf_cutFields ((formOf_eq_ok_iff _ _).1 form).2]
  split
  · rfl
  · next long => rw [secondHalf_cutFields long]

/-! The opcode map (R95 to R97). -/

/-- The opcode of a first halfword is its upper seven bits (R82). -/
theorem toNat_opcodeOf (h0 : Half) : (opcodeOf h0).toNat = h0.toNat / 512 := by
  have bound := h0.isLt
  rw [opcodeOf, BitVec.extractLsb'_toNat, Nat.shiftRight_eq_div_pow]
  omega

/-- The opcode values of each form (R95, R96). -/
def Form.hasCode (fm : Form) (n : Nat) : Bool :=
  match fm with
  | .f1 => decide (n ≤ 15)
  | .f2 => decide (32 ≤ n ∧ n ≤ 57)
  | .f3 => decide (n = 112 ∨ n = 113)
  | .f4 => decide (n = 120 ∨ n = 126 ∨ n = 127)
  | .f5 => decide (n = 114)
  | .f6 => decide ((64 ≤ n ∧ n ≤ 65) ∨ (72 ≤ n ∧ n ≤ 77) ∨ (80 ≤ n ∧ n ≤ 81) ∨ (88 ≤ n ∧ n ≤ 90))
  | .f7 => decide (n = 115 ∨ n = 116)
  | .f8 => decide (16 ≤ n ∧ n ≤ 27)

/-- The opcode table, all 128 rows of it. -/
theorem opForm_eq_some_iff (op : BitVec 7) (fm : Form) : opForm op = some fm ↔ fm.hasCode op.toNat = true := by
  cases fm with
  | f1 | f2 | f3 | f4 | f5 | f6 | f7 | f8 =>
    revert op
    decide

/-- The 53 values of no instruction (R97). -/
theorem opForm_eq_none_iff (op : BitVec 7) :
    opForm op = none ↔
      let n := op.toNat
      (28 ≤ n ∧ n ≤ 31) ∨ (58 ≤ n ∧ n ≤ 63) ∨ (66 ≤ n ∧ n ≤ 71) ∨ (78 ≤ n ∧ n ≤ 79) ∨ (82 ≤ n ∧ n ≤ 87) ∨
        (91 ≤ n ∧ n ≤ 111) ∨ (117 ≤ n ∧ n ≤ 119) ∨ (121 ≤ n ∧ n ≤ 125) := by
  revert op
  decide

/-- Settles O4: by O2 the bytes start with the encoding of the instruction, whose opcode has the form and so the length
of the instruction. -/
theorem lengthFromOpcode : Obligations.LengthFromOpcode := by
  intro b0 tail rest i decodes
  obtain ⟨-, bytes⟩ := encodeDecode _ _ _ decodes
  have length := congrArg List.length bytes
  rw [List.length_append, length_encode, List.length_cons] at length
  refine ⟨length.trans (Nat.add_comm _ _), ?_⟩
  have opcode : (opcodeOf (firstHalf (fieldsOf i))).toNat = b0.toNat / 2 := by
    have first : b0 = (firstHalf (fieldsOf i)).extractLsb' 8 8 := (List.cons.inj bytes).1
    rw [toNat_opcodeOf, first, BitVec.extractLsb'_toNat, Nat.shiftRight_eq_div_pow]
    omega
  have code := (opForm_eq_some_iff _ _).1 ((formOf_eq_ok_iff _ _).1 (formOf_encoded i)).1
  rw [opcode] at code
  rw [Instr.size]
  revert code
  cases fieldsForm (fieldsOf i) with
  | f1 | f2 | f3 | f4 | f5 | f6 | f7 | f8 =>
    intro code
    simp only [Form.hasCode, decide_eq_true_eq] at code
    simp only [formBytes, true_and]
    split_ifs <;> omega

/-- The unused bits as a number (R91). -/
theorem unusedClear_iff (fm : Form) (h0 : Half) :
    UnusedClear fm h0 ↔
      match fm with
      | .f2 | .f6 => h0.toNat / 256 % 2 = 0
      | .f3 => h0.toNat % 512 = 0
      | .f4 | .f7 => h0.toNat / 16 % 32 = 0
      | .f1 | .f5 | .f8 => True := by
  have field (start len : Nat) : h0.extractLsb' start len = 0#len ↔ h0.toNat / 2 ^ start % 2 ^ len = 0 := by
    rw [← BitVec.toNat_inj, BitVec.extractLsb'_toNat, Nat.shiftRight_eq_div_pow, BitVec.toNat_ofNat, Nat.zero_mod]
  cases fm with
  | f2 | f6 => exact field 8 1
  | f3 => exact (field 0 9).trans (by simp)
  | f4 | f7 => exact field 4 5
  | f1 | f5 | f8 => rfl

/-- Settles O5: a first halfword is illegal if no form has both its opcode and its unused bits 0; form by form, that is
the list of the statement. -/
theorem illegalFirstHalfword : Obligations.IllegalFirstHalfword := by
  intro h0
  dsimp only
  have illegal : (∃ e, formOf h0 = .error e) ↔ ∀ fm, opForm (opcodeOf h0) = some fm → ¬UnusedClear fm h0 := by
    have legal (fm : Form) := formOf_eq_ok_iff h0 fm
    cases answer : formOf h0 with
    | error e => simpa [answer] using legal
    | ok fm => simpa [answer] using ⟨fm, (legal fm).1 answer⟩
  have unassigned := opForm_eq_none_iff (opcodeOf h0)
  have bit : h0.getLsbD 8 = true ↔ h0.toNat / 256 % 2 = 1 := by
    rw [BitVec.getLsbD, Nat.testBit_eq_decide_div_mod_eq, decide_eq_true_eq]
  rw [illegal, bit]
  cases assigned : opForm (opcodeOf h0) with
  | none =>
    rw [toNat_opcodeOf] at unassigned
    exact iff_of_true (by simp) (.inl (unassigned.1 assigned))
  | some form =>
    have code := (opForm_eq_some_iff _ _).1 assigned
    simp only [Option.some.injEq, forall_eq', unusedClear_iff]
    rw [toNat_opcodeOf] at code
    cases form with
    | f1 | f2 | f3 | f4 | f5 | f6 | f7 | f8 =>
      simp only [Form.hasCode, decide_eq_true_eq, not_true_eq_false, false_iff] at code ⊢
      omega

/-- Settles O3: ten words of the table, evaluated. -/
theorem specWordsDecode : Obligations.SpecWordsDecode := by
  unfold Obligations.SpecWordsDecode
  decide

end Sys2Proof

/-! One step (R62, R278, R320): when a fetch raises which exception, when it answers an instruction, and what a step makes
of either. They settle O6 to O10. -/

namespace Sys2Proof.Machine

section
variable {s : State}

theorem lowest_bit (a : Word) : a[0] = decide (a.toNat % 2 = 1) := by
  rw [← BitVec.getLsbD_eq_getElem, BitVec.getLsbD, Nat.testBit_zero]

/-- Two bytes that are those of a halfword make it up (R51, R53). -/
theorem halfAt_of_bytes {a : Word} {h : Half} (first : s.byte a = h.extractLsb' 8 8)
    (second : s.byte (a + 1#32) = h.extractLsb' 0 8) : halfAt s a = h := by
  rw [halfAt, first, second, append_halfBytes]

/-- Both bytes of a halfword are valid memory. -/
theorem everyByte_two_iff (p : Word → Bool) (a : Word) : everyByte p a 2 = true ↔ p a = true ∧ p (a + 1#32) = true := by
  simp [everyByte]

/-- The checks of a fetch, in their order (R320). -/
theorem fetch_odd (odd : s.pc.toNat % 2 = 1) : s.fetch = .error (.illegalBusAccess s.pc) := by
  simp [State.fetch, lowest_bit, odd]

section
variable (even : s.pc.toNat % 2 = 0)
include even

theorem fetch_first_invalid (invalid : everyByte s.valid s.pc 2 = false) :
    s.fetch = .error (.invalidMemoryAccess s.pc) := by
  simp [State.fetch, lowest_bit, even, invalid]

variable (first : everyByte s.valid s.pc 2 = true)
include first

theorem fetch_illegal {e : DecodeError} (illegal : formOf (halfAt s s.pc) = .error e) :
    s.fetch = .error (.illegalInstruction (halfAt s s.pc)) := by
  simp [State.fetch, lowest_bit, even, first, load16_eq, illegal]

variable {fm : Form} (form : formOf (halfAt s s.pc) = .ok fm)
include form

theorem fetch_second_invalid (long : formBytes fm = 4) (invalid : everyByte s.valid (s.pc + 2#32) 2 = false) :
    s.fetch = .error (.invalidMemoryAccess (s.pc + 2#32)) := by
  simp [State.fetch, lowest_bit, even, first, load16_eq, form, long, invalid]

theorem fetch_short {i : Instr} (short : formBytes fm = 2) (decoded : decodeHalves (halfAt s s.pc) 0#16 = .ok i) :
    s.fetch = .ok i := by
  simp [State.fetch, lowest_bit, even, first, load16_eq, form, short, decoded]

theorem fetch_long {i : Instr} (long : formBytes fm = 4) (second : everyByte s.valid (s.pc + 2#32) 2 = true)
    (decoded : decodeHalves (halfAt s s.pc) (halfAt s (s.pc + 2#32)) = .ok i) : s.fetch = .ok i := by
  simp [State.fetch, lowest_bit, even, first, load16_eq, form, long, second, decoded]

end

theorem step_of_fetch_ok {i : Instr} (running : s.run = .running) (fetched : s.fetch = .ok i) : step s = exec i s := by
  simp only [step, running, fetched]

theorem step_of_fetch_error {e : Exception} (running : s.run = .running) (raised : s.fetch = .error e) :
    step s = takeException e s := by
  simp only [step, running, raised]

end

/-- Everything a step that answers a next state can be (R310, R370). -/
theorem step_next {s t : State} (h : step s = .next t) :
    s.run = .running ∧
      ((∃ i, s.fetch = .ok i ∧ exec i s = .next t) ∨ ∃ e, s.fetch = .error e ∧ takeException e s = .next t) := by
  unfold step at h
  split at h
  · next running =>
    refine ⟨running, ?_⟩
    split at h
    · next e raised => exact .inr ⟨e, raised, h⟩
    · next i fetched => exact .inl ⟨i, fetched, h⟩
  · cases h
  · cases h

/-- Settles O7: the checks of a fetch one by one. -/
theorem fetchPriority : Obligations.FetchPriority := by
  intro s running
  dsimp only
  rw [← everyByte_two_iff]
  refine ⟨fun odd => ?_, fun even invalid => ?_, fun e even first illegal => ?_,
    fun fm even first form long invalid => ?_⟩
  · exact step_of_fetch_error running (fetch_odd odd)
  · exact step_of_fetch_error running (fetch_first_invalid even (by simpa using invalid))
  · exact step_of_fetch_error running (fetch_illegal even first illegal)
  · have second : everyByte s.valid (s.pc + 2#32) 2 = false := by
      rw [← Bool.not_eq_true, everyByte_two_iff, BitVec.add_assoc]
      exact invalid
    exact step_of_fetch_error running (fetch_second_invalid even first form long second)

/-- Settles O6: the bytes are the encoding of the instruction (O2), so the fetch finds its two halfwords. -/
theorem stepRunsDecoded : Obligations.StepRunsDecoded := by
  intro s i running even wellFormed valid decodes
  refine step_of_fetch_ok running ?_
  have form := formOf_encoded i
  have decoded := decodeHalves_encoded wellFormed
  have bytes := (encodeDecode _ _ _ decodes).2
  rw [List.append_nil, encode_eq] at bytes
  rw [Instr.size] at valid bytes
  generalize hlen : formBytes (fieldsForm (fieldsOf i)) = len at valid bytes
  have lengths : len = 2 ∨ len = 4 := by
    rw [← hlen]
    cases fieldsForm (fieldsOf i) <;> simp [formBytes]
  rcases lengths with rfl | rfl
  · simp only [List.range_succ, List.range_zero, List.nil_append, List.cons_append, List.map_cons, BitVec.add_zero,
      List.map_nil, halfBytes, if_true, List.append_nil, List.cons.injEq, and_true] at bytes
    have first : halfAt s s.pc = firstHalf (fieldsOf i) := halfAt_of_bytes bytes.1 bytes.2
    rw [← first] at form decoded
    rw [secondHalf_of_short hlen] at decoded
    exact fetch_short even ((everyByte_iff _ _ _).2 valid) form hlen decoded
  · simp only [List.range_succ, List.range_zero, List.nil_append, List.cons_append, List.map_cons, BitVec.add_zero,
      List.map_nil, halfBytes, Nat.reduceEqDiff, if_false, List.cons.injEq, and_true] at bytes
    have e : s.pc + 2#32 + 1#32 = s.pc + 3#32 := by rw [BitVec.add_assoc]; rfl
    obtain ⟨b0, b1, b2, b3⟩ := bytes
    have first : halfAt s s.pc = firstHalf (fieldsOf i) := halfAt_of_bytes b0 b1
    have second : halfAt s (s.pc + 2#32) = secondHalf (fieldsOf i) := halfAt_of_bytes b2 (e ▸ b3)
    rw [← first] at form decoded
    rw [← second] at decoded
    have low : everyByte s.valid s.pc 2 = true := (everyByte_iff _ _ _).2 fun k hk => valid k (by omega)
    have high : everyByte s.valid (s.pc + 2#32) 2 = true := by
      rw [everyByte_two_iff, e]
      exact ⟨valid 2 (by decide), valid 3 (by decide)⟩
    exact fetch_long even low form hlen high decoded

/-- Settles O8. -/
theorem endedRunStops : Obligations.EndedRunStops := by
  intro s ended
  cases run : s.run with
  | running => exact absurd run ended
  | exited status => simp only [step, run]
  | aborted e status => simp only [step, run]

/-- Settles O9. -/
theorem resetState : Obligations.ResetState := ⟨rfl, rfl, rfl, rfl, fun _ => rfl, fun _ => rfl⟩

/-- Settles O10: no byte is written, and the descriptors 0, 1 and 2 are those open. -/
theorem resetInv : Obligations.ResetInv := ⟨Memory.wf_nil, fun _ standard => standard⟩

end Sys2Proof.Machine

/-! What an instruction can do. `Meaning` says it once for all 75: a check, the state the instruction completes in if the
check raises nothing, and of both what the claims about every step need. From it follow O11 to O20. -/

namespace Sys2Proof.Machine

/-! Parity of addresses (R61, R92). -/

theorem even_add {a b : Word} (ha : a.toNat % 2 = 0) (hb : b.toNat % 2 = 0) : (a + b).toNat % 2 = 0 := by
  rw [BitVec.toNat_add]
  omega

theorem even_ofInt {disp : Int} (even : disp % 2 = 0) : (BitVec.ofInt 32 disp).toNat % 2 = 0 := by
  rw [BitVec.toNat_ofInt]
  omega

theorem even_of_shortReach {disp : Int} (h : shortReach disp = true) : disp % 2 = 0 := by
  simp only [shortReach, Bool.and_eq_true, decide_eq_true_eq] at h
  exact h.1.1

theorem even_of_longReach {disp : Int} (h : longReach disp = true) : disp % 2 = 0 := by
  simp only [longReach, Bool.and_eq_true, decide_eq_true_eq] at h
  exact h.1.1

/-- A store keeps the map and what is not writable, where its check has passed (R65, R66). -/
theorem Keeps.of_store {s t : State} {n : Nat} {a : Word} (small : n ≤ 4294967296) (check : s.writeFault n a = none)
    (regions : t.regions = s.regions) (wf : Memory.wf s.mem → Memory.wf t.mem)
    (outside : Memory.wf s.mem → ∀ b, inRange a n b = false → Memory.find t.mem b.toNat = Memory.find s.mem b.toNat) :
    Keeps s t :=
  ⟨regions, wf, fun h b hb => State.byte_eq_of_find (outside h b (outside_of_writeFault small check hb))⟩

/-- The exceptions that an instruction can raise of its own (R308). -/
def MayRaise (i : Instr) (e : Exception) : Prop :=
  match i with
  | .fdiv _ _ => e = .floatDivideByZero
  | .lbzx _ _ _ | .lbsx _ _ _ | .stb _ _ _ => ∃ a, e = .invalidMemoryAccess a
  | .lwzx _ _ _ | .lwsx _ _ _ | .stw _ _ _ | .llzx _ _ _ | .llsx _ _ _ | .stl _ _ _ | .fldd _ _ _ | .flds _ _ _
  | .fstd _ _ _ | .fsts _ _ _ | .pushl _ | .popl _ | .call _ | .bsrl _ | .rets _ | .syscall =>
    ∃ a, e = .illegalBusAccess a ∨ e = .invalidMemoryAccess a
  | _ => False

/-- A byte access is never misaligned. -/
theorem accessFault_byte {p : Word → Bool} {a : Word} {e : Exception} (h : State.accessFault p 1 a = some e) :
    ∃ a, e = .invalidMemoryAccess a := by
  rcases (State.accessFault_some p 1 a e).1 h with ⟨misaligned, -⟩ | ⟨-, -, invalid⟩
  · exact absurd (Nat.mod_one _) misaligned
  · exact ⟨a, invalid⟩

theorem accessFault_wide {p : Word → Bool} {n : Nat} {a : Word} {e : Exception} (h : State.accessFault p n a = some e) :
    ∃ a, e = .illegalBusAccess a ∨ e = .invalidMemoryAccess a := by
  rcases (State.accessFault_some p n a e).1 h with ⟨-, misaligned⟩ | ⟨-, -, invalid⟩
  · exact ⟨a, .inl misaligned⟩
  · exact ⟨a, .inr invalid⟩

/-- HANDLERS modelled by a function, and FDIV_ZERO_VECTOR as given; all else at its default (R312). -/
abbrev handling (successor : BitVec 5 → State → State) (zero : Config.FdivZero) : Parameters :=
  { handlers := .modelled successor, fdivZeroVector := zero }

/-- The instructions that can lead to an odd PC: CALL, RETS and those that write to register 15 (R61). -/
def LeavesParity (i : Instr) : Prop := destOf i ≠ some .pc ∧ (∀ rx, i ≠ .call rx) ∧ ∀ n, i ≠ .rets n

/-- What an instruction means: the exception `fault` if its checks raise one, taken in the state before, else the state
`done`; and what of the two the claims about every step rest on. -/
structure Meaning (i : Instr) (s : State) (fault : Option Exception) (done : State) : Prop where
  exec_eq : exec i s = unlessFault s fault done
  /-- The same check stands before the instruction where HANDLERS is modelled. -/
  under : ∀ successor zero, ∃ u,
    execUnder (handling successor zero) i s = unlessFault s fault u (handling successor zero)
  raises : ∀ e, fault = some e → MayRaise i e
  keeps : fault = none → Keeps s done
  run : done.run = s.run ∨ (i = .syscall ∧ s.r[0] = 0#32 ∧ done.run = .exited s.r[1])
  host : i ≠ .syscall → done.host = s.host
  vectors : done.host.vectors = s.host.vectors
  openFds : ∀ d ∈ standardFds, d ∈ s.host.openFds → d ∈ done.host.openFds
  even : Memory.wf s.mem → i.wellFormed = true → s.pc.toNat % 2 = 0 → LeavesParity i → done.pc.toNat % 2 = 0

/-! The meaning of each family of instructions. -/

section
variable {i : Instr} {s done : State}

/-- An instruction with a check that calls no host. -/
theorem Meaning.checked {fault : Option Exception} (exec_eq : exec i s = unlessFault s fault done)
    (under : ∀ successor zero,
      ∃ u,
    execUnder (handling successor zero) i s = unlessFault s fault u (handling successor zero))
    (raises : ∀ e, fault = some e → MayRaise i e) (keeps : fault = none → Keeps s done)
    (host : done.host = s.host) (run : done.run = s.run)
    (even : i.wellFormed = true → s.pc.toNat % 2 = 0 → LeavesParity i → done.pc.toNat % 2 = 0) :
    Meaning i s fault done where
  exec_eq := exec_eq
  under := under
  raises := raises
  keeps := keeps
  run := .inl run
  host _ := host
  vectors := by rw [host]
  openFds d _ h := by rw [host]; exact h
  even _ := even

/-- An instruction that checks nothing and leaves the memory. -/
theorem Meaning.plain (exec_eq : exec i s = .next done)
    (under : ∀ successor zero, ∃ u, execUnder (handling successor zero) i s = .next u)
    (mem : done.mem = s.mem) (regions : done.regions = s.regions) (host : done.host = s.host) (run : done.run = s.run)
    (even : i.wellFormed = true → s.pc.toNat % 2 = 0 → LeavesParity i → done.pc.toNat % 2 = 0) :
    Meaning i s none done :=
  .checked exec_eq under nofun (fun _ => .of_eq regions mem) host run even

theorem writeReg_pc_of_ne {reg : IReg} (h : reg ≠ .pc) (s : State) (v : Word) : (s.writeReg reg v).pc = s.pc := by
  cases reg with
  | pc => exact absurd rfl h
  | r | sp | fp | ccr => rfl

theorem LeavesParity.ne_pc {reg : IReg} (h : LeavesParity i) (dest : destOf i = some reg) : reg ≠ .pc := by
  rintro rfl
  exact h.1 dest

theorem even_advance {len : Nat} (even : s.pc.toNat % 2 = 0) (whole : (BitVec.ofNat 32 len).toNat % 2 = 0) :
    (s.advance len).pc.toNat % 2 = 0 := even_add even whole

/-- The 26 branches (R120). -/
theorem Meaning.branch {len : Nat} {cond : Flags → Bool} {disp : Int}
    (exec_eq : exec i s = .next (branch len cond disp s))
    (under : ∀ successor zero, ∃ u, execUnder (handling successor zero) i s = .next u)
    (whole : (BitVec.ofNat 32 len).toNat % 2 = 0) (reach : i.wellFormed = true → disp % 2 = 0) :
    Meaning i s none (branch len cond disp s) := by
  rw [branch_eq] at exec_eq ⊢
  refine .plain exec_eq under rfl rfl rfl rfl fun wellFormed even _ => even_add (even_add even whole) ?_
  split
  · exact even_ofInt (reach wellFormed)
  · rfl

/-- An instruction whose one effect on the PC is the step over it, unless it writes the PC (R28, R31). -/
theorem Meaning.register {rx ry : IReg} {op : Word → Word → Word} {line : Word → Word → Word → Flags → Flags}
    (exec_eq : exec i s = .next (registerOp rx ry op line s))
    (under : ∀ successor zero, ∃ u, execUnder (handling successor zero) i s = .next u) (dest : destOf i = some ry) :
    Meaning i s none (registerOp rx ry op line s) := by
  obtain ⟨-, mem, regions, host, run, -⟩ := registerOp_frame rx ry op line s Params.defaults
  refine .plain exec_eq under mem regions host run fun _ even keeps => ?_
  show ((s.advance 2).writeReg ry _).pc.toNat % 2 = 0
  rw [writeReg_pc_of_ne (keeps.ne_pc dest)]
  exact even_advance even rfl

/-- DIVS, DIVU and MOD (R167 to R169, R173). -/
theorem Meaning.divide {rx ry : IReg} {op : Word → Word → Word} (exec_eq : exec i s = .next (divideOp rx ry op s))
    (under : ∀ successor zero, ∃ u, execUnder (handling successor zero) i s = .next u) (dest : destOf i = some ry) :
    Meaning i s none (divideOp rx ry op s) := by
  obtain ⟨-, mem, regions, host, run⟩ := divideOp_frame rx ry op s Params.defaults
  refine .plain exec_eq under mem regions host run fun _ even keeps => ?_
  rw [divideOp_eq]
  split
  · exact even_advance even rfl
  · show ((s.advance 2).writeReg ry _).pc.toNat % 2 = 0
    rw [writeReg_pc_of_ne (keeps.ne_pc dest)]
    exact even_advance even rfl

/-- LIMS, LILO and ORHI (R262 to R264). -/
theorem Meaning.immediate {len : Nat} {ry : IReg} {v : Word}
    (exec_eq : exec i s = .next ((s.advance len).writeReg ry v))
    (under : ∀ successor zero, ∃ u, execUnder (handling successor zero) i s = .next u)
    (whole : (BitVec.ofNat 32 len).toNat % 2 = 0) (dest : destOf i = some ry) :
    Meaning i s none ((s.advance len).writeReg ry v) := by
  refine .plain exec_eq under ?_ ?_ ?_ ?_ fun _ even keeps => ?_
  · exact State.writeReg_mem _ _ _ _
  · exact State.writeReg_regions _ _ _ _
  · exact State.writeReg_host _ _ _ _
  · exact State.writeReg_run _ _ _ _
  · rw [writeReg_pc_of_ne (keeps.ne_pc dest)]
    exact even_advance even whole

/-- The integer loads (R241 to R246). -/
theorem Meaning.load {n : Nat} {value : State → Word → Word} {disp : Int} {rx ry : IReg}
    (exec_eq : exec i s = loadOp n value disp rx ry s)
    (under : ∀ successor zero, ∃ u, execUnder (handling successor zero) i s =
      unlessFault s (s.readFault n ((s.advance 4).ea rx disp)) u (handling successor zero))
    (raises : ∀ e, s.readFault n ((s.advance 4).ea rx disp) = some e → MayRaise i e) (dest : destOf i = some ry) :
    Meaning i s (s.readFault n ((s.advance 4).ea rx disp))
      ((s.advance 4).writeReg ry (value (s.advance 4) ((s.advance 4).ea rx disp))) := by
  refine .checked exec_eq under raises (fun _ => .of_eq ?_ ?_) ?_ ?_ fun _ even keeps => ?_
  · exact State.writeReg_regions _ _ _ _
  · exact State.writeReg_mem _ _ _ _
  · exact State.writeReg_host _ _ _ _
  · exact State.writeReg_run _ _ _ _
  · rw [writeReg_pc_of_ne (keeps.ne_pc dest)]
    exact even_advance even rfl

/-- The stores (R221, R222, R247 to R249). -/
theorem Meaning.store {n : Nat} {a : Word} (exec_eq : exec i s = unlessFault s (s.writeFault n a) done)
    (under : ∀ successor zero,
      ∃ u,
    execUnder (handling successor zero) i s = unlessFault s (s.writeFault n a) u (handling successor zero))
    (raises : ∀ e, s.writeFault n a = some e → MayRaise i e) (small : n ≤ 4294967296)
    (regions : done.regions = s.regions) (host : done.host = s.host) (run : done.run = s.run)
    (pc : done.pc = (s.advance 4).pc) (wf : Memory.wf s.mem → Memory.wf done.mem)
    (outside : Memory.wf s.mem → ∀ b, inRange a n b = false →
      Memory.find done.mem b.toNat = Memory.find s.mem b.toNat) :
    Meaning i s (s.writeFault n a) done :=
  .checked exec_eq under raises (fun check => .of_store small check regions wf outside) host run fun _ even _ => by
    rw [pc]
    exact even_advance even rfl

/-- CALL, BSRL and PUSHL (R281, R283, R285). -/
theorem Meaning.push {v : Word} (exec_eq : exec i s = unlessFault s s.pushFault done)
    (under : ∀ successor zero,
      ∃ u,
    execUnder (handling successor zero) i s = unlessFault s s.pushFault u (handling successor zero))
    (raises : ∀ e, s.pushFault = some e → MayRaise i e) (mem : done.mem = (s.push v).mem)
    (regions : done.regions = s.regions) (host : done.host = s.host) (run : done.run = s.run)
    (even : i.wellFormed = true → s.pc.toNat % 2 = 0 → LeavesParity i → done.pc.toNat % 2 = 0) :
    Meaning i s s.pushFault done :=
  .checked exec_eq under raises (fun check => (keeps_push v check).trans (.of_eq regions mem)) host run even

end

theorem keeps_advance (s : State) (len : Nat) : Keeps s (s.advance len) := .of_eq rfl rfl

/-- At the default of HANDLERS no call sets a vector (R312, D20). -/
theorem hostService_vectors (s : State) : s.hostService.host.vectors = s.host.vectors := rfl

theorem hostService_openFds (s : State) {d : Nat} (standard : d ∈ standardFds) : d ∈ s.hostService.host.openFds :=
  mem_withStandardFds _ standard

/-- SYSCALL that ends the run (R278). -/
theorem Meaning.exit {s : State} (number : s.r[0] = 0#32) :
    Meaning .syscall s s.pushFault (exitRun s ((s.advance 2).push (s.advance 2).pc) s.r[1]) where
  exec_eq := (execSyscall_eq s).trans (by rw [if_pos number])
  under _ _ := ⟨_, rfl⟩
  raises _ := accessFault_wide
  keeps check := ((keeps_advance s 2).trans (keeps_push _ check)).trans (.of_eq rfl rfl)
  run := .inr ⟨rfl, number, rfl⟩
  host h := absurd rfl h
  vectors := rfl
  openFds _ _ h := h
  even _ _ even _ := even

/-- SYSCALL that returns (R260, R274). -/
theorem Meaning.call {s : State} (number : s.r[0] ≠ 0#32) :
    Meaning .syscall s s.pushFault ((s.advance 2).push (s.advance 2).pc).hostService.hostReturn where
  exec_eq := (execSyscall_eq s).trans (by rw [if_neg number])
  under _ _ := ⟨_, rfl⟩
  raises _ := accessFault_wide
  keeps check :=
    (((keeps_advance s 2).trans (keeps_push _ check)).trans (keeps_hostService _ Params.defaults)).trans
      (.of_eq rfl rfl)
  run := .inl rfl
  host h := absurd rfl h
  vectors := hostService_vectors _
  openFds _ standard _ := hostService_openFds _ standard
  even wf _ even _ := by
    rw [(hostReturn_push (s := s.advance 2) Params.defaults wf (s.advance 2).pc).1]
    exact even_advance even rfl

/-- Every instruction has a meaning, on every state. -/
theorem exec_meaning (i : Instr) (s : State) : ∃ fault done, Meaning i s fault done := by
  cases i with
  | beqs d | bges d | bgts d | bles d | blts d | bnes d | bras d | bccs d | bcss d | bvcs d | bvss d | bbss d | bass d
  | bats d | bbts d => exact ⟨_, _, .branch rfl (fun _ _ => ⟨_, rfl⟩) rfl even_of_shortReach⟩
  | beql d | bgel d | bgtl d | blel d | bltl d | bnel d | bral d | bbsl d | basl d | batl d | bbtl d =>
    exact ⟨_, _, .branch rfl (fun _ _ => ⟨_, rfl⟩) rfl even_of_longReach⟩
  | add rx ry | addc rx ry | and rx ry | asr rx ry | lsl rx ry | lsr rx ry | sub rx ry | subb rx ry | move rx ry
  | muls rx ry | mulu rx ry | neg rx ry | not rx ry | or rx ry | xor rx ry =>
    exact ⟨_, _, .register rfl (fun _ _ => ⟨_, rfl⟩) rfl⟩
  | divs rx ry | divu rx ry | mod rx ry => exact ⟨_, _, .divide rfl (fun _ _ => ⟨_, rfl⟩) rfl⟩
  | cmp rx ry | fadd fx fy | fcmp fx fy | fmove fx fy | fmul fx fy | fneg fx fy | fsub fx fy | nop =>
    exact ⟨_, _, .plain rfl (fun _ _ => ⟨_, rfl⟩) rfl rfl rfl rfl fun _ even _ => even_advance even rfl⟩
  | lims imm ry | orhi imm ry | lilo imm ry => exact ⟨_, _, .immediate rfl (fun _ _ => ⟨_, rfl⟩) rfl rfl⟩
  | fdiv fx fy =>
    refine ⟨_, _, .checked rfl (fun _ _ => ⟨_, rfl⟩) ?_ (fun _ => .of_eq rfl rfl) rfl rfl fun _ even _ =>
      even_advance even rfl⟩
    intro e raised
    split at raised
    · exact (Option.some.inj raised).symm
    · cases raised
  | lbzx d rx ry => exact ⟨_, _, .load (exec_lbzx d rx ry s) (fun _ _ => ⟨_, rfl⟩) (fun _ => accessFault_byte) rfl⟩
  | lbsx d rx ry => exact ⟨_, _, .load (exec_lbsx d rx ry s) (fun _ _ => ⟨_, rfl⟩) (fun _ => accessFault_byte) rfl⟩
  | lwsx d rx ry => exact ⟨_, _, .load (exec_lwsx d rx ry s) (fun _ _ => ⟨_, rfl⟩) (fun _ => accessFault_wide) rfl⟩
  | lwzx d rx ry => exact ⟨_, _, .load (exec_lwzx d rx ry s) (fun _ _ => ⟨_, rfl⟩) (fun _ => accessFault_wide) rfl⟩
  | llsx d rx ry | llzx d rx ry =>
    exact ⟨_, _, .load (exec_llzx d rx ry s) (fun _ _ => ⟨_, rfl⟩) (fun _ => accessFault_wide) rfl⟩
  | fldd d rx fy | flds d rx fy =>
    exact ⟨_, _, .checked rfl (fun _ _ => ⟨_, rfl⟩) (fun _ => accessFault_wide) (fun _ => .of_eq rfl rfl) rfl rfl
      fun _ even _ => even_advance even rfl⟩
  | stb rx d ry =>
    exact ⟨_, _, .store rfl (fun _ _ => ⟨_, rfl⟩) (fun _ => accessFault_byte) (by decide) rfl rfl rfl rfl
      (Memory.store8_wf _ _) fun h b => Memory.find_store8_outside h _ b _⟩
  | stw rx d ry =>
    exact ⟨_, _, .store rfl (fun _ _ => ⟨_, rfl⟩) (fun _ => accessFault_wide) (by decide) rfl rfl rfl rfl
      (Memory.store16_wf _ _) fun h b => Memory.find_store16_outside h _ b _⟩
  | stl rx d ry | fsts fx d ry =>
    exact ⟨_, _, .store rfl (fun _ _ => ⟨_, rfl⟩) (fun _ => accessFault_wide) (by decide) rfl rfl rfl rfl
      (Memory.store32_wf _ _) fun h b => Memory.find_store32_outside h _ b _⟩
  | fstd fx d ry =>
    exact ⟨_, _, .store rfl (fun _ _ => ⟨_, rfl⟩) (fun _ => accessFault_wide) (by decide) rfl rfl rfl rfl
      (Memory.store64_wf _ _) fun h b => Memory.find_store64_outside h _ b _⟩
  | pushl rx =>
    exact ⟨_, _, .push rfl (fun _ _ => ⟨_, rfl⟩) (fun _ => accessFault_wide) rfl rfl rfl rfl fun _ even _ =>
      even_advance even rfl⟩
  | bsrl d =>
    exact ⟨_, _, .push rfl (fun _ _ => ⟨_, rfl⟩) (fun _ => accessFault_wide) rfl rfl rfl rfl fun reach even _ =>
      even_add (even_advance even rfl) (even_ofInt (even_of_longReach reach))⟩
  | call rx =>
    exact ⟨_, _, .push rfl (fun _ _ => ⟨_, rfl⟩) (fun _ => accessFault_wide) rfl rfl rfl rfl fun _ _ keeps =>
      absurd rfl (keeps.2.1 rx)⟩
  | rets n =>
    exact ⟨_, _, .checked rfl (fun _ _ => ⟨_, rfl⟩) (fun _ => accessFault_wide) (fun _ => .of_eq rfl rfl) rfl rfl
      fun _ _ keeps => absurd rfl (keeps.2.2 n)⟩
  | popl rx =>
    refine ⟨_, _, .checked rfl (fun _ _ => ⟨_, rfl⟩) (fun _ => accessFault_wide) (fun _ => .of_eq ?_ ?_) ?_ ?_ ?_⟩
    · exact State.writeReg_regions _ _ _ _
    · exact State.writeReg_mem _ _ _ _
    · exact State.writeReg_host _ _ _ _
    · exact State.writeReg_run _ _ _ _
    · intro _ even keeps
      show ((s.advance 2).writeReg rx _).pc.toNat % 2 = 0
      rw [writeReg_pc_of_ne (keeps.ne_pc rfl)]
      exact even_advance even rfl
  | syscall =>
    by_cases number : s.r[0] = 0#32
    · exact ⟨_, _, .exit number⟩
    · exact ⟨_, _, .call number⟩

/-- Everything that an instruction which answers a next state has done. -/
theorem exec_next {i : Instr} {s t : State} (h : exec i s = .next t) :
    ∃ fault done, Meaning i s fault done ∧
      ((fault = none ∧ t = done) ∨ ∃ e, fault = some e ∧ t = s.withRun (.aborted e e.abortStatus)) := by
  obtain ⟨fault, done, meaning⟩ := exec_meaning i s
  refine ⟨fault, done, meaning, ?_⟩
  rw [meaning.exec_eq] at h
  rcases unlessFault_next h with done | ⟨e, raised, taken⟩
  · exact .inl done
  · exact .inr ⟨e, raised, takeException_next taken⟩

/-! What the claims about every step say of `exec`. -/

theorem keeps_exec {i : Instr} {s t : State} (h : exec i s = .next t) : Keeps s t := by
  obtain ⟨fault, done, meaning, ⟨none, rfl⟩ | ⟨e, -, rfl⟩⟩ := exec_next h
  · exact meaning.keeps none
  · exact .of_eq rfl rfl

theorem keeps_step {s t : State} (h : step s = .next t) : Keeps s t := by
  obtain ⟨-, ⟨i, -, executed⟩ | ⟨e, -, taken⟩⟩ := step_next h
  · exact keeps_exec executed
  · exact keeps_takeException taken

theorem openFds_exec {i : Instr} {s t : State} (h : exec i s = .next t) :
    ∀ d ∈ standardFds, d ∈ s.host.openFds → d ∈ t.host.openFds := by
  obtain ⟨fault, done, meaning, ⟨-, rfl⟩ | ⟨e, -, rfl⟩⟩ := exec_next h
  · exact meaning.openFds
  · exact fun _ _ h => h

/-- An instruction ends the run by an exception only if it raised it, and then precisely (R315). -/
theorem exec_aborted {i : Instr} {s t : State} {e : Exception} {status : Nat} (running : s.run = .running)
    (h : exec i s = .next t) (aborted : t.run = .aborted e status) :
    ∃ done, Meaning i s (some e) done ∧ t = s.withRun (.aborted e e.abortStatus) := by
  obtain ⟨fault, done, meaning, ⟨-, rfl⟩ | ⟨e', rfl, rfl⟩⟩ := exec_next h
  · rcases meaning.run with kept | ⟨-, -, exited⟩
    · rw [kept, running] at aborted
      cases aborted
    · rw [exited] at aborted
      cases aborted
  · obtain ⟨rfl, -⟩ : e' = e ∧ _ := by simpa using aborted
    exact ⟨done, meaning, rfl⟩

/-- Settles O11. -/
theorem stepKeepsInv : Obligations.StepKeepsInv := by
  rintro s t ⟨wf, standard⟩ h
  refine ⟨(keeps_step h).wf wf, fun d hd => ?_⟩
  obtain ⟨-, ⟨i, -, executed⟩ | ⟨e, -, taken⟩⟩ := step_next h
  · exact openFds_exec executed d hd (standard d hd)
  · obtain rfl := takeException_next taken
    exact standard d hd

/-- Settles O12: a step is a `Keeps`, and code is not writable. -/
theorem stepKeepsCode : Obligations.StepKeepsCode := by
  intro s t wf h
  have keeps := keeps_step h
  refine ⟨keeps.regions, keeps.bytes wf, fun a code => ?_⟩
  have fixed : s.writable a = false := by rw [State.writable, code, Bool.not_true, Bool.and_false]
  refine ⟨fixed, ?_, keeps.bytes wf a fixed⟩
  rw [State.inCode, keeps.regions]
  exact code

/-- Settles O13. -/
theorem pcStaysEven : Obligations.PcStaysEven := by
  intro i s t inv wellFormed even h dest call rets
  obtain ⟨fault, done, meaning, ⟨-, rfl⟩ | ⟨e, -, rfl⟩⟩ := exec_next h
  · exact meaning.even inv.1 wellFormed even ⟨dest, call, rets⟩
  · exact even

/-- Settles O14: the exception is of the fetch or of the instruction, and taking it changes the run alone. -/
theorem exceptionsArePrecise : Obligations.ExceptionsArePrecise := by
  intro s t e status running h aborted
  have taken : t = s.withRun (.aborted e e.abortStatus) := by
    obtain ⟨-, ⟨i, -, executed⟩ | ⟨e', -, taken⟩⟩ := step_next h
    · exact (exec_aborted running executed aborted).choose_spec.2
    · obtain rfl := takeException_next taken
      obtain ⟨rfl, -⟩ : e' = e ∧ _ := by simpa using aborted
      rfl
  subst taken
  obtain rfl : e.abortStatus = status := by simpa using aborted
  exact ⟨rfl, rfl⟩

/-- Settles O15: `MayRaise` is the list. -/
theorem exceptionsByInstruction : Obligations.ExceptionsByInstruction := by
  intro i s t e status running h aborted
  obtain ⟨done, meaning, -⟩ := exec_aborted running h aborted
  have may := meaning.raises e rfl
  cases i <;> exact may

/-- Settles O16. -/
theorem execAnswersNext : Obligations.ExecAnswersNext := by
  intro i s
  obtain ⟨fault, done, meaning⟩ := exec_meaning i s
  rw [meaning.exec_eq]
  cases fault with
  | none => exact ⟨_, rfl⟩
  | some e => exact ⟨_, rfl⟩

/-- Settles O17. -/
theorem exitOnlyBySyscall : Obligations.ExitOnlyBySyscall := by
  intro s t status running h exited
  obtain ⟨-, ⟨i, fetched, executed⟩ | ⟨e, -, taken⟩⟩ := step_next h
  · obtain ⟨fault, done, meaning, ⟨-, rfl⟩ | ⟨e, -, rfl⟩⟩ := exec_next executed
    · rcases meaning.run with kept | ⟨rfl, number, exits⟩
      · rw [kept, running] at exited
        cases exited
      · rw [exits] at exited
        exact ⟨fetched, number, (RunStatus.exited.inj exited).symm⟩
    · cases exited
  · obtain rfl := takeException_next taken
    cases exited

/-- Settles O18. -/
theorem hostStateOnlyBySyscall : Obligations.HostStateOnlyBySyscall := by
  intro i s t inv h
  have standard : ∀ d ∈ [0, 1, 2], d ∈ t.host.openFds := fun d hd => openFds_exec h d hd (inv.2 d hd)
  obtain ⟨fault, done, meaning, ⟨-, rfl⟩ | ⟨e, -, rfl⟩⟩ := exec_next h
  · exact ⟨meaning.host, meaning.vectors, standard⟩
  · exact ⟨fun _ => rfl, rfl, standard⟩

/-! Exceptions where HANDLERS is modelled (R312). -/

section
variable {successor : BitVec 5 → State → State} {zero : Config.FdivZero} {s : State} {e : Exception}

theorem takeException_installed {v : BitVec 5} (vector : e.vector zero = some v)
    (installed : (s.host.vectors.lookup v).isSome = true) :
    takeException e s (handling successor zero) = .next (successor v s) :=
  takeException_handled rfl (handlerVector_eq_some.2 ⟨vector, installed⟩)

theorem takeException_not_installed {p : Parameters}
    (free : ∀ v, e.vector p.fdivZeroVector = some v → (s.host.vectors.lookup v).isSome = false) :
    takeException e s p = .next { s with run := .aborted e (e.abortStatus p.fdivZeroVector) } := by
  refine takeException_unhandled (Option.eq_none_iff_forall_ne_some.2 fun v goes => ?_)
  obtain ⟨vector, installed⟩ := handlerVector_eq_some.1 goes
  exact Bool.false_ne_true ((free v vector).symm.trans installed)

end

/-- Settles O20: an exception with a vector goes to its handler or ends the run; and a step that ended in an abort raised
the exception by its fetch or its instruction's check, both the same where HANDLERS is modelled. -/
theorem handlerEntry : Obligations.HandlerEntry := by
  intro successor zero s
  dsimp only
  have goes {e : Exception} {v : BitVec 5} (vector : e.vector zero = some v) :
      ((s.host.vectors.lookup v).isSome = true →
          takeException e s (handling successor zero) = .next (successor v s)) ∧
        ((s.host.vectors.lookup v).isSome = false →
          takeException e s (handling successor zero) = .next { s with run := .aborted e (e.abortStatus zero) }) := by
    refine ⟨takeException_installed vector, fun free => takeException_not_installed fun w hw => ?_⟩
    obtain rfl : v = w := Option.some.inj (vector.symm.trans hw)
    exact free
  refine ⟨fun _ => goes rfl, fun _ => goes rfl, fun _ => goes rfl, fun v vector => goes vector, fun none => ?_, ?_⟩
  · exact takeException_not_installed fun v vector => nomatch none.symm.trans vector
  · intro t e status running h aborted
    obtain ⟨-, ⟨i, fetched, executed⟩ | ⟨e', raised, taken⟩⟩ := step_next h
    · obtain ⟨done, meaning, -⟩ := exec_aborted running executed aborted
      obtain ⟨u, under⟩ := meaning.under successor zero
      show stepUnder (handling successor zero) s = _
      rw [stepUnder, running]
      show (match s.fetch with | .error e => _ | .ok i => execUnder (handling successor zero) i s) = _
      rw [fetched]
      exact under
    · obtain rfl := takeException_next taken
      obtain ⟨rfl, -⟩ : e' = e ∧ _ := by simpa using aborted
      show stepUnder (handling successor zero) s = _
      rw [stepUnder, running]
      show (match s.fetch with | .error e => takeException e s (handling successor zero) | .ok i => _) = _
      rw [raised]

/-- Settles O19. -/
theorem unhandledExceptionAborts : Obligations.UnhandledExceptionAborts := by
  intro zero s
  dsimp only
  refine ⟨⟨fun _ => rfl, fun _ => rfl, fun _ => rfl, rfl⟩, fun successor none => ?_, fun _ => rfl⟩
  have ends (e : Exception) : takeException e s (handling successor zero) =
      .next { s with run := .aborted e (e.abortStatus zero) } :=
    takeException_not_installed fun v _ => by rw [show s.host.vectors = [] from none]; rfl
  exact ⟨fun _ => ends _, fun _ => ends _, fun _ => ends _, ends _⟩

end Sys2Proof.Machine

/-! Register operands (R27 to R31), and the instructions that work on them alone: branches, integer arithmetic, logic,
shifts, moves and immediate loads. Each instruction is its family's shared operation with its own function and flag line;
what the function and the flag line are in plain arithmetic is said once, and from it follow O22 to O39, O51 and O52. -/

namespace Sys2Proof.Machine

/-! Operands. -/

theorem packCcr_eq (fl : Flags) :
    packCcr fl = BitVec.ofNat 32 (fl.c.toNat + 2 * fl.ov.toNat + 4 * fl.n.toNat + 8 * fl.z.toNat) := by
  obtain ⟨c, ov, n, z⟩ := fl
  revert c ov n z
  decide

section
variable (s : State) (len : Nat) (reg : IReg)

/-- A register operand, behind the step over the instruction (R31 a). -/
theorem readReg_advance : (s.advance len).readReg reg = operandOf s len reg := by
  cases reg with
  | ccr => exact packCcr_eq s.flags
  | r | sp | fp | pc => rfl

/-- A register result, behind the step over the instruction (R31 b). -/
theorem writeReg_advance (v : Word) : (s.advance len).writeReg reg v = withResult s len reg v := by
  cases reg <;> rfl

theorem ea_advance (disp : Int) : (s.advance len).ea reg disp = operandOf s len reg + BitVec.ofInt 32 disp := by
  rw [State.ea, readReg_advance]

end

/-- Settles O22. -/
theorem registerOperands : Obligations.RegisterOperands := fun s len reg v disp =>
  ⟨readReg_advance s len reg, writeReg_advance s len reg v, ea_advance s len reg disp⟩

/-! Branches. -/

/-- A branch in the words of claims (R120). -/
theorem branch_eq_branched {len : Nat} {cond : Flags → Bool} {disp : Int} {s : State} {taken : Prop} [Decidable taken]
    (h : cond s.flags = true ↔ taken) : branch len cond disp s = branched s len disp taken := by
  rw [branch_eq, branched]
  by_cases ht : taken
  · simp [ht, h.2 ht, State.withPc]
  · simp [ht, mt h.1 ht, State.withPc]

theorem exec_branch {i : Instr} {len : Nat} {cond : Flags → Bool} {disp : Int} {s : State} {taken : Prop}
    [Decidable taken] (exec_eq : exec i s = .next (branch len cond disp s)) (h : cond s.flags = true ↔ taken) :
    exec i s = .next (branched s len disp taken) := by
  rw [exec_eq, branch_eq_branched h]

section
variable (fl : Flags)

/-! The printed conditions of the signed branches (R124) and those of the others (R123, R132 to R135). -/

theorem condEq_iff : condEq fl = true ↔ fl.z = true := Iff.rfl
theorem condNe_iff : condNe fl = true ↔ fl.z = false := by simp [condNe]
theorem condGe_iff : condGe fl = true ↔ fl.n = fl.ov :=
  (by decide : ∀ n ov : Bool, ((n && ov) || (!n && !ov)) = true ↔ n = ov) fl.n fl.ov
theorem condGt_iff : condGt fl = true ↔ fl.n = fl.ov ∧ fl.z = false :=
  (by decide : ∀ n ov z : Bool, ((n && ov && !z) || (!n && !ov && !z)) = true ↔ n = ov ∧ z = false) fl.n fl.ov fl.z
theorem condLe_iff : condLe fl = true ↔ fl.z = true ∨ fl.n ≠ fl.ov :=
  (by decide : ∀ n ov z : Bool, (z || (n && !ov) || (!n && ov)) = true ↔ z = true ∨ n ≠ ov) fl.n fl.ov fl.z
theorem condLt_iff : condLt fl = true ↔ fl.n ≠ fl.ov :=
  (by decide : ∀ n ov : Bool, ((n && !ov) || (!n && ov)) = true ↔ n ≠ ov) fl.n fl.ov
theorem condCc_iff : condCc fl = true ↔ fl.c = false := by simp [condCc]
theorem condVc_iff : condVc fl = true ↔ fl.ov = false := by simp [condVc]
theorem condBelowSame_iff : condBelowSame Params.unsignedCond fl = true ↔ fl.c = true ∨ fl.z = true :=
  Bool.or_eq_true_iff
theorem condAboveSame_iff : condAboveSame Params.unsignedCond fl = true ↔ fl.c = false := by
  simp [condAboveSame, Params.unsignedCond]
theorem condAbove_iff : condAbove Params.unsignedCond fl = true ↔ fl.c = false ∧ fl.z = false := by
  simp [condAbove, Params.unsignedCond]

end

/-- Settles O23: each branch is the mechanism of R120 under its own condition. -/
theorem shortBranches : Obligations.ShortBranches := fun _ _ =>
  ⟨exec_branch rfl (condEq_iff _), exec_branch rfl (condGe_iff _), exec_branch rfl (condGt_iff _),
    exec_branch rfl (condLe_iff _), exec_branch rfl (condLt_iff _), exec_branch rfl (condNe_iff _),
    exec_branch (cond := fun _ => true) rfl (iff_of_true rfl trivial), exec_branch rfl (condCc_iff _),
    exec_branch (cond := condCs) rfl Iff.rfl, exec_branch rfl (condVc_iff _), exec_branch (cond := condVs) rfl Iff.rfl,
    exec_branch rfl (condBelowSame_iff _), exec_branch rfl (condAboveSame_iff _), exec_branch rfl (condAbove_iff _),
    exec_branch (cond := condBelow Params.unsignedCond) rfl Iff.rfl⟩

/-- Settles O24. -/
theorem longBranches : Obligations.LongBranches := fun _ _ =>
  ⟨exec_branch rfl (condEq_iff _), exec_branch rfl (condGe_iff _), exec_branch rfl (condGt_iff _),
    exec_branch rfl (condLe_iff _), exec_branch rfl (condLt_iff _), exec_branch rfl (condNe_iff _),
    exec_branch (cond := fun _ => true) rfl (iff_of_true rfl trivial), exec_branch rfl (condBelowSame_iff _),
    exec_branch rfl (condAboveSame_iff _), exec_branch rfl (condAbove_iff _),
    exec_branch (cond := condBelow Params.unsignedCond) rfl Iff.rfl⟩

/-! Register operations. -/

/-- What an instruction with a source and a destination register leaves: the result in the destination, then the flag
line (R31 c, R32). -/
theorem exec_registerOp {i : Instr} {rx ry : IReg} {op : Word → Word → Word}
    {line : Word → Word → Word → Flags → Flags} {s : State} {r : Word} {fl : Flags}
    (exec_eq : exec i s = .next (registerOp rx ry op line s)) (value : op (operandOf s 2 rx) (operandOf s 2 ry) = r)
    (flags : line (operandOf s 2 rx) (operandOf s 2 ry) r (withResult s 2 ry r).flags = fl) :
    exec i s = .next { withResult s 2 ry r with flags := fl } := by
  subst value flags
  rw [exec_eq, registerOp, readReg_advance, readReg_advance, writeReg_advance]
  rfl

/-! Sums and differences as words, and their carries and overflows (R161). -/

section
variable (a b : Word) (c : Bool)

theorem sumWord_false : sumWord false a b = a + b := by rw [sumWord_eq]; simp

theorem diffWord_eq : diffWord c a b = b - a - BitVec.ofNat 32 c.toNat := by
  simp [diffWord, diffU, Int.sub_eq_add_neg, BitVec.ofInt_add, BitVec.ofInt_neg, BitVec.sub_eq_add_neg]

theorem diffWord_false : diffWord false a b = b - a := by rw [diffWord_eq]; simp

theorem borrowOf_eq : borrowOf a b c = decide (b.toNat < a.toNat + c.toNat) := by
  rw [borrowOf, diffU, decide_eq_decide]
  omega

theorem not_fitsSigned (t : Int) : (!fitsSigned t) = decide (t < -2147483648 ∨ 2147483647 < t) := by
  rw [fitsSigned, ← Bool.decide_and, ← decide_not, decide_eq_decide]
  omega

/-- Without a carry in, signed overflow shows in the signs (R161). -/
theorem overflowOf_false : overflowOf a b false = decide (a.msb = b.msb ∧ (a + b).msb ≠ a.msb) := by
  have ha := a.isLt
  have hb := b.isLt
  rw [overflowOf, not_fitsSigned, decide_eq_decide, sumS]
  simp only [BitVec.msb_eq_decide, BitVec.toInt_eq_toNat_cond, BitVec.toNat_add, Bool.toNat_false,
    decide_eq_decide, ne_eq]
  omega

end

/-- Settles O27. -/
theorem addResult : Obligations.AddResult := fun _ _ _ =>
  exec_registerOp rfl (sumWord_false _ _) (by rw [addFlags, overflowOf_false]; rfl)

/-- Settles O28. -/
theorem addcResult : Obligations.AddcResult := fun _ _ s =>
  exec_registerOp rfl (sumWord_eq s.flags.c _ _) (congrArg (Flags.mk _ · _ _) (not_fitsSigned _))

/-- Settles O29. -/
theorem subResult : Obligations.SubResult := fun _ _ _ =>
  exec_registerOp rfl (diffWord_false _ _) (congrArg (Flags.mk · _ _ _) (borrowOf_eq _ _ false))

/-- Settles O30. -/
theorem subbResult : Obligations.SubbResult := fun _ _ s =>
  exec_registerOp rfl (diffWord_eq _ _ s.flags.c) (congrArg (Flags.mk · _ _ _) (borrowOf_eq _ _ s.flags.c))

/-- Settles O32. -/
theorem negResult : Obligations.NegResult := fun _ _ _ =>
  exec_registerOp rfl ((diffWord_false _ _).trans (BitVec.zero_sub _)) rfl

/-- Settles O31. -/
theorem cmpResult : Obligations.CmpResult := by
  intro rx ry s
  dsimp only
  show Host.Outcome.next (State.mapFlags (s.advance 2) _) = _
  rw [readReg_advance, readReg_advance, diffWord_false]
  have equal {a b : Word} : b - a = 0#32 ↔ a = b := sub_eq_zero.trans eq_comm
  simp only [State.mapFlags, cmpFlags, signZero, borrowOf_eq, equal]
  rfl

/-- Settles O33: the low half of either product is the product of the words. -/
theorem multiplyResults : Obligations.MultiplyResults := by
  intro rx ry s
  refine ⟨exec_registerOp rfl ?_ ?_, exec_registerOp rfl ?_ ?_⟩
  · rw [productS, BitVec.ofInt_mul, BitVec.ofInt_toInt, BitVec.ofInt_toInt]
  · exact congrArg (Flags.mk _ · _ _) (not_fitsSigned _)
  · rw [productU, BitVec.ofNat_mul, BitVec.ofNat_toNat, BitVec.ofNat_toNat, BitVec.setWidth_eq, BitVec.setWidth_eq]
  · refine congrArg (Flags.mk _ · _ _) ?_
    rw [← decide_not, decide_eq_decide, Nat.not_lt]
    rfl

/-! Division (R167 to R169, R173). -/

section
variable {i : Instr} {rx ry : IReg} {op : Word → Word → Word} {s : State}

theorem exec_divideOp (exec_eq : exec i s = .next (divideOp rx ry op s)) (divisor : operandOf s 2 rx ≠ 0#32) {r : Word}
    (value : op (operandOf s 2 rx) (operandOf s 2 ry) = r) :
    exec i s = .next { withResult s 2 ry r with
      flags := { c := (withResult s 2 ry r).flags.c, ov := false, n := r.msb, z := decide (r = 0#32) } } := by
  refine exec_registerOp (line := fun _ _ r => divideFlags r) (exec_eq.trans ?_) value rfl
  rw [divideOp_eq, if_neg (by rwa [readReg_advance])]

/-- A divisor of 0 (R173): the two free bits are N and Z. -/
theorem exec_divideOp_zero (exec_eq : exec i s = .next (divideOp rx ry op s)) (divisor : operandOf s 2 rx = 0#32) :
    exec i s = .next { s with
      pc := s.pc + 2#32
      flags := { c := s.flags.c, ov := true, n := Config.freeBit s.draws 0, z := Config.freeBit s.draws 1 }
      draws := s.draws + 1 } := by
  rw [exec_eq, divideOp_eq, if_pos (by rwa [readReg_advance])]
  rfl

end

/-- A signed quotient that truncates (R167). -/
theorem ofInt_tdiv (a b : Word) : BitVec.ofInt 32 (b.toInt.tdiv a.toInt) = b.sdiv a := by
  apply BitVec.eq_of_toInt_eq
  rw [BitVec.toInt_ofInt, BitVec.toInt_sdiv]

/-- A remainder with the sign of the dividend (R169). -/
theorem ofInt_remainder (a b : Word) : BitVec.ofInt 32 (b.toInt - a.toInt * b.toInt.tdiv a.toInt) = b.srem a := by
  rw [← Int.tmod_def, ← BitVec.toInt_srem, BitVec.ofInt_toInt]

/-- Settles O34. -/
theorem divisionResults : Obligations.DivisionResults := by
  intro rx ry s
  dsimp only
  intro divisor
  refine ⟨exec_divideOp rfl divisor (ofInt_tdiv _ _), exec_divideOp rfl divisor ?_,
    exec_divideOp rfl divisor (ofInt_remainder _ _)⟩
  apply BitVec.eq_of_toNat_eq
  rw [BitVec.toNat_ofNat, BitVec.toNat_udiv]
  exact Nat.mod_eq_of_lt (lt_of_le_of_lt (Nat.div_le_self _ _) (BitVec.isLt _))

/-- Settles O35. -/
theorem divisionByZero : Obligations.DivisionByZero := fun _ _ _ divisor =>
  ⟨_, _, exec_divideOp_zero rfl divisor, exec_divideOp_zero rfl divisor, exec_divideOp_zero rfl divisor⟩

/-! Logic, shifts and moves (R190 to R199). -/

/-- Settles O37. -/
theorem logicResults : Obligations.LogicResults := by
  intro rx ry s
  have flags (r : Word) (fl : Flags) :
      logicFlags r fl = { c := fl.c, ov := false, n := r.getLsbD 31, z := decide (r = 0#32) } :=
    congrArg (Flags.mk _ _ · _) (BitVec.msb_eq_getLsbD_last r)
  exact ⟨exec_registerOp rfl rfl (flags _ _), exec_registerOp rfl rfl (flags _ _), exec_registerOp rfl rfl (flags _ _),
    exec_registerOp rfl rfl (flags _ _)⟩

/-- ASR is the floor of the division by a power of two (R192). -/
theorem sshiftRight_eq_ofInt (b : Word) (k : Nat) : b.sshiftRight k = BitVec.ofInt 32 (b.toInt / 2 ^ k) := by
  rw [← BitVec.ofInt_toInt (x := b.sshiftRight k), BitVec.toInt_sshiftRight, Int.shiftRight_eq_div_pow]
  norm_cast

/-- LSL is the product with a power of two (R193). -/
theorem shiftLeft_eq_ofNat (b : Word) (k : Nat) : b <<< k = BitVec.ofNat 32 (b.toNat * 2 ^ k) := by
  apply BitVec.eq_of_toNat_eq
  rw [BitVec.toNat_shiftLeft, BitVec.toNat_ofNat, Nat.shiftLeft_eq]

/-- LSR is the unsigned division by a power of two (R194). -/
theorem ushiftRight_eq_ofNat (b : Word) (k : Nat) : b >>> k = BitVec.ofNat 32 (b.toNat / 2 ^ k) := by
  apply BitVec.eq_of_toNat_eq
  rw [BitVec.toNat_ushiftRight, BitVec.toNat_ofNat, Nat.shiftRight_eq_div_pow]
  exact (Nat.mod_eq_of_lt (lt_of_le_of_lt (Nat.div_le_self _ _) b.isLt)).symm

/-- Settles O38. -/
theorem shiftResults : Obligations.ShiftResults := by
  intro rx ry s
  have flags (c n : Bool) (r : Word) (fl : Flags) :
      shiftFlags c n r fl = { c := c, ov := decide (n ≠ c), n := n, z := decide (r = 0#32) } :=
    congrArg (Flags.mk _ · _ _) (by cases n <;> cases c <;> rfl)
  have sign : (operandOf s 2 ry).getLsbD 31 = (operandOf s 2 ry).msb := (BitVec.msb_eq_getLsbD_last _).symm
  dsimp only
  rw [sign]
  exact ⟨exec_registerOp rfl (sshiftRight_eq_ofInt _ _) (flags _ _ _ _),
    exec_registerOp rfl (shiftLeft_eq_ofNat _ _) (flags _ _ _ _),
    exec_registerOp rfl (ushiftRight_eq_ofNat _ _) (flags _ _ _ _)⟩

/-- Settles O39. -/
theorem moveResult : Obligations.MoveResult := fun _ _ _ => exec_registerOp rfl rfl rfl

/-! Comparison and branch (R123, R124, R164). -/

/-- Settles O26: CMP sets C for an unsigned `Ry` below `Rx` and Z for equal operands. -/
theorem compareThenUnsignedBranch : Obligations.CompareThenUnsignedBranch := by
  intro rx ry d s
  dsimp only
  generalize ha : operandOf s 2 rx = a
  generalize hb : operandOf s 2 ry = b
  have compared := cmpResult rx ry s
  dsimp only at compared
  rw [ha, hb] at compared
  have equal : a = b ↔ a.toNat = b.toNat := BitVec.toNat_inj.symm
  have belowSame : (decide (b.toNat < a.toNat) = true ∨ decide (a = b) = true) ↔ b.toNat ≤ a.toNat := by
    rw [decide_eq_true_iff, decide_eq_true_iff, equal]
    omega
  have aboveSame : decide (b.toNat < a.toNat) = false ↔ a.toNat ≤ b.toNat := by
    rw [decide_eq_false_iff_not, Nat.not_lt]
  have above : (decide (b.toNat < a.toNat) = false ∧ decide (a = b) = false) ↔ a.toNat < b.toNat := by
    rw [decide_eq_false_iff_not, decide_eq_false_iff_not, equal]
    omega
  have below : decide (b.toNat < a.toNat) = true ↔ b.toNat < a.toNat := decide_eq_true_iff
  exact ⟨_, compared, exec_branch rfl ((condBelowSame_iff _).trans belowSame),
    exec_branch rfl ((condAboveSame_iff _).trans aboveSame), exec_branch rfl ((condAbove_iff _).trans above),
    exec_branch (cond := condBelow Params.unsignedCond) rfl below,
    exec_branch rfl ((condBelowSame_iff _).trans belowSame), exec_branch rfl ((condAboveSame_iff _).trans aboveSame), exec_branch rfl ((condAbove_iff _).trans above),
    exec_branch (cond := condBelow Params.unsignedCond) rfl below⟩

/-- A conditional branch acts as the unconditional one, by its displacement or by 0. -/
theorem exec_branch_as_always {i j : Instr} {len : Nat} {cond : Flags → Bool} {disp : Int} {s : State} {taken : Bool}
    (exec_eq : exec i s = .next (branch len cond disp s)) (condition : cond s.flags = taken)
    (always : exec j s = .next (branch len (fun _ => true) (if taken then disp else 0) s)) : exec i s = exec j s := by
  rw [exec_eq, always, branch_eq, branch_eq, condition]
  cases taken <;> rfl

/-- The sign of a difference is the signed order, turned by an overflow (R124). -/
theorem msb_sub_eq (a b : Word) :
    (b - a).msb = (decide (b.toInt < a.toInt) ^^
      !(decide (-2147483648 ≤ b.toInt - a.toInt) && decide (b.toInt - a.toInt ≤ 2147483647))) := by
  have a_low := BitVec.le_two_mul_toInt (x := a)
  have a_high := BitVec.two_mul_toInt_lt (x := a)
  have b_low := BitVec.le_two_mul_toInt (x := b)
  have b_high := BitVec.two_mul_toInt_lt (x := b)
  have order : decide (b.toInt < a.toInt) = decide (b.toInt - a.toInt < 0) := decide_eq_decide.2 (by omega)
  rw [BitVec.msb_eq_toInt, BitVec.toInt_sub, Int.bmod_def, order]
  generalize hx : b.toInt - a.toInt = x
  by_cases low : -2147483648 ≤ x
  · by_cases high : x ≤ 2147483647
    · simp only [low, high, decide_true, Bool.and_self, Bool.not_true, Bool.xor_false, decide_eq_decide]
      omega
    · simp only [low, high, decide_true, decide_false, Bool.and_false, Bool.not_false, Bool.xor_true]
      rw [← decide_not, decide_eq_decide]
      omega
  · simp only [low, decide_false, Bool.false_and, Bool.not_false, Bool.xor_true]
    rw [← decide_not, decide_eq_decide]
    omega

/-- The four signed tests after a comparison, where `below` says that `Ry` is below `Rx`, and `overflow` what OV should
hold (R124). -/
theorem signed_tests : ∀ c ov overflow below equal : Bool, (equal = true → below = false) →
    let fl : Flags := { c := c, ov := ov, n := below ^^ overflow, z := equal }
    (ov = overflow ↔ (condGe fl = true ↔ below = false)) ∧ (ov = overflow ↔ (condLt fl = true ↔ below = true)) ∧
    (ov = overflow ∨ equal = true ↔ (condGt fl = true ↔ below = false ∧ equal = false)) ∧
    (ov = overflow ∨ equal = true ↔ (condLe fl = true ↔ below = true ∨ equal = true)) := by decide

theorem withResult_flags_of_ne {reg : IReg} (h : reg ≠ .ccr) (s : State) (len : Nat) (v : Word) :
    (withResult s len reg v).flags = s.flags := by
  cases reg with
  | ccr => exact absurd rfl h
  | r | sp | fp | pc => rfl

/-- Settles O25. -/
theorem signedConditions : Obligations.SignedConditions := by
  constructor
  · intro d s
    exact ⟨exec_branch_as_always rfl rfl rfl, exec_branch_as_always rfl rfl rfl, exec_branch_as_always rfl rfl rfl,
      exec_branch_as_always rfl rfl rfl, exec_branch_as_always rfl rfl rfl, exec_branch_as_always rfl rfl rfl,
      exec_branch_as_always rfl rfl rfl, exec_branch_as_always rfl rfl rfl, exec_branch_as_always rfl rfl rfl,
      exec_branch_as_always rfl rfl rfl, exec_branch_as_always rfl rfl rfl, exec_branch_as_always rfl rfl rfl⟩
  · intro rx ry s
    dsimp only
    generalize ha : operandOf s 2 rx = a
    generalize hb : operandOf s 2 ry = b
    have compared := cmpResult rx ry s
    dsimp only at compared
    rw [ha, hb] at compared
    refine ⟨_, compared, rfl, fun ne_ccr => ⟨_, subResult rx ry s, ?_⟩, ?_⟩
    · exact (congrArg Flags.ov (withResult_flags_of_ne ne_ccr s 2 _) :)
    · have same : a = b ↔ a.toInt = b.toInt := BitVec.toInt_inj.symm
      have equal : decide (a = b) = true ↔ a = b := decide_eq_true_iff
      have below : decide (b.toInt < a.toInt) = true ↔ b.toInt < a.toInt := decide_eq_true_iff
      have notBelow : decide (b.toInt < a.toInt) = false ↔ a.toInt ≤ b.toInt := by
        rw [decide_eq_false_iff_not, not_lt]
      have above : (decide (b.toInt < a.toInt) = false ∧ decide (a = b) = false) ↔ a.toInt < b.toInt := by
        rw [decide_eq_false_iff_not, decide_eq_false_iff_not, same]
        omega
      have notAbove : (decide (b.toInt < a.toInt) = true ∨ decide (a = b) = true) ↔ b.toInt ≤ a.toInt := by
        rw [decide_eq_true_iff, decide_eq_true_iff, same]
        omega
      obtain ⟨ge, lt, gt, le⟩ := signed_tests (decide (b.toNat < a.toNat)) s.flags.ov
        (!(decide (-2147483648 ≤ b.toInt - a.toInt) && decide (b.toInt - a.toInt ≤ 2147483647)))
        (decide (b.toInt < a.toInt)) (decide (a = b)) (by rw [equal, notBelow, same]; exact le_of_eq)
      rw [← msb_sub_eq] at ge lt gt le
      exact ⟨ge.trans (iff_congr Iff.rfl notBelow), lt.trans (iff_congr Iff.rfl below),
        (or_congr_right equal).symm.trans (gt.trans (iff_congr Iff.rfl above)),
        (or_congr_right equal).symm.trans (le.trans (iff_congr Iff.rfl notAbove))⟩

/-! Immediate loads (R262 to R264, R270, R271). -/

/-- Settles O51. -/
theorem immediateLoads : Obligations.ImmediateLoads := by
  intro imm5 imm16 ry s
  refine ⟨?_, ?_, ?_, rfl⟩
  · exact congrArg Host.Outcome.next (writeReg_advance s 2 ry (imm5.signExtend 32))
  · rw [← half_setWidth]
    exact congrArg Host.Outcome.next (writeReg_advance s 4 ry (imm16.setWidth 32))
  · show Host.Outcome.next ((s.advance 4).writeReg ry ((s.advance 4).readReg ry ||| _)) = _
    rw [readReg_advance, writeReg_advance]

/-- Two results in a row in one register that is not the PC: the second stands. -/
theorem withResult_withResult {reg : IReg} (ne_pc : reg ≠ .pc) (s : State) (m n : Nat) (v w : Word) :
    withResult (withResult s m reg v) n reg w = withResult s (m + n) reg w := by
  have pc : s.pc + BitVec.ofNat 32 m + BitVec.ofNat 32 n = s.pc + BitVec.ofNat 32 (m + n) := by
    rw [BitVec.add_assoc, BitVec.ofNat_add]
  cases reg with
  | pc => exact absurd rfl ne_pc
  | r k => simp only [withResult, pc, Vector.set_set]
  | sp | fp | ccr => simp only [withResult, pc]

/-- The low half loaded, the high half or-ed in (R263, R264, R270). -/
theorem low_or_high (imm : Word) :
    (0#16 ++ imm.extractLsb' 0 16 : Word) ||| (imm.extractLsb' 16 16 ++ 0#16) = imm := by
  rw [BitVec.or_append, BitVec.zero_or, BitVec.or_zero]
  exact BitVec.extractLsb'_append_extractLsb' (w := 16) (len := 16)

/-- The CCR reads as its four flags in the low bits (R30). -/
theorem getLsbD_ccr (fl : Flags) :
    let w := BitVec.ofNat 32 (fl.c.toNat + 2 * fl.ov.toNat + 4 * fl.n.toNat + 8 * fl.z.toNat)
    w.getLsbD 0 = fl.c ∧ w.getLsbD 1 = fl.ov ∧ w.getLsbD 2 = fl.n ∧ w.getLsbD 3 = fl.z := by
  obtain ⟨c, ov, n, z⟩ := fl
  revert c ov n z
  decide

/-- A result in a general register, SP or FP is the operand of the next instruction. -/
theorem operandOf_withResult {reg : IReg} (ne_pc : reg ≠ .pc) (ne_ccr : reg ≠ .ccr) (s : State) (m n : Nat) (v : Word) :
    operandOf (withResult s m reg v) n reg = v := by
  cases reg with
  | pc => exact absurd rfl ne_pc
  | ccr => exact absurd rfl ne_ccr
  | r k => exact Vector.getElem_set_self _
  | sp | fp => rfl

/-- ORHI completes what LILO has loaded; in the CCR the upper half is discarded. -/
theorem withResult_low_or_high {reg : IReg} (ne_pc : reg ≠ .pc) (imm : Word) (s : State) (m n : Nat) :
    withResult s n reg (operandOf (withResult s m reg (0#16 ++ imm.extractLsb' 0 16)) m reg |||
      (imm.extractLsb' 16 16 ++ 0#16)) = withResult s n reg imm := by
  by_cases ccr : reg = .ccr
  · subst ccr
    have bit {k : Nat} {w : Word} (loaded : w.getLsbD k = (0#16 ++ imm.extractLsb' 0 16 : Word).getLsbD k) :
        (w ||| (imm.extractLsb' 16 16 ++ 0#16)).getLsbD k = imm.getLsbD k := by
      rw [BitVec.getLsbD_or, loaded, ← BitVec.getLsbD_or, low_or_high]
    obtain ⟨c, ov, n, z⟩ := getLsbD_ccr (withResult s m .ccr (0#16 ++ imm.extractLsb' 0 16)).flags
    rw [withResult, operandOf, bit c, bit ov, bit n, bit z, withResult]
  · rw [operandOf_withResult ne_pc ccr, low_or_high]

/-- Settles O52. -/
theorem loadConstantPair : Obligations.LoadConstantPair := by
  intro imm ry s ne_pc
  refine ⟨by rw [limm, BitVec.ofInt_toInt], _, _, _, rfl, rfl, rfl, (immediateLoads 0#5 _ ry s).2.1, ?_⟩
  rw [(immediateLoads 0#5 _ ry _).2.2.1, withResult_withResult ne_pc, withResult_low_or_high ne_pc]

end Sys2Proof.Machine

/-! Loads and stores (R240 to R250, R219 to R222): what an access does when its checks pass and when they do not, the
same word read back at every width, and from these O45, O46 and O48 to O50. -/

namespace Sys2Proof.Machine

section
variable {s t : State} {n : Nat} {a : Word}

/-- What a read does once its checks pass. -/
theorem unlessFault_readable (h : readable s n a) : unlessFault s (s.readFault n a) t = .next t := by
  rw [readFault_of_readable h, unlessFault_none]

/-- What a write does once its checks pass. -/
theorem unlessFault_storable (h : storable s n a) : unlessFault s (s.writeFault n a) t = .next t := by
  rw [writeFault_of_storable h, unlessFault_none]

/-- The two exceptions of an access, in their order (R320). -/
theorem exec_traps {i : Instr} {may : Word → Bool}
    (exec_eq : exec i s = unlessFault s (State.accessFault may n a) t) :
    (a.toNat % n ≠ 0 → exec i s = takeException (.illegalBusAccess a) s) ∧
      (a.toNat % n = 0 → (∃ k, k < n ∧ may (a + BitVec.ofNat 32 k) = false) →
        exec i s = takeException (.invalidMemoryAccess a) s) := by
  rw [exec_eq]
  refine ⟨fun misaligned => ?_, fun aligned ⟨k, low, refused⟩ => ?_⟩
  · rw [(State.accessFault_some may n a _).2 (.inl ⟨misaligned, rfl⟩), unlessFault_some]
  · have everyByte_false : everyByte may a n = false := by
      rw [← Bool.not_eq_true, everyByte_iff]
      exact fun all => Bool.false_ne_true (refused.symm.trans (all k low))
    rw [(State.accessFault_some may n a _).2 (.inr ⟨aligned, everyByte_false, rfl⟩), unlessFault_some]

end

/-- Settles O49. -/
theorem dataAccessTraps : Obligations.DataAccessTraps := fun _ _ _ _ _ =>
  ⟨exec_traps rfl, exec_traps rfl, exec_traps rfl, exec_traps rfl, exec_traps rfl, exec_traps rfl, exec_traps rfl,
    exec_traps rfl, exec_traps rfl, exec_traps rfl, exec_traps rfl, exec_traps rfl, exec_traps rfl⟩

/-- Settles O48. -/
theorem integerStores : Obligations.IntegerStores := by
  intro rx disp ry s wf
  dsimp only
  rw [← readReg_advance, ← BitVec.setWidth_eq_extractLsb' (by decide), ← BitVec.setWidth_eq_extractLsb' (by decide)]
  exact ⟨fun h => ⟨_, unlessFault_storable h, rfl, store8_effect wf rfl⟩,
    fun h => ⟨_, unlessFault_storable h, rfl, store16_effect wf rfl⟩,
    fun h => ⟨_, unlessFault_storable h, rfl, store32_effect wf rfl⟩⟩

/-- Settles O46. -/
theorem floatStores : Obligations.FloatStores := fun _ _ _ _ wf =>
  ⟨fun h => ⟨_, unlessFault_storable h, rfl, store64_effect wf rfl⟩,
    fun h => ⟨_, unlessFault_storable h, rfl, store32_effect wf rfl⟩⟩

/-- Settles O45. -/
theorem floatLoads : Obligations.FloatLoads := by
  intro disp rx fy s
  dsimp only
  refine ⟨fun h => (unlessFault_readable h).trans ?_, fun h => (unlessFault_readable h).trans ?_⟩
  · rw [← load64_eq]
    rfl
  · rw [← load32_eq]
    rfl

/-! A word in memory, read at the three widths (R51, R52). -/

section
variable {t : State} {a v : Word}

theorem wordAt_of_holdsWord (h : holdsWord t a v) : wordAt t a = v := by
  obtain ⟨b0, b1, b2, b3⟩ := h
  rw [wordAt, b0, b1, b2, b3, ← append_pairs, State.word_of_bytes]

theorem load16_of_holdsWord (h : holdsWord t a v) :
    t.load16 a = v.extractLsb' 16 16 ∧ t.load16 (a + 2#32) = v.extractLsb' 0 16 := by
  obtain ⟨b0, b1, b2, b3⟩ := h
  have next : a + 2#32 + 1#32 = a + 3#32 := by
    rw [BitVec.add_assoc]
    rfl
  constructor
  · rw [load16_eq, halfAt, b0, b1, BitVec.extractLsb'_append_extractLsb'_eq_extractLsb' (by decide)]
  · rw [load16_eq, halfAt, next, b2, b3, BitVec.extractLsb'_append_extractLsb'_eq_extractLsb' (by decide)]

end

/-- Settles O50: the loads as O47 has them, with the operand rules of O22; the reads after a store from the four bytes
that it leaves. -/
theorem mixedWidthView : Obligations.MixedWidthView := by
  constructor
  · intro disp rx ry s
    dsimp only
    refine ⟨fun readable_byte => ⟨?_, ?_⟩, fun readable_half => ⟨?_, ?_⟩, fun readable_word => ⟨?_, ?_⟩,
      exec_llsx_eq_llzx disp rx ry s⟩
    · rw [exec_lbzx, loadOp_of_readable readable_byte, writeReg_advance, load8_advance, byte_setWidth]
    · rw [exec_lbsx, loadOp_of_readable readable_byte, writeReg_advance, load8_advance, byte_signExtend]
    · rw [exec_lwzx, loadOp_of_readable readable_half, writeReg_advance, load16_advance, load16_eq, half_setWidth]
    · rw [exec_lwsx, loadOp_of_readable readable_half, writeReg_advance, load16_advance, load16_eq, half_signExtend]
    · rw [exec_llzx, loadOp_of_readable readable_word, writeReg_advance, load32_advance, load32_eq]
    · rw [exec_llsx_eq_llzx, exec_llzx, loadOp_of_readable readable_word, writeReg_advance, load32_advance, load32_eq]
  · intro v s disp rx ry wf ea operand writable
    obtain ⟨t, stored, -, holds, -⟩ := (integerStores rx disp ry s wf).2.2 writable
    rw [operand] at holds
    obtain ⟨upper, lower⟩ := load16_of_holdsWord holds
    obtain ⟨b0, b1, b2, b3⟩ := holds
    exact ⟨t, stored, (load32_eq t ea).trans (wordAt_of_holdsWord ⟨b0, b1, b2, b3⟩), upper, lower, b0, b1, b2, b3⟩

end Sys2Proof.Machine

/-! Floating point (R210 to R224): the special values of the default numerics, what the sign tests say of the number a
double denotes, and from these O40 to O44 and O60. -/

namespace Sys2Proof.Machine.Ieee

section
variable (nan : Double) {a b : Double}

theorem add_of_nan (h : value64 a = .nan ∨ value64 b = .nan) : add nan a b = nan := by
  rcases h with h | h
  · rw [add, h]
  · rw [add, h]
    cases value64 a <;> rfl

theorem sub_of_nan (h : value64 a = .nan ∨ value64 b = .nan) : sub nan a b = nan :=
  add_of_nan nan (h.imp_right fun hb => by rw [value64_flipSign, hb])

/-- An infinity less itself is a NaN (R224). -/
theorem sub_self_infinite {neg : Bool} (h : value64 a = .infinite neg) : sub nan a a = nan := by
  rw [sub, add, value64_flipSign, h]
  exact if_neg (Bool.self_ne_not neg)

/-- A finite number less itself is +0.0 (R218). -/
theorem sub_self_finite {neg : Bool} {m : Nat} {e : Int} (h : value64 a = .finite neg m e) : sub nan a a = 0#64 := by
  have cancel (k : Nat) : signed neg k + signed (!neg) k = 0 := by cases neg <;> simp [signed]
  rw [sub, add, value64_flipSign, h]
  dsimp only [addFinite]
  rw [cancel, if_pos rfl, Bool.and_not_self]
  rfl

variable (a b)

theorem addFinite_comm (na : Bool) (ma : Nat) (ea : Int) (nb : Bool) (mb : Nat) (eb : Int) :
    addFinite na ma ea nb mb eb = addFinite nb mb eb na ma ea := by
  rw [addFinite, addFinite, min_comm, add_comm, Bool.and_comm]

theorem add_operands_comm : add nan a b = add nan b a := by
  rw [add, add]
  cases value64 a with
  | nan => cases value64 b <;> rfl
  | infinite na =>
    cases value64 b with
    | nan | finite => rfl
    | infinite nb =>
      by_cases h : na = nb
      · simp only [h]
      · simp only [h, Ne.symm h, if_false]
  | finite na ma ea =>
    cases value64 b with
    | nan | infinite => rfl
    | finite nb mb eb => exact addFinite_comm na ma ea nb mb eb

theorem mul_operands_comm : mul nan a b = mul nan b a := by
  rw [mul, mul]
  cases value64 a <;> cases value64 b <;> simp only [Bool.xor_comm, Nat.mul_comm, Int.add_comm]

end

/-- The sign tests say of a finite double whether its number is below 0 or is 0 (R211). -/
theorem isNeg_isZero_of_finite {d : Double} (h : finiteDouble d) :
    isNeg d = decide (doubleValue d < 0) ∧ isZero d = decide (doubleValue d = 0) := by
  obtain ⟨neg, m, e, denotes, -, value⟩ := value64_finite h
  rw [isNeg, isZero, denotes, value]
  have scale : (0 : ℚ) < 2 ^ e := by positivity
  by_cases zero : m = 0
  · simp [zero]
  · have pos : (0 : ℚ) < m * 2 ^ e := mul_pos (by exact_mod_cast Nat.pos_of_ne_zero zero) scale
    cases neg <;> simp [signOf, zero, pos, pos.le, scale.ne']

theorem doubleValue_zero : finiteDouble 0#64 ∧ doubleValue 0#64 = 0 :=
  ⟨by rw [finiteDouble]; decide, by simp [doubleValue]⟩

section
variable (nan : Double) {a b d : Double}

/-- A rounded number that a double denotes is that number. -/
theorem exact_of_round64 {x : Double} {r : ℚ} (hd : finiteDouble d) (value : doubleValue d = r)
    (rounded : ∃ neg m e, x = round64 neg m e ∧ signOf neg * (m * 2 ^ e) = r) :
    finiteDouble x ∧ doubleValue x = doubleValue d := by
  obtain ⟨neg, m, e, rfl, h⟩ := rounded
  exact round64_exact hd (h.trans value.symm)

/-! Sum, difference and product, where a double denotes them. -/

theorem add_exact (ha : finiteDouble a) (hb : finiteDouble b) (hd : finiteDouble d)
    (hv : doubleValue d = doubleValue a + doubleValue b) :
    finiteDouble (add nan a b) ∧ doubleValue (add nan a b) = doubleValue d := by
  obtain ⟨neg, m, e, rounded, -, h⟩ := add_eq_round64 nan ha hb
  exact exact_of_round64 hd hv ⟨neg, m, e, rounded, h⟩

theorem sub_exact (ha : finiteDouble a) (hb : finiteDouble b) (hd : finiteDouble d)
    (hv : doubleValue d = doubleValue a - doubleValue b) :
    finiteDouble (sub nan a b) ∧ doubleValue (sub nan a b) = doubleValue d := by
  obtain ⟨neg, m, e, rounded, -, h⟩ := sub_eq_round64 nan ha hb
  exact exact_of_round64 hd hv ⟨neg, m, e, rounded, h⟩

theorem mul_exact (ha : finiteDouble a) (hb : finiteDouble b) (hd : finiteDouble d)
    (hv : doubleValue d = doubleValue a * doubleValue b) :
    finiteDouble (mul nan a b) ∧ doubleValue (mul nan a b) = doubleValue d :=
  exact_of_round64 hd hv (mul_eq_round64 nan ha hb)

/-- Widening keeps the number and the sign bit, that of a zero too (R220). -/
theorem widen_finite {w : Single} (h : finiteSingle w) :
    finiteDouble (widen nan w) ∧ doubleValue (widen nan w) = singleValue w ∧ (widen nan w).msb = w.msb := by
  obtain ⟨neg, k, q, denotes, sign, value⟩ := value32_finite h
  obtain ⟨j, r, widened, same⟩ := value64_widen nan denotes
  obtain ⟨finite, value'⟩ := doubleValue_of_finite widened
  obtain ⟨neg', _, _, widened', sign', -⟩ := value64_finite finite
  rw [widened] at widened'
  injection widened' with same_sign
  exact ⟨finite, by rw [value', value, same], by rw [← sign', ← same_sign, sign]⟩

theorem widen_infinite : widen nan 0x7F800000#32 = 0x7FF0000000000000#64 := by
  rw [widen, (by decide : value32 0x7F800000#32 = .infinite false)]
  exact (by decide : inf64 false = 0x7FF0000000000000#64)

theorem widen_negative_infinite : widen nan 0xFF800000#32 = 0xFFF0000000000000#64 := by
  rw [widen, (by decide : value32 0xFF800000#32 = .infinite true)]
  exact (by decide : inf64 true = 0xFFF0000000000000#64)

end

end Sys2Proof.Machine.Ieee

namespace Sys2Proof.Machine

open Ieee

theorem getF_set_self (f : Vector Double 16) (fy : FReg) (d : Double) : (f.set fy d)[fy] = d :=
  Vector.getElem_set_self _

/-- Settles O44. -/
theorem floatCommutes : Obligations.FloatCommutes := fun nan a b =>
  ⟨add_operands_comm nan a b, mul_operands_comm nan a b⟩

/-- FDIV by a number that is not a zero. -/
theorem exec_fdiv {fx : FReg} {s : State} (fy : FReg) (h : isZero s.f[fx] = false) :
    exec (.fdiv fx fy) s =
      .next (floatOp fx fy (fun a b => div s.nan64 b a) (fun _ _ => floatFlags numerics) s) := by
  show unlessFault s (if isZero s.f[fx] then _ else none) _ = _
  rw [h]
  rfl

/-- Settles O40. -/
theorem floatResults : Obligations.FloatResults := fun _ fy _ => ⟨rfl, rfl, rfl, rfl, rfl, rfl, exec_fdiv fy⟩

/-- Settles O41. -/
theorem floatDivisionByZero : Obligations.FloatDivisionByZero := by
  intro fx fy s zero
  have isZero_fx : isZero s.f[fx] = true := by
    rcases zero with h | h <;> rw [h] <;> decide
  show unlessFault s (if isZero s.f[fx] then _ else none) _ = _
  rw [isZero_fx]
  rfl

/-- Settles O42. -/
theorem floatSubtractSelf : Obligations.FloatSubtractSelf := by
  intro fx s
  refine ⟨_, (floatResults fx fx s).2.1, ?_⟩
  dsimp only
  rw [getF_set_self]
  have nan : value64 (quietNaN64 (Config.freeNaN64 s.draws)) = .nan := value64_quietNaN64 _
  have not_finite (h : isFinite s.f[fx] = false) : ¬isFinite s.f[fx] = true := Bool.eq_false_iff.1 h
  cases denotes : value64 s.f[fx] with
  | finite neg m e =>
    rw [if_pos (by rw [isFinite, denotes]), sub_self_finite _ denotes]
    exact ⟨rfl, rfl⟩
  | infinite neg =>
    rw [if_neg (not_finite (by rw [isFinite, denotes])), sub_self_infinite _ denotes, isNeg_of_nan nan,
      isZero_of_nan nan]
    exact ⟨nan, rfl⟩
  | nan =>
    rw [if_neg (not_finite (by rw [isFinite, denotes])), sub_of_nan _ (.inl denotes), isNeg_of_nan nan,
      isZero_of_nan nan]
    exact ⟨nan, rfl⟩

/-- Settles O43. -/
theorem floatCompareUnordered : Obligations.FloatCompareUnordered := by
  intro fx fy s unordered
  have nan : value64 (quietNaN64 (Config.freeNaN64 s.draws)) = .nan := value64_quietNaN64 _
  have difference :
      sub (quietNaN64 (Config.freeNaN64 s.draws)) s.f[fy] s.f[fx] = quietNaN64 (Config.freeNaN64 s.draws) := by
    rcases unordered with h | h | ⟨infinite, same⟩
    · exact sub_of_nan _ (.inr h)
    · exact sub_of_nan _ (.inl h)
    · rw [← same]
      cases denotes : value64 s.f[fx] with
      | finite =>
        rw [isInfinite, denotes] at infinite
        exact absurd infinite Bool.false_ne_true
      | infinite => exact sub_self_infinite _ denotes
      | nan => exact sub_of_nan _ (.inl denotes)
  refine ⟨_, (floatResults fx fy s).2.2.2.2.1, ?_, rfl⟩
  dsimp only
  rw [difference, isNeg_of_nan nan, isZero_of_nan nan]

/-- What a result that a double denotes leaves in a register and in the flags (R211). -/
theorem flags_of_exact {t : State} {fy : FReg} {x : Double} {r : ℚ} (written : t.f[fy] = x)
    (n : t.flags.n = isNeg x) (z : t.flags.z = isZero x) (exact_x : finiteDouble x ∧ doubleValue x = r) :
    finiteDouble t.f[fy] ∧ doubleValue t.f[fy] = r ∧ t.flags.n = decide (r < 0) ∧ t.flags.z = decide (r = 0) := by
  obtain ⟨finite, value⟩ := exact_x
  obtain ⟨neg, zero⟩ := isNeg_isZero_of_finite finite
  rw [written, n, z, neg, zero, value]
  exact ⟨finite, rfl, rfl, rfl⟩

/-- Settles O60. -/
theorem floatValues : Obligations.FloatValues := by
  refine ⟨?_, ?_, ?_⟩
  · intro fx fy s finite_x finite_y
    obtain ⟨below, equal⟩ := compare_finite (quietNaN64 (Config.freeNaN64 s.draws)) finite_x finite_y
    dsimp only
    rw [(floatResults fx fy s).2.2.2.2.1]
    dsimp only
    rw [below, equal]
  · intro fx fy s d finite_x finite_y finite_d
    obtain ⟨fadd, fsub, fmul, fneg, -, -, fdiv⟩ := floatResults fx fy s
    obtain ⟨finite_zero, value_zero⟩ := doubleValue_zero
    have divisor (nonzero : doubleValue s.f[fx] ≠ 0) : isZero s.f[fx] = false := by
      rw [(isNeg_isZero_of_finite finite_x).2, decide_eq_false nonzero]
    exact ⟨fun value => ⟨_, fadd, flags_of_exact (getF_set_self _ _ _) rfl rfl
        (add_exact _ finite_x finite_y finite_d (value.trans (add_comm _ _)))⟩,
      fun value => ⟨_, fsub, flags_of_exact (getF_set_self _ _ _) rfl rfl
        (sub_exact _ finite_y finite_x finite_d value)⟩,
      fun value => ⟨_, fmul, flags_of_exact (getF_set_self _ _ _) rfl rfl
        (mul_exact _ finite_x finite_y finite_d (value.trans (mul_comm _ _)))⟩,
      fun value => ⟨_, fneg, flags_of_exact (getF_set_self _ _ _) rfl rfl
        (sub_exact _ finite_zero finite_x finite_d (by rw [value, value_zero, zero_sub]))⟩,
      fun nonzero value => ⟨_, fdiv (divisor nonzero), flags_of_exact (getF_set_self _ _ _) rfl rfl
        (div_exact _ finite_y finite_x finite_d nonzero value)⟩⟩
  · intro disp rx fy s
    dsimp only
    intro readable_word not_nan
    refine ⟨_, (floatLoads disp rx fy s).2 readable_word, ?_⟩
    dsimp only
    rw [getF_set_self]
    refine ⟨widen_finite _, fun positive => by rw [positive, widen_infinite], fun negative => by
      rw [negative, widen_negative_infinite], fun fx disp' ry u wf same writable => ?_⟩
    obtain ⟨v, stored, -, holds, -⟩ := (floatStores fx disp' ry u wf).2 writable
    rw [same, narrow_widen _ _ (mt (value32_eq_nan_iff _).1 not_nan)] at holds
    exact ⟨v, stored, holds⟩

end Sys2Proof.Machine

/-! The stack (R58, R280 to R286): what a push leaves in the state and in its slot, what a pop finds there, and from these
O55 to O59 and, with the host's part of a system call (R260, R273 to R278), O53 and O54. -/

namespace Sys2Proof.Machine

/-- Settles O57. -/
theorem stackTraps : Obligations.StackTraps := fun _ =>
  ⟨fun _ => exec_traps rfl, fun _ => exec_traps rfl, fun _ => exec_traps rfl, exec_traps rfl, fun _ => exec_traps rfl,
    fun _ => exec_traps rfl⟩

/-- An operand read behind a push: SP is the decremented one (R286). -/
theorem readReg_pushed (s : State) (len : Nat) (v : Word) (rx : IReg) :
    ((s.advance len).push v).readReg rx = if rx = .sp then s.pushSp else operandOf s len rx := by
  rw [← readReg_advance]
  cases rx with
  | sp => rw [if_pos rfl]; rfl
  | r | fp | ccr | pc => rw [if_neg nofun]; rfl

/-- What PUSHL stores (R285): as `readReg_pushed`, whatever stands in the slot. -/
theorem readReg_decremented (s : State) (len : Nat) (rx : IReg) :
    ((s.advance len).withSp s.pushSp).readReg rx = if rx = .sp then s.pushSp else operandOf s len rx := by
  rw [← readReg_pushed s len 0#32 rx]
  cases rx <;> rfl

section
variable {s : State}

/-- What PUSHL leaves (R285). -/
theorem exec_pushl (rx : IReg) (wf : Memory.wf s.mem) (slot : storable s 4 s.pushSp) :
    ∃ t, exec (.pushl rx) s = .next t ∧ t = { s with pc := s.pc + 2#32, sp := s.pushSp, mem := t.mem } ∧
      holdsWord t s.pushSp (if rx = .sp then s.pushSp else operandOf s 2 rx) ∧ sameOutside s t s.pushSp 4 := by
  rw [← readReg_decremented]
  exact ⟨_, unlessFault_storable slot, rfl, store32_effect wf rfl⟩

/-- What CALL leaves (R283). -/
theorem exec_call (rx : IReg) (wf : Memory.wf s.mem) (slot : storable s 4 s.pushSp) :
    ∃ t, exec (.call rx) s = .next t ∧
      t = { s with pc := if rx = .sp then s.pushSp else operandOf s 2 rx, sp := s.pushSp, mem := t.mem } ∧
      holdsWord t s.pushSp (s.pc + 2#32) ∧ sameOutside s t s.pushSp 4 := by
  rw [← readReg_pushed s 2 (s.advance 2).pc]
  exact ⟨_, unlessFault_storable slot, rfl, store32_effect wf rfl⟩

/-- What BSRL leaves (R281). -/
theorem exec_bsrl (disp : Int) (wf : Memory.wf s.mem) (slot : storable s 4 s.pushSp) :
    ∃ t, exec (.bsrl disp) s = .next t ∧
      t = { s with pc := s.pc + 4#32 + BitVec.ofInt 32 disp, sp := s.pushSp, mem := t.mem } ∧
      holdsWord t s.pushSp (s.pc + 4#32) ∧ sameOutside s t s.pushSp 4 :=
  ⟨_, unlessFault_storable slot, rfl, store32_effect wf rfl⟩

/-- What POPL leaves (R284). -/
theorem exec_popl (rx : IReg) (slot : readable s 4 s.sp) :
    exec (.popl rx) s = .next
      { withResult s 2 rx (wordAt s s.sp) with sp := (if rx = .sp then wordAt s s.sp else s.sp) + 4#32 } := by
  refine (unlessFault_readable slot).trans ?_
  rw [writeReg_advance, ← load32_eq]
  cases rx with
  | sp => rw [if_pos rfl]; rfl
  | r | fp | ccr | pc => rw [if_neg nofun]; rfl

/-- What RETS leaves (R282). -/
theorem exec_rets (slots : Int) (slot : readable s 4 s.sp) :
    exec (.rets slots) s =
      .next { s with pc := wordAt s s.sp, sp := s.sp + 4#32 + 4#32 * BitVec.ofInt 32 slots } := by
  have released : s.sp + BitVec.ofInt 32 (4 + 4 * slots) = s.sp + 4#32 + 4#32 * BitVec.ofInt 32 slots := by
    rw [BitVec.ofInt_add, BitVec.ofInt_mul, BitVec.add_assoc]
    rfl
  rw [← released, ← load32_eq]
  exact unlessFault_readable slot

end

/-- Settles O56. -/
theorem stackOperands : Obligations.StackOperands :=
  ⟨fun _ wf slot => ⟨fun rx => exec_pushl rx wf slot, fun rx => exec_call rx wf slot, fun d => exec_bsrl d wf slot⟩,
    fun _ rx slot => exec_popl rx slot⟩

/-- SP after a push and a pop is SP before them (R280). -/
theorem pushSp_add (s : State) : s.pushSp + 4#32 = s.sp := BitVec.sub_add_cancel s.sp 4#32

/-- What a pop finds behind a push: the slot may be read, holds the pushed word, and SP goes back to where it was. -/
theorem pushed_slot {s t : State} {pc a : Word} (frame : t = { s with pc := pc, sp := s.pushSp, mem := t.mem })
    (slot : storable s 4 s.pushSp) (holds : holdsWord t s.pushSp a) :
    readable t 4 t.sp ∧ wordAt t t.sp = a ∧ t.sp + 4#32 = s.sp := by
  have sp : t.sp = s.pushSp := by rw [frame]
  have regions : t.regions = s.regions := by rw [frame]
  rw [sp]
  exact ⟨readable_congr regions (readable_of_storable slot), wordAt_of_holdsWord holds, pushSp_add s⟩

/-- A return from where the pushed word is still on top: RETS #0 and POPL PC alike (R282, R286). -/
theorem returns_to_pushed {s t : State} {pc a : Word} (frame : t = { s with pc := pc, sp := s.pushSp, mem := t.mem })
    (slot : storable s 4 s.pushSp) (holds : holdsWord t s.pushSp a) :
    exec (.rets 0) t = .next { s with pc := a, mem := t.mem } ∧
      exec (.popl .pc) t = .next { s with pc := a, mem := t.mem } := by
  obtain ⟨top, value, back⟩ := pushed_slot frame slot holds
  have none_released : t.sp + 4#32 + 4#32 * BitVec.ofInt 32 0 = s.sp := (BitVec.add_zero _).trans back
  rw [exec_rets 0 top, exec_popl .pc top, if_neg nofun, none_released, value, back, frame]
  exact ⟨rfl, rfl⟩

/-- Settles O58. -/
theorem callThenReturn : Obligations.CallThenReturn := by
  intro s wf slot i call
  rcases call with ⟨rx, rfl⟩ | ⟨d, rfl⟩
  · obtain ⟨t, called, frame, holds, same⟩ := exec_call rx wf slot
    obtain ⟨rets, popl⟩ := returns_to_pushed frame slot holds
    exact ⟨t, _, called, rets, popl, rfl, same⟩
  · obtain ⟨t, called, frame, holds, same⟩ := exec_bsrl d wf slot
    obtain ⟨rets, popl⟩ := returns_to_pushed frame slot holds
    exact ⟨t, _, called, rets, popl, rfl, same⟩

/-- A register that is written what it holds stays. -/
theorem withResult_operandOf {rx : IReg} (ne_sp : rx ≠ .sp) (ne_pc : rx ≠ .pc) (s : State) (m n : Nat) :
    withResult s n rx (operandOf s m rx) = s.advance n := by
  cases rx with
  | sp => exact absurd rfl ne_sp
  | pc => exact absurd rfl ne_pc
  | r k => exact congrArg (State.withR (s.advance n)) (Vector.set_getElem_self _)
  | fp => rfl
  | ccr =>
    obtain ⟨c, ov, n', z⟩ := getLsbD_ccr s.flags
    rw [operandOf, withResult, c, ov, n', z]
    rfl

/-- Settles O59. -/
theorem pushThenPop : Obligations.PushThenPop := by
  intro s rx wf slot ne_sp ne_pc
  obtain ⟨t, pushed, frame, holds, same⟩ := exec_pushl rx wf slot
  rw [if_neg ne_sp] at holds
  obtain ⟨top, value, back⟩ := pushed_slot frame slot holds
  have operand : operandOf s 2 rx = operandOf t 0 rx := by
    rw [frame]
    cases rx with
    | sp => exact absurd rfl ne_sp
    | pc => exact absurd rfl ne_pc
    | r | fp | ccr => rfl
  have popped : exec (.popl rx) t = .next { s with pc := s.pc + 4#32, mem := t.mem } := by
    have pc : s.pc + 2#32 + 2#32 = s.pc + 4#32 := BitVec.add_assoc _ _ _
    rw [exec_popl rx top, if_neg ne_sp, value, back, operand, withResult_operandOf ne_sp ne_pc, ← pc, frame]
    rfl
  exact ⟨t, _, pushed, popped, rfl, same⟩

section
variable {s : State}

/-- SYSCALL with SYS_EXIT (R278). -/
theorem exec_syscall_exit (wf : Memory.wf s.mem) (slot : storable s 4 s.pushSp) (number : s.r[0] = 0#32) :
    ∃ t, exec .syscall s = .next t ∧ t = { s with sp := s.pushSp, mem := t.mem, run := .exited s.r[1] } ∧
      holdsWord t s.pushSp (s.pc + 2#32) ∧ sameOutside s t s.pushSp 4 := by
  have ended : exec .syscall s = .next (exitRun s (calledFrom s) s.r[1]) := by
    refine (execSyscall_eq s).trans ?_
    rw [if_pos number]
    exact unlessFault_storable slot
  exact ⟨_, ended, rfl, store32_effect wf rfl⟩

/-- SYSCALL with another number: the host serves it in the state after the push and returns (R260). -/
theorem exec_syscall_return (slot : storable s 4 s.pushSp) (number : s.r[0] ≠ 0#32) :
    exec .syscall s = .next (calledFrom s).hostService.hostReturn := by
  refine (execSyscall_eq s).trans ?_
  rw [if_neg number]
  exact unlessFault_storable slot

/-- The bytes of a call's memory that the host may not write are those after the push (R274). -/
theorem byte_hostReturn (wf : Memory.wf s.mem) {a : Word}
    (kept : (calledFrom s).hostMayWrite Params.syscallOracle a = false) :
    (calledFrom s).hostService.hostReturn.byte a = (calledFrom s).byte a :=
  byte_hostService (s := calledFrom s) Params.defaults (Memory.store32_wf _ _ wf) kept

/-- The return slot still holds the pushed word after the call (R274). -/
theorem holdsWord_hostReturn (wf : Memory.wf s.mem) :
    holdsWord (calledFrom s).hostService.hostReturn s.pushSp (s.pc + 2#32) := by
  obtain ⟨b0, b1, b2, b3⟩ := (store32_effect (t := calledFrom s) (v := s.pc + 2#32) wf rfl).1
  have kept (k : Nat) (low : k < 4) :
      (calledFrom s).hostMayWrite Params.syscallOracle (s.pushSp + BitVec.ofNat 32 k) = false := by
    have inSlot : inRange (calledFrom s).sp 4 (s.pushSp + BitVec.ofNat 32 k) = true :=
      (inRange_iff _ _ _ (by decide)).2 ⟨k, low, rfl⟩
    rw [← Bool.not_eq_true, hostMayWrite_iff, inSlot]
    exact fun h => Bool.noConfusion h.2.1
  have k0 := kept 0 (by decide)
  rw [BitVec.add_zero] at k0
  exact ⟨(byte_hostReturn wf k0).trans b0, (byte_hostReturn wf (kept 1 (by decide))).trans b1,
    (byte_hostReturn wf (kept 2 (by decide))).trans b2, (byte_hostReturn wf (kept 3 (by decide))).trans b3⟩

end

/-- Settles O53. -/
theorem syscallExit : Obligations.SyscallExit := fun _ wf slot number => exec_syscall_exit wf slot number

/-- Settles O55: of O56, O53 and `exec_syscall_return`, the part that concerns the slot. -/
theorem stackSlots : Obligations.StackSlots := by
  constructor
  · intro s wf slot
    refine ⟨rfl, fun rx => ?_, fun rx => ?_, fun d => ?_, fun number => ?_, fun number => ?_⟩
    · obtain ⟨t, pushed, frame, holds, same⟩ := exec_pushl rx wf slot
      exact ⟨t, _, pushed, congrArg State.sp frame, holds, fun ne_sp => if_neg ne_sp, same⟩
    · obtain ⟨t, called, frame, holds, same⟩ := exec_call rx wf slot
      exact ⟨t, called, congrArg State.sp frame, holds, same⟩
    · obtain ⟨t, called, frame, holds, same⟩ := exec_bsrl d wf slot
      exact ⟨t, called, congrArg State.sp frame, holds, same⟩
    · obtain ⟨t, ended, frame, holds, same⟩ := exec_syscall_exit wf slot number
      exact ⟨t, ended, congrArg State.sp frame, holds, same⟩
    · have holds := holdsWord_hostReturn wf
      obtain ⟨pc, sp⟩ := hostReturn_push (s := s.advance 2) Params.defaults wf (s.pc + 2#32)
      exact ⟨_, exec_syscall_return slot number, holds, pc.trans (wordAt_of_holdsWord holds).symm,
        sp.trans (pushSp_add s).symm⟩
  · intro s slot
    refine ⟨fun rx => ⟨_, exec_popl rx slot, ?_, fun ne_sp => by rw [if_neg ne_sp]⟩, fun slots => exec_rets slots slot⟩
    cases rx <;> rfl

/-! What the described calls answer (R276), in the state after the push. -/

section
variable {p : State} {o : SyscallOracle}

theorem calls_of_number {c : SystemCall} (number : p.r[0] = c.number) : p.calls c = true := decide_eq_true number

theorem not_calls_of_number {c d : SystemCall} (number : p.r[0] = c.number) (other : c.number ≠ d.number) :
    p.calls d = false := decide_eq_false fun h => other (number.symm.trans h)

/-- The result of a call that is not SYS_FILES (R273, R276 d). -/
theorem callResult_of_not_files (not_files : p.calls .files = false) :
    p.callResult o = if p.calls .libcall && p.libcallDescribed o then (if p.permitted o then 0#32 else o.eacces)
      else (o.reply p).r[0] := by
  rw [State.callResult, not_files]
  rfl

theorem callResult_described (not_files : p.calls .files = false) (libcall : p.calls .libcall = true) :
    if p.libcallDescribed o then p.callResult o = 0#32 ∨ (p.callResult o = o.eacces ∧ o.eacces ≠ 0#32)
    else p.callResult o = (o.reply p).r[0] := by
  rw [callResult_of_not_files not_files, libcall, Bool.true_and]
  cases p.libcallDescribed o with
  | false => rfl
  | true =>
    cases p.permitted o with
    | false => exact .inr ⟨rfl, eacces_ne_zero o⟩
    | true => exact .inl rfl

theorem callResult_plain (not_files : p.calls .files = false) (not_libcall : p.calls .libcall = false) :
    p.callResult o = (o.reply p).r[0] := by
  rw [callResult_of_not_files not_files, not_libcall]
  rfl

theorem designated_files (files : p.calls .files = true) :
    p.designated o = (p.callParameter 1, 4) :: o.filesStorage p := by
  rw [State.designated, files]
  rfl

theorem designated_libcall (not_files : p.calls .files = false) (not_natcmd : p.calls .natcmd = false)
    (not_viscmd : p.calls .viscmd = false) (not_libopen : p.calls .libopen = false)
    (libcall : p.calls .libcall = true) :
    p.designated o =
      (p.callParameter 2, p.stringSize p.validSize (p.callParameter 2)) :: (p.callParameter 3, 8) ::
        (p.libcallBlock.2, p.libcallArraySize o) :: (p.libcallPointers o).map fun a => (a, o.pointerExtent p a) := by
  rw [State.designated, not_files, not_natcmd, not_viscmd, not_libopen, libcall]
  rfl

/-- SYS_FILES with a variable that the host may write (R276 c): what the two cases of its answer leave. -/
theorem files_answer (wf : Memory.wf p.mem) (files : p.calls .files = true)
    (described : p.filesDescribed Params.syscallOracle = true) :
    let reply := Params.syscallOracle.reply p
    (p.hostService.r[0] = 0#32 ∧ holdsWord p.hostService (p.callParameter 1) reply.files ∧
        namesAt p.hostService reply.files p.hostService.host.openFds.length) ∨
      (p.hostService.r[0] = Params.syscallOracle.eacces ∧ Params.syscallOracle.eacces ≠ 0#32) := by
  have result : p.hostService.r[0] = _ :=
    (hostService_r0 p Params.defaults).trans (callResult_files files described)
  cases succeeds : p.filesSucceeds Params.syscallOracle with
  | false =>
    rw [succeeds] at result
    exact .inr ⟨result, eacces_ne_zero _⟩
  | true =>
    rw [succeeds] at result
    have holds := (store32_effect (s := p.withMem _) (t := p.hostService) (Memory.storeCells_wf _ _ wf)
      (callMem_files files described succeeds)).1
    have names := namesAt_of_stringArray (stringArray_files (p := Params.defaults) files described succeeds)
    exact .inl ⟨result, holds, namesAt_congr (t := p.hostService) rfl rfl names⟩

/-- A library that SYS_LIBOPEN opened is among the libraries, under the oracle's handle (R276 e). -/
theorem libs_of_libopen (libopen : p.calls .libopen = true) :
    let reply := Params.syscallOracle.reply p
    if reply.opened then reply.r[0].toNat ∈ p.hostService.host.libs else p.hostService.host.libs = reply.host.libs := by
  have libs : p.hostService.host.libs = if (Params.syscallOracle.reply p).opened then _ else _ :=
    congrArg (fun c : Bool => if c && _ then _ else _) libopen
  intro reply
  rw [libs]
  cases reply.opened with
  | false => rfl
  | true => exact List.mem_cons_self

end

/-- Settles O54. -/
theorem syscallReturns : Obligations.SyscallReturns := by
  intro s inv slot number
  have wf := inv.1
  have wf_called : Memory.wf (calledFrom s).mem := Memory.store32_wf _ _ wf
  have executed := exec_syscall_return slot number
  obtain ⟨pc, sp⟩ := hostReturn_push (s := s.advance 2) Params.defaults wf (s.pc + 2#32)
  have keeps := keeps_exec executed
  have outside {a : Word} (h : inRange s.pushSp 4 a = false) : (calledFrom s).byte a = s.byte a :=
    State.byte_push (s := s.advance 2) wf _ a h
  refine ⟨_, executed, pc, sp, rfl, rfl, rfl, rfl, holdsWord_hostReturn wf,
    ⟨keeps.wf wf, fun d standard => openFds_exec executed d standard (inv.2 d standard)⟩, keeps.bytes wf, rfl,
    fun a kept free => (byte_hostReturn wf kept).trans (outside free),
    fun a may => (hostMayWrite_iff (calledFrom s) _ a).1 may, fun files => ?_, fun libcall => ?_, fun libopen => ?_⟩
  · have files : (calledFrom s).calls .files = true := calls_of_number (c := .files) files
    exact ⟨designated_files files, fun may => files_answer wf_called files ((everyByte_iff _ _ _).2 may)⟩
  · have not_calls {d : SystemCall} := not_calls_of_number (p := calledFrom s) (c := .libcall) (d := d) libcall
    have libcall : (calledFrom s).calls .libcall = true := calls_of_number (c := .libcall) libcall
    have not_files := not_calls (d := .files) (by decide)
    have result : (calledFrom s).hostService.hostReturn.r[0] = (calledFrom s).callResult Params.syscallOracle :=
      hostService_r0 _ Params.defaults
    rw [designated_libcall not_files (not_calls (by decide)) (not_calls (by decide)) (not_calls (by decide)) libcall,
      result, ← load32_eq]
    exact ⟨List.mem_cons_self, List.mem_cons_of_mem _ List.mem_cons_self,
      List.mem_cons_of_mem _ (List.mem_cons_of_mem _ List.mem_cons_self), callResult_described not_files libcall⟩
  · have not_calls {d : SystemCall} := not_calls_of_number (p := calledFrom s) (c := .libopen) (d := d) libopen
    have libopen : (calledFrom s).calls .libopen = true := calls_of_number (c := .libopen) libopen
    have handle : (calledFrom s).hostService.hostReturn.r[0] = (Params.syscallOracle.reply (calledFrom s)).r[0] :=
      (hostService_r0 _ Params.defaults).trans (callResult_plain (not_calls (by decide)) (not_calls (by decide)))
    refine ⟨handle, ?_⟩
    rw [handle]
    exact libs_of_libopen libopen

end Sys2Proof.Machine

/-! The launch (R340 to R345): where its sections lie in file and memory, what the bytes at an address are, how the entry
decides the run, and from these O21. -/

namespace Sys2Proof.Machine

/-- The layout in words: the segments in order below 2^32, the host's region apart from each (R344, R343). -/
theorem layoutOk_iff {h : FileFormat.Header} {inp : LaunchInput} :
    layoutOk h inp = true ↔
      0x01000000 + h.codesize.toNat ≤ inp.dataBase ∧ inp.dataBase + h.datasize.toNat ≤ inp.bssBase ∧
      inp.bssBase + h.bsssize.toNat ≤ 4294967296 ∧ inp.hostBase + inp.hostBytes.length ≤ 4294967296 ∧
      (∀ k, ¬(inp.hostBase ≤ k ∧ k < inp.hostBase + inp.hostBytes.length ∧
        0x01000000 ≤ k ∧ k < 0x01000000 + h.codesize.toNat)) ∧
      (∀ k, ¬(inp.hostBase ≤ k ∧ k < inp.hostBase + inp.hostBytes.length ∧
        inp.dataBase ≤ k ∧ k < inp.dataBase + h.datasize.toNat)) ∧
      (∀ k, ¬(inp.hostBase ≤ k ∧ k < inp.hostBase + inp.hostBytes.length ∧
        inp.bssBase ≤ k ∧ k < inp.bssBase + h.bsssize.toNat)) := by
  simp only [layoutOk, Bool.and_eq_true, decide_eq_true_eq, apart_iff, and_assoc]
  rfl

/-- A section's bytes are as many as its size says, and those of the file at its offset (R340, R351). -/
theorem sectionBytes_spec {file bytes : List Byte} {offset size : Word}
    (h : sectionBytes file offset size = some bytes) :
    bytes.length = size.toNat ∧ ∀ k, k < size.toNat → file[offset.toNat + k]? = bytes[k]? := by
  rw [sectionBytes] at h
  split at h
  · rename_i absent
    obtain rfl := Option.some.inj h
    rw [absent]
    exact ⟨rfl, fun k low => absurd low (Nat.not_lt_zero k)⟩
  · split at h
    · cases h
    · rw [FileFormat.bytesAt] at h
      split at h
      · rename_i inside
        obtain rfl := Option.some.inj h
        refine ⟨by rw [List.length_take, List.length_drop]; omega, fun k low => ?_⟩
        rw [List.getElem?_take_of_lt low, List.getElem?_drop]
      · cases h

/-- Where an entry decides the run: the exception of the first fetch (R342). -/
theorem enterAt_run (h : FileFormat.Header) (s : State) (running : s.run = .running) :
    (enterAt h s).run =
      if h.entry.toNat % 2 = 1 then .aborted (.illegalBusAccess (Config.codeBase + h.entry)) 20
      else if h.codesize.toNat ≤ h.entry.toNat then .aborted (.invalidMemoryAccess (Config.codeBase + h.entry)) 10
      else .running := by
  rw [enterAt, entryFault_eq]
  split_ifs
  · rfl
  · rfl
  · exact running

section
variable (h : FileFormat.Header) (code data : List Byte) (inp : LaunchInput)

/-- The map of a launch (R65). -/
theorem valid_entryState (a : Word) :
    (entryState h code data inp).valid a = true ↔
      (0x01000000 ≤ a.toNat ∧ a.toNat < 0x01000000 + h.codesize.toNat) ∨
      (inp.dataBase ≤ a.toNat ∧ a.toNat < inp.dataBase + h.datasize.toNat) ∨
      (inp.bssBase ≤ a.toNat ∧ a.toNat < inp.bssBase + h.bsssize.toNat) ∨
      (inp.hostBase ≤ a.toNat ∧ a.toNat < inp.hostBase + inp.hostBytes.length) := by
  simp [State.valid, entryState, Params.launchMemory, launchRegions, Region.covers, Config.codeBase]

theorem inCode_entryState (a : Word) :
    (entryState h code data inp).inCode a = true ↔
      0x01000000 ≤ a.toNat ∧ a.toNat < 0x01000000 + h.codesize.toNat := by
  simp [State.inCode, entryState, Params.launchMemory, launchRegions, Region.covers, Config.codeBase]

theorem writable_entryState (a : Word) :
    (entryState h code data inp).writable a = true ↔
      (entryState h code data inp).valid a = true ∧
        ¬(0x01000000 ≤ a.toNat ∧ a.toNat < 0x01000000 + h.codesize.toNat) := by
  rw [State.writable, Bool.and_eq_true, Bool.not_eq_true',
    ← inCode_entryState h code data inp, Bool.not_eq_true]

/-- The two registers that a launch sets (R343). -/
theorem readReg_entryState :
    (entryState h code data inp).readReg (.r 0) = inp.argc ∧ (entryState h code data inp).readReg (.r 1) = inp.argv :=
  ⟨(Vector.getElem_set_ne (by decide) (by decide) (by decide)).trans (Vector.getElem_set_self (by decide)),
    Vector.getElem_set_self (by decide)⟩

end

section
variable {h : FileFormat.Header} {code data : List Byte} {inp : LaunchInput} (layout : layoutOk h inp = true)
  (code_length : code.length = h.codesize.toNat) (data_length : data.length = h.datasize.toNat)
include layout code_length data_length

theorem wf_entryState : Memory.wf (entryState h code data inp).mem := by
  obtain ⟨code_data, data_bss, bss, host, -⟩ := layoutOk_iff.1 layout
  refine storeList_wf (storeList_wf (storeList_wf Memory.wf_nil ?_) ?_) host
  · show 0x01000000 + _ ≤ _
    omega
  · omega

/-- Each byte is the host's, the data's, the code's, or unwritten (R340, R345). -/
theorem byte_entryState (a : Word) :
    (entryState h code data inp).byte a =
      (if inp.hostBase ≤ a.toNat ∧ a.toNat < inp.hostBase + inp.hostBytes.length then
          inp.hostBytes[a.toNat - inp.hostBase]?
        else if inp.dataBase ≤ a.toNat ∧ a.toNat < inp.dataBase + h.datasize.toNat then data[a.toNat - inp.dataBase]?
        else if 0x01000000 ≤ a.toNat ∧ a.toNat < 0x01000000 + h.codesize.toNat then code[a.toNat - 0x01000000]?
        else none).getD (Config.unwrittenByte a) := by
  obtain ⟨code_data, data_bss, bss, host, -⟩ := layoutOk_iff.1 layout
  have wf_code : Memory.wf (storeList [] 0x01000000 code) := storeList_wf Memory.wf_nil (by omega)
  have wf_data : Memory.wf (storeList (storeList [] 0x01000000 code) inp.dataBase data) :=
    storeList_wf wf_code (by omega)
  show (Memory.find (storeList (storeList (storeList [] 0x01000000 code) inp.dataBase data) inp.hostBase inp.hostBytes)
    a.toNat).getD _ = _
  rw [find_storeList _ wf_data.1, find_storeList _ wf_code.1, find_storeList _ Memory.wf_nil.1, data_length,
    code_length]
  rfl

/-- The code stands at its base (R340). -/
theorem byte_code {k : Nat} (low : k < h.codesize.toNat) :
    code[k]? = some ((entryState h code data inp).byte (0x01000000#32 + BitVec.ofNat 32 k)) := by
  obtain ⟨code_data, data_bss, bss, host, host_code, -⟩ := layoutOk_iff.1 layout
  have address : (0x01000000#32 + BitVec.ofNat 32 k).toNat = 0x01000000 + k := by
    rw [BitVec.toNat_add, BitVec.toNat_ofNat, BitVec.toNat_ofNat]
    omega
  have free := host_code (0x01000000 + k)
  rw [byte_entryState layout code_length data_length, address, if_neg (by omega), if_neg (by omega), if_pos (by omega),
    Nat.add_sub_cancel_left, List.getElem?_eq_getElem (by omega), Option.getD_some]

/-- The data stand at their base (R340). -/
theorem byte_data {k : Nat} (low : k < h.datasize.toNat) :
    data[k]? = some ((entryState h code data inp).byte (BitVec.ofNat 32 (inp.dataBase + k))) := by
  obtain ⟨code_data, data_bss, bss, host, -, host_data, -⟩ := layoutOk_iff.1 layout
  have address : (BitVec.ofNat 32 (inp.dataBase + k)).toNat = inp.dataBase + k := by
    rw [BitVec.toNat_ofNat]
    omega
  have free := host_data (inp.dataBase + k)
  rw [byte_entryState layout code_length data_length, address, if_neg (by omega), if_pos (by omega),
    Nat.add_sub_cancel_left, List.getElem?_eq_getElem (by omega), Option.getD_some]

/-- The bss is not written (R345). -/
theorem byte_bss {k : Nat} (low : k < h.bsssize.toNat) :
    (entryState h code data inp).byte (BitVec.ofNat 32 (inp.bssBase + k)) =
      Config.unwrittenByte (BitVec.ofNat 32 (inp.bssBase + k)) := by
  obtain ⟨code_data, data_bss, bss, host, -, -, host_bss⟩ := layoutOk_iff.1 layout
  have address : (BitVec.ofNat 32 (inp.bssBase + k)).toNat = inp.bssBase + k := by
    rw [BitVec.toNat_ofNat]
    omega
  have free := host_bss (inp.bssBase + k)
  rw [byte_entryState layout code_length data_length, address, if_neg (by omega), if_neg (by omega), if_neg (by omega),
    Option.getD_none]

end

/-- Settles O21: a launch that succeeds has passed its checks, and the state is `entryState` but for the run. -/
theorem launchEntryState : Obligations.LaunchEntryState := by
  intro inp s launched
  obtain ⟨h, code, data, header, base, -, -, -, code_section, data_section, layout, arguments, rfl⟩ :=
    launch_ok launched
  obtain ⟨code_length, code_bytes⟩ := sectionBytes_spec code_section
  obtain ⟨data_length, data_bytes⟩ := sectionBytes_spec data_section
  have run := enterAt_run h (entryState h code data inp) rfl
  obtain ⟨r, entered⟩ := enterAt_eq h (entryState h code data inp)
  rw [entered] at run ⊢
  obtain ⟨argc, argv⟩ := readReg_entryState h code data inp
  rw [argvPlaced, argc, argv] at arguments
  have strings := stringsPlaced_spec arguments
  exact ⟨h, header, base, rfl, argc, argv, run, rfl,
    ⟨wf_entryState layout code_length data_length, fun d standard => mem_withStandardFds _ standard⟩,
    valid_entryState h code data inp, writable_entryState h code data inp, strings,
    fun k low => (code_bytes k low).trans (byte_code layout code_length data_length low),
    fun k low => (data_bytes k low).trans (byte_data layout code_length data_length low),
    fun k low => byte_bss layout code_length data_length low⟩

end Sys2Proof.Machine
